-- ==== Sys2Proof/Word.lean ====
section
/-! DEFINITION. Word.lean: the machine word, the byte and the register number (R8, R22). -/

namespace Sys2Proof

/-- A word is 32 bits (R8): every register, `ip`, an address, an instruction. -/
abbrev Word := BitVec 32

/-- A byte is 8 bits (R8). -/
abbrev Byte := BitVec 8

/-- A register number is 6 bits, 0 to 63 (R22). -/
abbrev RegNum := BitVec 6

end Sys2Proof
end

