-- ==== Sys2Proof/Config.lean ====
section
/-! DEFINITION. Config.lean: the open parameters of R6 that an implementation fixes, and the free values
that the spec leaves open (R12, R62). -/

namespace Sys2Proof

/-- `BYTE_ORDER` (R53): the order of the bytes of a word as the host sees memory. DESIGN CHOICE (log 8): the spec
names the default, little, and no other value; that the parameter has exactly these two is the model's choice. -/
inductive ByteOrder where
  | little
  | big
deriving DecidableEq, Repr

/-- `MAU_ORDER` (R62): which of its unperformed requests a unit may perform next. -/
inductive MauOrder where
  | any
  | fifo
deriving DecidableEq, Repr

/-- `ENT_MODE` (R150): whether `ENT` replaces the execution mask or narrows it. -/
inductive EntMode where
  | replace
  | narrow
deriving DecidableEq, Repr

/-- The fields of `NUM` (R6): one for each `title only` instruction of groups `0b0010` and `0b0011` (R5). -/
inductive NumField where
  | be | bs | bc | lsr | lsl | asr | rev | revh | revl | ffs | rthl | rthh
  | umuli | smuli | mulq | ufmai | sfmai | macq | udivi | sdivi | divq | urem | rcpq | sqrtq
  | abs | neg | sxt | ufloor | sfloor | uceil | sceil | round
deriving DecidableEq, Repr

/-- The branches, whose operand form `OPCODE_MAP` gives (R98, D22). -/
inductive BranchOp where
  | br | ben | bnen
deriving DecidableEq, Repr

/-- Where the parameter bits of one mnemonic stand and what they mean, if not as in `opcode_table.json`. -/
structure ParamLayout where
  /-- entry `k` is the parameter bit that holds bit `k` of the table's parameters -/
  order : List Nat
  /-- the parameter bits of the machine that are stored inverted (the polarity of a set-select bit, D5) -/
  flip : BitVec 23
  /-- the parameter bits, where `order` has put them, that `values` gives a meaning of its own: flags (R83), and
  any unused bit that serves as a flag ("at least 5 MSBs", R82) -/
  field : BitVec 23
  /-- pairs (the machine's, the table's) of values of the bits of `field` that differ: with them a form is named by
  any number of set-select bits (R110, D5). A mix of sets that the source does not list stays reserved (R26, R104):
  the machine's value for it is paired with one that the table reserves. -/
  values : List (BitVec 23 × BitVec 23)
deriving DecidableEq, Repr

/-- `OPCODE_MAP` (R6, D3 to D8), given as its difference from `opcode_table.json` (log 19). -/
structure OpcodeMap where
  /-- if the table's layout is not the machine's: entry `k` is the bit of the machine's word that holds bit `k`
  of the table's word; entries 23 to 31 place the opcode (R81) -/
  layout : Option (List Nat)
  /-- pairs (the machine's opcode, the table's opcode), for the opcodes that differ (R85) -/
  codes : List (BitVec 9 × BitVec 9)
  /-- pairs (the table's opcode, the layout of its parameter bits), for the mnemonics that differ -/
  params : List (BitVec 9 × ParamLayout)
  /-- the branches whose operand form is not `B23` (R98, D22), each with the parameter bits that its form marks
  `0`; their target is `Config.branchWord` -/
  branches : List (BranchOp × BitVec 23)
deriving DecidableEq, Repr

/-- The default of `OPCODE_MAP`: `opcode_table.json` itself. -/
def OpcodeMap.default : OpcodeMap := { layout := none, codes := [], params := [], branches := [] }

/-- The list names each of the places 0 to `n - 1` once. -/
def placesOk (n : Nat) (ps : List Nat) : Bool := ps.isPerm (List.range n)

/-- The pairs exchange values: no value stands twice on a side, and the same values stand on both sides. -/
def pairsOk {n : Nat} (ps : List (BitVec n × BitVec n)) : Bool :=
  decide (ps.map Prod.fst).Nodup && (ps.map Prod.fst).isPerm (ps.map Prod.snd)

/-- A layout in which no two fields share a bit and no two forms a value; `values` speaks of bits of `field`. -/
def ParamLayout.legal (r : ParamLayout) : Bool :=
  placesOk 23 r.order && pairsOk r.values &&
  r.values.all fun v => v.1 &&& ~~~r.field == 0#23 && v.2 &&& ~~~r.field == 0#23

/-- An `OPCODE_MAP` in which no two fields share a bit, no two mnemonics a code and no two forms of a mnemonic a
word, and in which the group codes are the source's (R84). -/
def OpcodeMap.legal (m : OpcodeMap) : Bool :=
  m.layout.all (placesOk 32) && pairsOk m.codes &&
  (m.codes.all fun c => c.1.extractLsb' 5 4 == c.2.extractLsb' 5 4) &&
  m.params.all fun r => r.2.legal

/-- The branch has an operand form of its own. -/
def OpcodeMap.ownBranch (m : OpcodeMap) (b : BranchOp) : Bool := m.branches.any fun r => r.1 == b

/-- The parameter bits that a branch's own operand form marks `0`; format `B23` marks none. -/
def OpcodeMap.branchZero (m : OpcodeMap) (b : BranchOp) : BitVec 23 :=
  match m.branches.find? fun r => r.1 == b with
  | some r => r.2
  | none => 0#23

/-- The parameters of the step relation that are no launch argument (R6, R40). `NSLICES` is the number
of slice records of the state. -/
structure Params where
  /-- `QFRAC`: fractional bits of the fixed-point format, legal 10 to 20 (R232) -/
  qfrac : Nat
  byteOrder : ByteOrder
  mauOrder : MauOrder
  /-- `MAU_QUEUE_DEPTH`: `none` is unbounded (R66) -/
  mauDepth : Option Nat
  entMode : EntMode
  /-- `SIG_HALTS` (R161) -/
  sigHalts : Bool
  /-- `OPCODE_MAP` -/
  opcodeMap : OpcodeMap
  /-- `NUM`: the fields for which the machine has a function of its own, `Config.numBody`; the others have the
  default bodies of R187 to R231 (log 18) -/
  numOwn : List NumField
deriving DecidableEq, Repr

/-- The defaults of R6. -/
def Params.default : Params :=
  { qfrac := 16, byteOrder := .little, mauOrder := .any, mauDepth := none, entMode := .replace,
    sigHalts := true, opcodeMap := OpcodeMap.default, numOwn := [] }

/-- `QFRAC` is in its legal range (R6, R232), and `OPCODE_MAP` is legal. -/
def Params.legal (p : Params) : Bool := decide (10 ≤ p.qfrac) && decide (p.qfrac ≤ 20) && p.opcodeMap.legal

/-- The machine has a function of its own for the field of `NUM`. -/
def Params.ownNum (p : Params) (n : NumField) : Bool := p.numOwn.contains n

/-- DESIGN CHOICE (log 1): the number of slices of `State.reset`, the value of the spec's test vectors. -/
def Config.resetSlices : Nat := 4

/-- DESIGN CHOICE (log 5): `ENTRY` and `IMAGE.base` of `State.reset`, the value of the spec's programs. -/
def Config.resetEntry : Word := 0x1000#32

/-- DESIGN CHOICE (log 7): what a byte of memory that nothing has written reads as. -/
def Config.unlistedByte : Byte := 0#8

/-- DESIGN CHOICE (log 12): `draw(32)` of R12, a value the spec leaves open, numbered by `State.frees`. -/
opaque Config.draw : Nat → Word

/-- DESIGN CHOICE (log 11): which request a held `COMMIT` sees performed next, where R62 leaves the order
open, and where in a plan a request stands (log 36), numbered by `State.frees`. -/
opaque Config.mauPick : Nat → Nat

/-- DESIGN CHOICE (log 36): how many moves of `Config.planMove` a plan holds, numbered by `State.frees`. -/
opaque Config.planLength : Nat → Nat

/-- DESIGN CHOICE (log 36): a move of a plan, numbered by `State.frees`: none is the core's turn, `some (u, k)` the
move of unit number `u` (0 the GMAU, `i + 1` the SMAU of Slice `i`) for request `k` of its queue. -/
opaque Config.planMove : Nat → Option (Nat × Nat)

/-- The function that a machine whose `NUM` does not take the default body of a field has for it (R6): of
`QFRAC` and the operands, after the free value where R233 leaves one. Nothing is known of it (log 18). -/
opaque Config.numBody : NumField → Nat → List Word → Word

/-- The target of a branch whose operand form is not `B23` (R6, R98): a word address (R28), of its parameter
bits and its own address. Nothing is known of it (log 19). -/
opaque Config.branchWord : BranchOp → BitVec 23 → Word → BitVec 30

end Sys2Proof
end

