-- ==== Sys2Proof/Syntax.lean ====
section
/-! DEFINITION. Syntax.lean: the instructions of FloofMP32.1, one constructor per row of
spec/opcode_table.json (R85), with the operands its format gives it (R86 to R100). -/

namespace Sys2Proof

/-- The two register sets (R22, R24); a set-select bit is 0 for Slice and 1 for Global (R110). -/
inductive RegSet where
  | slice
  | global
deriving DecidableEq, Repr

/-- The direction bit of `MVG` and `MVGE` (R91). -/
inductive MoveDir where
  | fromGlobal
  | toGlobal
deriving DecidableEq, Repr

/-- The `ImmediateFormat` types of `MVI` with an assigned type id (R101). -/
inductive ImmType where
  | unsignedInt
  | signedInt
  | mixedFixed
  | wholeFixed
  | fractionFixed
deriving DecidableEq, Repr

/-- The test condition codes (R163). -/
inductive Cond where
  | zro
  | equ
  | ult
  | ugt
  | slt
  | sgt
  | neg
  | cns
deriving DecidableEq, Repr

/-- How many registers a condition takes (R163): `ZRO`, `NEG` and `CNS` take one. -/
def Cond.takesTwo : Cond → Bool
  | .zro | .neg | .cns => false
  | .equ | .ult | .ugt | .slt | .sgt => true

/-- The 75 instructions (R85). `g`, `gd`, `gs` select a register set, `d` is the destination, `a`, `b`,
`rs`, `t`, `f`, `x`, `y` are named as in the formats of R86 to R100. `off` is the offset of format `B23` (R98), or
the parameter bits of a branch to which `OPCODE_MAP` gives another operand form. -/
inductive Instr where
  -- group 0b0000: registers, memory and texture access
  | mov (gd gs : RegSet) (d rs : RegNum)
  | mvg (dir : MoveDir) (d rs : RegNum)
  | mvge (dir : MoveDir) (d rs : RegNum)
  | mvi (g : RegSet) (ty : ImmType) (d : RegNum) (imm : BitVec 12)
  | relpc (g : RegSet) (d : RegNum) (imm : BitVec 12)
  | mvs (params : BitVec 23)
  | ld (g : RegSet) (d rs : RegNum)
  | sampr (g : RegSet) (t x y : RegNum)
  | sampc (g : RegSet) (t x y : RegNum)
  | st (gd gs : RegSet) (d rs : RegNum)
  | commit
  | discard
  -- group 0b0001: control flow and conditional execution
  | ent
  | enm (rs : RegNum)
  | tmst (d : RegNum)
  | emst (d : RegNum)
  | mskl (rs : RegNum)
  | ldt (d : RegNum)
  | tst (g : RegSet) (negated : Bool) (cond : Cond) (a b : RegNum)
  | sel (d t f : RegNum)
  | br (off : BitVec 23)
  | ben (off : BitVec 23)
  | bnen (off : BitVec 23)
  | sig
  | nop
  -- group 0b0010: logic
  | and (g : RegSet) (d a b : RegNum)
  | or (g : RegSet) (d a b : RegNum)
  | xor (g : RegSet) (d a b : RegNum)
  | not (g : RegSet) (d a : RegNum)
  | lnot (g : RegSet) (d a : RegNum)
  | lbool (g : RegSet) (d a : RegNum)
  | pcnt (g : RegSet) (d a : RegNum)
  | bits (g : RegSet) (d a : RegNum)
  | be (g : RegSet) (d a b : RegNum)
  | bs (g : RegSet) (d a b : RegNum)
  | bc (g : RegSet) (d a b : RegNum)
  | lsr (g : RegSet) (d a b : RegNum)
  | lsl (g : RegSet) (d a b : RegNum)
  | asr (g : RegSet) (d a b : RegNum)
  | rev (g : RegSet) (d a : RegNum)
  | revh (g : RegSet) (d a : RegNum)
  | revl (g : RegSet) (d a : RegNum)
  | ffs (g : RegSet) (d a : RegNum)
  | rthl (g : RegSet) (d a : RegNum)
  | rthh (g : RegSet) (d a : RegNum)
  -- group 0b0011: mathematics
  | add (g : RegSet) (d a b : RegNum)
  | sub (g : RegSet) (d a b : RegNum)
  | umuli (g : RegSet) (d a b : RegNum)
  | smuli (g : RegSet) (d a b : RegNum)
  | mulq (g : RegSet) (d a b : RegNum)
  | ufmai (g : RegSet) (d a b : RegNum)
  | sfmai (g : RegSet) (d a b : RegNum)
  | macq (g : RegSet) (d a b : RegNum)
  | udivi (g : RegSet) (d a b : RegNum)
  | sdivi (g : RegSet) (d a b : RegNum)
  | divq (g : RegSet) (d a b : RegNum)
  | urem (g : RegSet) (d a b : RegNum)
  | rcpq (g : RegSet) (d a : RegNum)
  | sqrtq (g : RegSet) (d a : RegNum)
  | abs (g : RegSet) (d a : RegNum)
  | neg (g : RegSet) (d a : RegNum)
  | sxt (g : RegSet) (d a : RegNum)
  | ufloor (g : RegSet) (d a : RegNum)
  | sfloor (g : RegSet) (d a : RegNum)
  | uceil (g : RegSet) (d a : RegNum)
  | sceil (g : RegSet) (d a : RegNum)
  | round (g : RegSet) (d a : RegNum)
  -- group 0b0100: raster and tile control, parameters without layout (R100)
  | tild (params : BitVec 23)
  | tist (params : BitVec 23)
  | pld (params : BitVec 23)
  | pst (params : BitVec 23)
  | tofs (params : BitVec 23)
  | tofl (params : BitVec 23)
  | tril (params : BitVec 23)
  | baryp (params : BitVec 23)
deriving DecidableEq, Repr

end Sys2Proof
end

