-- ==== Sys2Proof/WellFormed.lean ====
section
/-! DEFINITION. WellFormed.lean: the reserved operand combinations of R104 that the syntax can write
down. Every other operand restriction of R104 is carried by the operand types. -/

namespace Sys2Proof

/-- A register that names a pair has an even number (R33, R104). -/
def RegNum.namesPair (t : RegNum) : Bool := t.extractLsb' 0 1 == 0#1

/-- `i` is an instruction that R104 does not reserve: `ST Gd, Ss` is reserved (R90), a one-operand
condition has `b = 0` (R96), the texture metadata pair is named by an even register (R99). -/
def Instr.wellFormed : Instr → Bool
  | .st .global .slice _ _ => false
  | .tst _ _ cond _ b => cond.takesTwo || b == 0#6
  | .sampr _ t _ _ => RegNum.namesPair t
  | .sampc _ t _ _ => RegNum.namesPair t
  | _ => true

end Sys2Proof
end

