-- ==== Sys2Proof/Decode.lean ====
section
/-! DEFINITION. Decode.lean: the decoder, total on 32-bit words (R103, R104), and the encoder, both
written from the formats of R86 to R100 and the opcode map of R85. R103's verdict `refused` is given to
the decoded instruction by its meaning, so the decoder names the instruction of a refused word too. -/

namespace Sys2Proof

/-- Why a word is illegal (R104); each makes the step raise `IllegalInstruction(ip, w)`. -/
inductive DecodeError where
  /-- group code `0b0101` to `0b1111` (R84, R249) -/
  | unassignedGroup
  /-- an instruction code with no row in R85 (R249) -/
  | unassignedCode
  /-- a bit that the format marks `0` is 1 -/
  | reservedBit
  /-- `MVI` with type id 5, 6 or 7 (R101) -/
  | reservedImmType
  /-- `ST` with `gd gs = 10` (R90) -/
  | reservedStore
  /-- `TST` with a one-operand condition and `b` not 0 (R96) -/
  | strayOperand
  /-- `SAMPR` or `SAMPC` with an odd pair register (R33) -/
  | oddPair
deriving DecidableEq, Repr

/-! ## Fields -/

/-- The value of a set-select bit (R110). -/
def setOfBit (b : BitVec 1) : RegSet := if b = 0#1 then .slice else .global

/-- The set-select bit of a set (R110). -/
def bitOfSet : RegSet → BitVec 1
  | .slice => 0#1
  | .global => 1#1

/-- The direction of `MVG` and `MVGE` from bit 22 (R91). -/
def dirOfBit (b : BitVec 1) : MoveDir := if b = 0#1 then .fromGlobal else .toGlobal

/-- Bit 22 of `MVG` and `MVGE` (R91). -/
def bitOfDir : MoveDir → BitVec 1
  | .fromGlobal => 0#1
  | .toGlobal => 1#1

/-- The immediate type of a type id; ids 5 to 7 are not assigned (R101). -/
def immTypeOfCode (c : BitVec 3) : Option ImmType :=
  match c.toNat with
  | 0 => some .unsignedInt
  | 1 => some .signedInt
  | 2 => some .mixedFixed
  | 3 => some .wholeFixed
  | 4 => some .fractionFixed
  | _ => none

/-- The type id of an immediate type (R101). -/
def codeOfImmType : ImmType → BitVec 3
  | .unsignedInt => 0#3
  | .signedInt => 1#3
  | .mixedFixed => 2#3
  | .wholeFixed => 3#3
  | .fractionFixed => 4#3

/-- The condition of a condition code (R163). -/
def condOfCode (c : BitVec 3) : Cond :=
  match c.toNat with
  | 0 => .zro
  | 1 => .equ
  | 2 => .ult
  | 3 => .ugt
  | 4 => .slt
  | 5 => .sgt
  | 6 => .neg
  | _ => .cns

/-- The condition code of a condition (R163). -/
def codeOfCond : Cond → BitVec 3
  | .zro => 0#3
  | .equ => 1#3
  | .ult => 2#3
  | .ugt => 3#3
  | .slt => 4#3
  | .sgt => 5#3
  | .neg => 6#3
  | .cns => 7#3

/-- Field `d`, `w[17:12]` (R83). -/
def fieldD (w : Word) : RegNum := w.extractLsb' 12 6

/-- Field `a`, `w[11:6]` (R83). -/
def fieldA (w : Word) : RegNum := w.extractLsb' 6 6

/-- Field `b`, `w[5:0]` (R83). -/
def fieldB (w : Word) : RegNum := w.extractLsb' 0 6

/-- The set chosen by `w[22]`, the first set-select bit (R110). -/
def fieldSet (w : Word) : RegSet := setOfBit (w.extractLsb' 22 1)

/-- The set chosen by `w[21]`, the second set-select bit of `MOV` and `ST` (R89, R90). -/
def fieldSet2 (w : Word) : RegSet := setOfBit (w.extractLsb' 21 1)

/-- `i` if the bits the format marks `0` are zero, else illegal (R103 step 3). -/
def ifZero (zero : Bool) (i : Instr) : Except DecodeError Instr :=
  if zero then .ok i else .error .reservedBit

/-! ## Formats, decoding -/

/-- Format `Z` (R86). -/
def decodeZ (w : Word) (i : Instr) : Except DecodeError Instr :=
  ifZero (w.extractLsb' 0 23 == 0#23) i

/-- Format `A3U` (R87). -/
def decodeA3U (w : Word) (mk : RegSet → RegNum → RegNum → RegNum → Instr) : Except DecodeError Instr :=
  ifZero (w.extractLsb' 18 4 == 0#4) (mk (fieldSet w) (fieldD w) (fieldA w) (fieldB w))

/-- Format `A2U` (R88). -/
def decodeA2U (w : Word) (mk : RegSet → RegNum → RegNum → Instr) : Except DecodeError Instr :=
  ifZero (w.extractLsb' 18 4 == 0#4 && w.extractLsb' 0 6 == 0#6) (mk (fieldSet w) (fieldD w) (fieldA w))

/-- Format `A2M` (R89). -/
def decodeA2M (w : Word) (mk : RegSet → RegSet → RegNum → RegNum → Instr) : Except DecodeError Instr :=
  ifZero (w.extractLsb' 18 3 == 0#3 && w.extractLsb' 0 6 == 0#6)
    (mk (fieldSet w) (fieldSet2 w) (fieldD w) (fieldA w))

/-- Format `A2ST` (R90): the bits of `A2M`, with `gd gs = 10` reserved. -/
def decodeA2ST (w : Word) (mk : RegSet → RegSet → RegNum → RegNum → Instr) : Except DecodeError Instr :=
  if w.extractLsb' 18 3 == 0#3 && w.extractLsb' 0 6 == 0#6 then
    if w.extractLsb' 21 2 == 2#2 then .error .reservedStore
    else .ok (mk (fieldSet w) (fieldSet2 w) (fieldD w) (fieldA w))
  else .error .reservedBit

/-- Format `A2X` (R91). -/
def decodeA2X (w : Word) (mk : MoveDir → RegNum → RegNum → Instr) : Except DecodeError Instr :=
  ifZero (w.extractLsb' 18 4 == 0#4 && w.extractLsb' 0 6 == 0#6)
    (mk (dirOfBit (w.extractLsb' 22 1)) (fieldD w) (fieldA w))

/-- Format `I12` (R92, R101). -/
def decodeI12 (w : Word) (mk : RegSet → ImmType → RegNum → BitVec 12 → Instr) : Except DecodeError Instr :=
  if w.extractLsb' 18 1 == 0#1 then
    match immTypeOfCode (w.extractLsb' 19 3) with
    | some ty => .ok (mk (fieldSet w) ty (fieldD w) (w.extractLsb' 0 12))
    | none => .error .reservedImmType
  else .error .reservedBit

/-- Format `PCI` (R93). -/
def decodePCI (w : Word) (mk : RegSet → RegNum → BitVec 12 → Instr) : Except DecodeError Instr :=
  ifZero (w.extractLsb' 18 4 == 0#4) (mk (fieldSet w) (fieldD w) (w.extractLsb' 0 12))

/-- Format `A1D` (R94). -/
def decodeA1D (w : Word) (mk : RegNum → Instr) : Except DecodeError Instr :=
  ifZero (w.extractLsb' 18 5 == 0#5 && w.extractLsb' 0 12 == 0#12) (mk (fieldD w))

/-- Format `A1S` (R95). -/
def decodeA1S (w : Word) (mk : RegNum → Instr) : Except DecodeError Instr :=
  ifZero (w.extractLsb' 12 11 == 0#11 && w.extractLsb' 0 6 == 0#6) (mk (fieldA w))

/-- Format `TST` (R96): a one-operand condition leaves `b` zero (R104). -/
def decodeTST (w : Word) (mk : RegSet → Bool → Cond → RegNum → RegNum → Instr) : Except DecodeError Instr :=
  if w.extractLsb' 12 6 == 0#6 then
    if (condOfCode (w.extractLsb' 18 3)).takesTwo || fieldB w == 0#6 then
      .ok (mk (fieldSet w) (w.extractLsb' 21 1 == 1#1) (condOfCode (w.extractLsb' 18 3)) (fieldA w) (fieldB w))
    else .error .strayOperand
  else .error .reservedBit

/-- Format `A3S` (R97). -/
def decodeA3S (w : Word) (mk : RegNum → RegNum → RegNum → Instr) : Except DecodeError Instr :=
  ifZero (w.extractLsb' 18 5 == 0#5) (mk (fieldD w) (fieldA w) (fieldB w))

/-- Format `B23` (R98). -/
def decodeB23 (w : Word) (mk : BitVec 23 → Instr) : Except DecodeError Instr :=
  .ok (mk (w.extractLsb' 0 23))

/-- Format `A3T` (R99): the pair register `t` is even (R33, R104). -/
def decodeA3T (w : Word) (mk : RegSet → RegNum → RegNum → RegNum → Instr) : Except DecodeError Instr :=
  if w.extractLsb' 18 4 == 0#4 then
    if RegNum.namesPair (fieldD w) then .ok (mk (fieldSet w) (fieldD w) (fieldA w) (fieldB w))
    else .error .oddPair
  else .error .reservedBit

/-- Format `X` (R100): only the opcode is matched. -/
def decodeX (w : Word) (mk : BitVec 23 → Instr) : Except DecodeError Instr :=
  .ok (mk (w.extractLsb' 0 23))

/-! ## The opcode map, decoding -/

/-- Group 0b0000, registers, memory and texture access: the rows of R85. -/
def decodeGroup0 (icode : BitVec 5) (w : Word) : Except DecodeError Instr :=
  match icode.toNat with
  | 0 => decodeA2M w .mov
  | 1 => decodeA2X w .mvg
  | 2 => decodeA2X w .mvge
  | 3 => decodeI12 w .mvi
  | 4 => decodePCI w .relpc
  | 5 => decodeX w .mvs
  | 6 => decodeA2U w .ld
  | 7 => decodeA3T w .sampr
  | 8 => decodeA3T w .sampc
  | 9 => decodeA2ST w .st
  | 10 => decodeZ w .commit
  | 11 => decodeZ w .discard
  | _ => .error .unassignedCode

/-- Group 0b0001, control flow and conditional execution: the rows of R85. -/
def decodeGroup1 (icode : BitVec 5) (w : Word) : Except DecodeError Instr :=
  match icode.toNat with
  | 0 => decodeZ w .ent
  | 1 => decodeA1S w .enm
  | 2 => decodeA1D w .tmst
  | 3 => decodeA1D w .emst
  | 4 => decodeA1S w .mskl
  | 5 => decodeA1D w .ldt
  | 6 => decodeTST w .tst
  | 7 => decodeA3S w .sel
  | 8 => decodeB23 w .br
  | 9 => decodeB23 w .ben
  | 10 => decodeB23 w .bnen
  | 11 => decodeZ w .sig
  | 12 => decodeZ w .nop
  | _ => .error .unassignedCode

/-- Group 0b0010, logic: the rows of R85. -/
def decodeGroup2 (icode : BitVec 5) (w : Word) : Except DecodeError Instr :=
  match icode.toNat with
  | 0 => decodeA3U w .and
  | 1 => decodeA3U w .or
  | 2 => decodeA3U w .xor
  | 3 => decodeA2U w .not
  | 4 => decodeA2U w .lnot
  | 5 => decodeA2U w .lbool
  | 6 => decodeA2U w .pcnt
  | 7 => decodeA2U w .bits
  | 8 => decodeA3U w .be
  | 9 => decodeA3U w .bs
  | 10 => decodeA3U w .bc
  | 11 => decodeA3U w .lsr
  | 12 => decodeA3U w .lsl
  | 13 => decodeA3U w .asr
  | 14 => decodeA2U w .rev
  | 15 => decodeA2U w .revh
  | 16 => decodeA2U w .revl
  | 17 => decodeA2U w .ffs
  | 18 => decodeA2U w .rthl
  | 19 => decodeA2U w .rthh
  | _ => .error .unassignedCode

/-- Group 0b0011, mathematics: the rows of R85. -/
def decodeGroup3 (icode : BitVec 5) (w : Word) : Except DecodeError Instr :=
  match icode.toNat with
  | 0 => decodeA3U w .add
  | 1 => decodeA3U w .sub
  | 2 => decodeA3U w .umuli
  | 3 => decodeA3U w .smuli
  | 4 => decodeA3U w .mulq
  | 5 => decodeA3U w .ufmai
  | 6 => decodeA3U w .sfmai
  | 7 => decodeA3U w .macq
  | 8 => decodeA3U w .udivi
  | 9 => decodeA3U w .sdivi
  | 10 => decodeA3U w .divq
  | 11 => decodeA3U w .urem
  | 12 => decodeA2U w .rcpq
  | 13 => decodeA2U w .sqrtq
  | 14 => decodeA2U w .abs
  | 15 => decodeA2U w .neg
  | 16 => decodeA2U w .sxt
  | 17 => decodeA2U w .ufloor
  | 18 => decodeA2U w .sfloor
  | 19 => decodeA2U w .uceil
  | 20 => decodeA2U w .sceil
  | 21 => decodeA2U w .round
  | _ => .error .unassignedCode

/-- Group 0b0100, raster and tile control: the rows of R85. -/
def decodeGroup4 (icode : BitVec 5) (w : Word) : Except DecodeError Instr :=
  match icode.toNat with
  | 0 => decodeX w .tild
  | 1 => decodeX w .tist
  | 2 => decodeX w .pld
  | 3 => decodeX w .pst
  | 4 => decodeX w .tofs
  | 5 => decodeX w .tofl
  | 6 => decodeX w .tril
  | 7 => decodeX w .baryp
  | _ => .error .unassignedCode

/-- The decoder (R103) of words laid out as `opcode_table.json` has them: the group code `w[31:28]` and the
instruction code `w[27:23]` choose the row of R85, the row's format reads the parameters. -/
def decode (w : Word) : Except DecodeError Instr :=
  match (w.extractLsb' 28 4).toNat with
  | 0 => decodeGroup0 (w.extractLsb' 23 5) w
  | 1 => decodeGroup1 (w.extractLsb' 23 5) w
  | 2 => decodeGroup2 (w.extractLsb' 23 5) w
  | 3 => decodeGroup3 (w.extractLsb' 23 5) w
  | 4 => decodeGroup4 (w.extractLsb' 23 5) w
  | _ => .error .unassignedGroup

/-- The instruction the decoder reads from an instruction whose bits are `w`, numbered as
spec/opcode_table.json numbers them; bits at or above `nbits` are 0. -/
def decodeTableWord (nbits w : Nat) : Option Instr :=
  match decode (BitVec.ofNat 32 (w % 2 ^ nbits)) with
  | .ok i => some i
  | .error _ => none

/-! ## Formats, encoding -/

/-- Opcode above parameters (R81). -/
def wordOf (op : BitVec 9) (p : BitVec 23) : Word := op ++ p

/-- Format `A3U` (R87). -/
def paramsA3U (g : RegSet) (d a b : RegNum) : BitVec 23 := bitOfSet g ++ 0#4 ++ d ++ a ++ b

/-- Format `A2U` (R88). -/
def paramsA2U (g : RegSet) (d a : RegNum) : BitVec 23 := bitOfSet g ++ 0#4 ++ d ++ a ++ 0#6

/-- Formats `A2M` and `A2ST` (R89, R90). -/
def paramsA2M (gd gs : RegSet) (d rs : RegNum) : BitVec 23 :=
  bitOfSet gd ++ bitOfSet gs ++ 0#3 ++ d ++ rs ++ 0#6

/-- Format `A2X` (R91). -/
def paramsA2X (dir : MoveDir) (d rs : RegNum) : BitVec 23 := bitOfDir dir ++ 0#4 ++ d ++ rs ++ 0#6

/-- Format `I12` (R92). -/
def paramsI12 (g : RegSet) (ty : ImmType) (d : RegNum) (imm : BitVec 12) : BitVec 23 :=
  bitOfSet g ++ codeOfImmType ty ++ 0#1 ++ d ++ imm

/-- Format `PCI` (R93). -/
def paramsPCI (g : RegSet) (d : RegNum) (imm : BitVec 12) : BitVec 23 := bitOfSet g ++ 0#4 ++ d ++ imm

/-- Format `A1D` (R94). -/
def paramsA1D (d : RegNum) : BitVec 23 := 0#5 ++ d ++ 0#12

/-- Format `A1S` (R95). -/
def paramsA1S (rs : RegNum) : BitVec 23 := 0#11 ++ rs ++ 0#6

/-- Format `TST` (R96). -/
def paramsTST (g : RegSet) (negated : Bool) (c : Cond) (a b : RegNum) : BitVec 23 :=
  bitOfSet g ++ BitVec.ofBool negated ++ codeOfCond c ++ 0#6 ++ a ++ b

/-- Format `A3S` (R97). -/
def paramsA3S (d t f : RegNum) : BitVec 23 := 0#5 ++ d ++ t ++ f

/-- Format `A3T` (R99). -/
def paramsA3T (g : RegSet) (t x y : RegNum) : BitVec 23 := bitOfSet g ++ 0#4 ++ t ++ x ++ y

/-! ## The opcode map, encoding -/

/-- The word of an instruction (R85 for the opcode, R86 to R100 for the parameters). -/
def encode : Instr → Word
  | .mov gd gs d rs => wordOf 0x000#9 (paramsA2M gd gs d rs)
  | .mvg dir d rs => wordOf 0x001#9 (paramsA2X dir d rs)
  | .mvge dir d rs => wordOf 0x002#9 (paramsA2X dir d rs)
  | .mvi g ty d imm => wordOf 0x003#9 (paramsI12 g ty d imm)
  | .relpc g d imm => wordOf 0x004#9 (paramsPCI g d imm)
  | .mvs params => wordOf 0x005#9 params
  | .ld g d a => wordOf 0x006#9 (paramsA2U g d a)
  | .sampr g t x y => wordOf 0x007#9 (paramsA3T g t x y)
  | .sampc g t x y => wordOf 0x008#9 (paramsA3T g t x y)
  | .st gd gs d rs => wordOf 0x009#9 (paramsA2M gd gs d rs)
  | .commit => wordOf 0x00A#9 0#23
  | .discard => wordOf 0x00B#9 0#23
  | .ent => wordOf 0x020#9 0#23
  | .enm rs => wordOf 0x021#9 (paramsA1S rs)
  | .tmst d => wordOf 0x022#9 (paramsA1D d)
  | .emst d => wordOf 0x023#9 (paramsA1D d)
  | .mskl rs => wordOf 0x024#9 (paramsA1S rs)
  | .ldt d => wordOf 0x025#9 (paramsA1D d)
  | .tst g n c a b => wordOf 0x026#9 (paramsTST g n c a b)
  | .sel d t f => wordOf 0x027#9 (paramsA3S d t f)
  | .br off => wordOf 0x028#9 off
  | .ben off => wordOf 0x029#9 off
  | .bnen off => wordOf 0x02A#9 off
  | .sig => wordOf 0x02B#9 0#23
  | .nop => wordOf 0x02C#9 0#23
  | .and g d a b => wordOf 0x040#9 (paramsA3U g d a b)
  | .or g d a b => wordOf 0x041#9 (paramsA3U g d a b)
  | .xor g d a b => wordOf 0x042#9 (paramsA3U g d a b)
  | .not g d a => wordOf 0x043#9 (paramsA2U g d a)
  | .lnot g d a => wordOf 0x044#9 (paramsA2U g d a)
  | .lbool g d a => wordOf 0x045#9 (paramsA2U g d a)
  | .pcnt g d a => wordOf 0x046#9 (paramsA2U g d a)
  | .bits g d a => wordOf 0x047#9 (paramsA2U g d a)
  | .be g d a b => wordOf 0x048#9 (paramsA3U g d a b)
  | .bs g d a b => wordOf 0x049#9 (paramsA3U g d a b)
  | .bc g d a b => wordOf 0x04A#9 (paramsA3U g d a b)
  | .lsr g d a b => wordOf 0x04B#9 (paramsA3U g d a b)
  | .lsl g d a b => wordOf 0x04C#9 (paramsA3U g d a b)
  | .asr g d a b => wordOf 0x04D#9 (paramsA3U g d a b)
  | .rev g d a => wordOf 0x04E#9 (paramsA2U g d a)
  | .revh g d a => wordOf 0x04F#9 (paramsA2U g d a)
  | .revl g d a => wordOf 0x050#9 (paramsA2U g d a)
  | .ffs g d a => wordOf 0x051#9 (paramsA2U g d a)
  | .rthl g d a => wordOf 0x052#9 (paramsA2U g d a)
  | .rthh g d a => wordOf 0x053#9 (paramsA2U g d a)
  | .add g d a b => wordOf 0x060#9 (paramsA3U g d a b)
  | .sub g d a b => wordOf 0x061#9 (paramsA3U g d a b)
  | .umuli g d a b => wordOf 0x062#9 (paramsA3U g d a b)
  | .smuli g d a b => wordOf 0x063#9 (paramsA3U g d a b)
  | .mulq g d a b => wordOf 0x064#9 (paramsA3U g d a b)
  | .ufmai g d a b => wordOf 0x065#9 (paramsA3U g d a b)
  | .sfmai g d a b => wordOf 0x066#9 (paramsA3U g d a b)
  | .macq g d a b => wordOf 0x067#9 (paramsA3U g d a b)
  | .udivi g d a b => wordOf 0x068#9 (paramsA3U g d a b)
  | .sdivi g d a b => wordOf 0x069#9 (paramsA3U g d a b)
  | .divq g d a b => wordOf 0x06A#9 (paramsA3U g d a b)
  | .urem g d a b => wordOf 0x06B#9 (paramsA3U g d a b)
  | .rcpq g d a => wordOf 0x06C#9 (paramsA2U g d a)
  | .sqrtq g d a => wordOf 0x06D#9 (paramsA2U g d a)
  | .abs g d a => wordOf 0x06E#9 (paramsA2U g d a)
  | .neg g d a => wordOf 0x06F#9 (paramsA2U g d a)
  | .sxt g d a => wordOf 0x070#9 (paramsA2U g d a)
  | .ufloor g d a => wordOf 0x071#9 (paramsA2U g d a)
  | .sfloor g d a => wordOf 0x072#9 (paramsA2U g d a)
  | .uceil g d a => wordOf 0x073#9 (paramsA2U g d a)
  | .sceil g d a => wordOf 0x074#9 (paramsA2U g d a)
  | .round g d a => wordOf 0x075#9 (paramsA2U g d a)
  | .tild params => wordOf 0x080#9 params
  | .tist params => wordOf 0x081#9 params
  | .pld params => wordOf 0x082#9 params
  | .pst params => wordOf 0x083#9 params
  | .tofs params => wordOf 0x084#9 params
  | .tofl params => wordOf 0x085#9 params
  | .tril params => wordOf 0x086#9 params
  | .baryp params => wordOf 0x087#9 params

/-! ## Any `OPCODE_MAP` (R6) -/

/-- The bit vector whose bit `k` is `f k`. -/
def bitsBy (f : Nat → Bool) : (n : Nat) → BitVec n
  | 0 => 0#0
  | n + 1 => BitVec.cons (f n) (bitsBy f n)

/-- Bit `k` of the result is the bit of `v` at place `ps[k]`. -/
def takeBits {n : Nat} (ps : List Nat) (v : BitVec n) : BitVec n := bitsBy (fun k => v.getLsbD (ps.getD k n)) n

/-- The bit of the result at place `ps[k]` is bit `k` of `v`. -/
def putBits {n : Nat} (ps : List Nat) (v : BitVec n) : BitVec n := bitsBy (fun j => v.getLsbD (ps.idxOf j)) n

/-- The machine's word with its bits in the places of `opcode_table.json` (R81). -/
def OpcodeMap.tableLayout (m : OpcodeMap) (w : Word) : Word :=
  match m.layout with
  | some ps => takeBits ps w
  | none => w

/-- A word of `opcode_table.json` with its bits in the machine's places (R81). -/
def OpcodeMap.machineLayout (m : OpcodeMap) (v : Word) : Word :=
  match m.layout with
  | some ps => putBits ps v
  | none => v

/-- The table's value for the machine's value `x`: that of its pair, `x` itself without one. -/
def toTable {n : Nat} (ps : List (BitVec n × BitVec n)) (x : BitVec n) : BitVec n :=
  match ps.find? fun c => c.1 == x with
  | some c => c.2
  | none => x

/-- The machine's value for the table's value `x`. -/
def toMachine {n : Nat} (ps : List (BitVec n × BitVec n)) (x : BitVec n) : BitVec n :=
  match ps.find? fun c => c.2 == x with
  | some c => c.1
  | none => x

/-- Parameters with the value of their bits in `field` changed by `f`. -/
def withField (field : BitVec 23) (f : BitVec 23 → BitVec 23) (p : BitVec 23) : BitVec 23 :=
  f (p &&& field) ||| (p &&& ~~~field)

/-- The opcode of `opcode_table.json` for the machine's opcode (R85). -/
def OpcodeMap.tableOpcode (m : OpcodeMap) (op : BitVec 9) : BitVec 9 := toTable m.codes op

/-- The machine's opcode for that of `opcode_table.json` (R85). -/
def OpcodeMap.machineOpcode (m : OpcodeMap) (op : BitVec 9) : BitVec 9 := toMachine m.codes op

/-- The machine's parameter bits of the mnemonic with the table's opcode `op`, as in the table. -/
def OpcodeMap.tableParams (m : OpcodeMap) (op : BitVec 9) (p : BitVec 23) : BitVec 23 :=
  match m.params.find? fun r => r.1 == op with
  | some r => withField r.2.field (toTable r.2.values) (takeBits r.2.order (p ^^^ r.2.flip))
  | none => p

/-- The table's parameter bits of the mnemonic with the table's opcode `op`, as the machine has them. -/
def OpcodeMap.machineParams (m : OpcodeMap) (op : BitVec 9) (p : BitVec 23) : BitVec 23 :=
  match m.params.find? fun r => r.1 == op with
  | some r => putBits r.2.order (withField r.2.field (toMachine r.2.values) p) ^^^ r.2.flip
  | none => p

/-- The word of `opcode_table.json` for a word of the machine. -/
def OpcodeMap.tableWord (m : OpcodeMap) (w : Word) : Word :=
  let v := m.tableLayout w
  let op := m.tableOpcode (v.extractLsb' 23 9)
  wordOf op (m.tableParams op (v.extractLsb' 0 23))

/-- The word of the machine for a word of `opcode_table.json`. -/
def OpcodeMap.machineWord (m : OpcodeMap) (v : Word) : Word :=
  m.machineLayout
    (wordOf (m.machineOpcode (v.extractLsb' 23 9)) (m.machineParams (v.extractLsb' 23 9) (v.extractLsb' 0 23)))

/-- The map has a word for the instruction: a branch leaves the bits that its own operand form marks `0` zero. -/
def OpcodeMap.encodes (m : OpcodeMap) : Instr → Bool
  | .br off => off &&& m.branchZero .br == 0#23
  | .ben off => off &&& m.branchZero .ben == 0#23
  | .bnen off => off &&& m.branchZero .bnen == 0#23
  | _ => true

/-- The decoder (R103) with any `OPCODE_MAP`. -/
def decodeBy (m : OpcodeMap) (w : Word) : Except DecodeError Instr :=
  match decode (m.tableWord w) with
  | .ok i => if m.encodes i then .ok i else .error .reservedBit
  | .error e => .error e

/-- The encoder with any `OPCODE_MAP`, for an instruction that the map encodes. -/
def encodeBy (m : OpcodeMap) (i : Instr) : Word := m.machineWord (encode i)

end Sys2Proof
end

