-- ==== Sys2Proof/Machine/State.lean ====
section
/-! DEFINITION. Machine/State.lean: the state of the FMP (R20 to R40), its faults (R251), the launch
record of a task (R38, R282), and the state after reset. -/

namespace Sys2Proof.Machine

/-- Memory as (address, byte) pairs, addresses strictly rising, no byte equal to what an unlisted
address reads as (R50, R53). -/
abbrev Memory := List Host.Cell

/-- The units with a request queue (R60); the TMAU has no behaviour in the spec (R129). -/
inductive MauUnit where
  | smau (i : Nat)
  | gmau
deriving DecidableEq, Repr

/-- A queued request (R60). The register set of a load is that of its unit: the unit's own slice for an
SMAU, the Global set for the GMAU. -/
inductive Request where
  /-- `data` is empty until the unit performs the read -/
  | load (n : RegNum) (addr : Word) (data : Option Word)
  /-- `done` is false until the unit performs the write -/
  | store (addr v : Word) (done : Bool)
deriving DecidableEq, Repr

/-- A register of one slice or of the Global set (R10). -/
inductive RegRef where
  | slice (i : Nat) (n : RegNum)
  | global (n : RegNum)
deriving DecidableEq, Repr

/-- What an instruction reads (R251 no. 4): a register, or the `T` flag of a slice. -/
inductive ReadRef where
  | reg (r : RegRef)
  | tFlag (i : Nat)
deriving DecidableEq, Repr

/-- The model faults of R251, each with the record it keeps. All are raised by a step of the core; the
step takes them by R252. Safe: R250 says that the sources do not cover the case. -/
inductive Fault where
  /-- no. 1, the fetch of any step: `ip` is outside the program image (R58). Safe. -/
  | fetchFault (ip : Word)
  /-- no. 2, the decode of any step: the word is illegal (R103, R104). Safe. -/
  | illegalInstruction (ip w : Word)
  /-- no. 3, every instruction that names a register: it is the destination of a queued load (R36). Safe. -/
  | pendingAccess (r : RegRef)
  /-- no. 4, every instruction that reads a register or a `T` flag: it holds no value because the
  launch record gave none and nothing has written it (R39). Never from `State.reset`, whose launch
  gives every register a value (log 4). Safe. -/
  | unwrittenRead (r : ReadRef)
  /-- no. 5, `MVG` and `MVGE`: the computed global register number is above 63 (R121, R122). Safe. -/
  | globalIndexRange (k : Nat)
  /-- no. 6, `LD` and `ST`: the address is no multiple of 4 (R54). Safe. -/
  | misalignedAccess (addr : Word)
  /-- no. 7, `ST`: the address lies in the program image (R57). Safe. -/
  | codeWrite (addr : Word)
  /-- no. 8, `LD` and `ST`: the address is not in `MEM_ADMIT` (R56). Safe. -/
  | accessFault (addr : Word)
  /-- no. 9, `LD` and `ST`: the unit's queue is full (R66). Safe. -/
  | queueOverflow (u : MauUnit)
  /-- no. 10, `SIG`: some queue is not empty (R161). Safe. -/
  | pendingAtCompletion
deriving DecidableEq, Repr

/-- Why an instruction has no meaning (R12 `refuse`). -/
inductive Refusal where
  /-- an arm of `exec` whose instruction has no meaning yet (raised by `exec` alone; none is left). Safe. -/
  | notModelled (mnemonic : String)
  /-- `MVS`: the source lists no special register and no operand (R34, R125). Safe. -/
  | specialRegisterUnknown
  /-- `SAMPR`, `SAMPC`: the source gives no destination, no format and no completion (R129). Safe. -/
  | textureUnitUnknown
  /-- the instructions of group `0b0100`: titles only (R248). Safe. -/
  | rasterUnitUnknown
deriving DecidableEq, Repr

/-- `RUN` (R37, R263); a faulted task keeps its fault and the record beside it (R252). -/
inductive RunState where
  | idle
  | running
  | suspended
  | completed
  | stopped
  | faulted (f : Fault)
deriving DecidableEq, Repr

/-- A register set: 64 words, and for each whether it holds a value (R22, R24, R39). -/
structure RegFile where
  vals : Vector Word 64
  written : Vector Bool 64
deriving DecidableEq, Repr

/-- No register holds a value (R38 "unwritten"). -/
def RegFile.unwritten : RegFile :=
  { vals := Vector.replicate 64 0#32, written := Vector.replicate 64 false }

/-- DESIGN CHOICE (log 3): every register holds 0. -/
def RegFile.zeros : RegFile :=
  { vals := Vector.replicate 64 0#32, written := Vector.replicate 64 true }

/-- One Slice (R20): its registers, its `T` flag and whether the flag holds a value (R30, R39), its
enable bit (R31) and the queue of its SMAU (R60). -/
structure Slice where
  regs : RegFile
  t : Bool
  tWritten : Bool
  en : Bool
  queue : List Request
deriving DecidableEq, Repr

/-- A range of word addresses: `words` words from byte address `base` on (R56). -/
structure AddrRange where
  base : Nat
  words : Nat
deriving DecidableEq, Repr

/-- The launch record of a task (R6, R38, R282). A register or flag that no entry names is unwritten. -/
structure Launch where
  imageBase : Word
  image : List Word
  entry : Word
  memAdmit : List AddrRange
  /-- the words of `MEM_INIT`; one for every admitted address outside the image (R282; log 28) -/
  memInit : List (Word × Word)
  sInit : List (Nat × RegNum × Word)
  gInit : List (RegNum × Word)
  tInit : List (Nat × Bool)
  /-- `EN_INIT`, bit `i` for Slice `i` -/
  enInit : Word
deriving DecidableEq, Repr

/-- The host's actions on a task (R258 to R261). -/
inductive HostMove where
  | start (l : Launch)
  | suspend
  | resume
  | stop
deriving DecidableEq, Repr

/-- One move of one agent (R21): the core takes its turn, a unit performs the request at position `k` of
its queue (R62), the host acts. -/
inductive Move where
  | core
  | mau (u : MauUnit) (k : Nat)
  | host (m : HostMove)
deriving DecidableEq, Repr

/-- The state of the FMP. `env` and `frees` are the model's own (log 10, log 12). -/
structure State where
  /-- open parameters of the machine (R6, R40), never written -/
  params : Params
  /-- the Slices, Slice 0 first; their number is `NSLICES` (R20) -/
  slices : List Slice
  /-- the Global set (R24) -/
  globals : RegFile
  /-- the queue of the GMAU (R60) -/
  gmau : List Request
  /-- the instruction pointer (R28) -/
  ip : Word
  /-- memory outside the image (R50) -/
  mem : Memory
  /-- `IMAGE.base` (R57) -/
  imageBase : Word
  /-- the words of `IMAGE` (R57) -/
  image : List Word
  /-- `MEM_ADMIT` (R56) -/
  memAdmit : List AddrRange
  /-- `SIGNAL` (R37) -/
  signal : Bool
  /-- `RUN` (R37) -/
  run : RunState
  /-- the moves the agents make next; when it is empty, the core's turn or a plan (log 10, log 36) -/
  env : List Move
  /-- how many free values have been used (log 12) -/
  frees : Nat
deriving DecidableEq, Repr

/-- A slice of `State.reset`: registers and `T` hold 0 (DESIGN CHOICE, log 3), enabled (R38's default),
its queue empty (R38). -/
def Slice.reset : Slice :=
  { regs := RegFile.zeros, t := false, tWritten := true, en := true, queue := [] }

/-- The machine right after reset, which the spec takes to be the start of a task (R38, R280, R281). The
image holds no word: a program is loaded from outside (log 5). -/
def State.reset : State :=
  { params := Params.default
    slices := List.replicate Config.resetSlices Slice.reset
    globals := RegFile.zeros
    gmau := []
    ip := Config.resetEntry
    mem := []
    imageBase := Config.resetEntry
    image := []
    memAdmit := [{ base := 0, words := 2 ^ 30 }]
    signal := false
    run := .running
    env := []
    frees := 0 }

end Sys2Proof.Machine
end

