-- ==== Sys2Proof/Machine/Ops.lean ====
section
/-! DEFINITION. Machine/Ops.lean: the named operations over registers, memory and queues, the checks a
meaning makes before it takes effect (R253), and taking a fault (R252). -/

namespace Sys2Proof.Machine

/-- What a step or a meaning answers. -/
abbrev Result := Host.Outcome State Fault Refusal

/-! ## Register sets -/

/-- The value in register `n` of a set (R10); for a register without a value (R39) no instruction reads it. -/
def RegFile.get (rf : RegFile) (n : RegNum) : Word := rf.vals[n.toNat]'(n.isLt)

/-- Register `n` of the set holds a value (R39). -/
def RegFile.holds (rf : RegFile) (n : RegNum) : Bool := rf.written[n.toNat]'(n.isLt)

/-- Writing register `n` of a set: it holds `v`. No register is hardwired (R22, R24). -/
def RegFile.set (rf : RegFile) (n : RegNum) (v : Word) : RegFile :=
  { vals := rf.vals.set n.toNat v n.isLt, written := rf.written.set n.toNat true n.isLt }

/-! ## Updates of one field -/

/-- `S` registers of a slice (R22). -/
def Slice.setRegs (sl : Slice) (rf : RegFile) : Slice := { sl with regs := rf }
/-- Writing register `n` of a slice (R22). -/
def Slice.setReg (sl : Slice) (n : RegNum) (v : Word) : Slice := sl.setRegs (sl.regs.set n v)
/-- Writing the `T` flag of a slice (R30). -/
def Slice.setT (sl : Slice) (b : Bool) : Slice := { sl with t := b, tWritten := true }
/-- Writing the enable bit of a slice (R31). -/
def Slice.setEn (sl : Slice) (b : Bool) : Slice := { sl with en := b }
/-- Replacing the queue of a slice's SMAU (R60). -/
def Slice.setQueue (sl : Slice) (q : List Request) : Slice := { sl with queue := q }

def State.setSlices (s : State) (x : List Slice) : State := { s with slices := x }
def State.setGlobals (s : State) (x : RegFile) : State := { s with globals := x }
def State.setGmau (s : State) (x : List Request) : State := { s with gmau := x }
def State.setIp (s : State) (x : Word) : State := { s with ip := x }
def State.setMem (s : State) (x : Memory) : State := { s with mem := x }
def State.setSignal (s : State) (x : Bool) : State := { s with signal := x }
def State.setRun (s : State) (x : RunState) : State := { s with run := x }
def State.setEnv (s : State) (x : List Move) : State := { s with env := x }
def State.setFrees (s : State) (x : Nat) : State := { s with frees := x }

/-- `ip <- ip + 4`, modulo 2^32 (R29). -/
def State.advance (s : State) : State := s.setIp (s.ip + 4#32)

/-! ## Slices -/

/-- Slice `i` exists and is enabled (R31). -/
def State.enabledAt (s : State) (i : Nat) : Bool :=
  match s.slices[i]? with
  | some sl => sl.en
  | none => false

/-- `enabled` (R10), in ascending order. -/
def State.enabledIds (s : State) : List Nat := (List.range s.slices.length).filter s.enabledAt

/-- Every slice, enabled or not, in ascending order. -/
def State.allIds (s : State) : List Nat := List.range s.slices.length

/-- The registers of Slice `i`; a number that names no slice reads an unwritten set. -/
def State.sliceRegs (s : State) (i : Nat) : RegFile :=
  match s.slices[i]? with
  | some sl => sl.regs
  | none => RegFile.unwritten

/-- The `T` flag of Slice `i` (R30). -/
def State.flagT (s : State) (i : Nat) : Bool :=
  match s.slices[i]? with
  | some sl => sl.t
  | none => false

/-- `for each enabled i` (R10): every enabled slice is replaced by `f` of its number and its old record, so
no slice sees another's write; a disabled slice is left alone (R23, R31). -/
def updateEnabled (f : Nat → Slice → Slice) (l : List Slice) : List Slice :=
  l.mapIdx fun i sl => if sl.en then f i sl else sl

/-- `for every slice i`, enabled or not. -/
def updateEvery (f : Nat → Slice → Slice) (l : List Slice) : List Slice := l.mapIdx f

/-! ## Queues -/

/-- Register `n` of the unit's set is the destination of a queued load (R36). -/
def pendingIn (q : List Request) (n : RegNum) : Bool :=
  q.any fun r =>
    match r with
    | .load m _ _ => m == n
    | .store _ _ _ => false

/-- The request is performed: its data is filled or its store is done (R60). -/
def Request.performed : Request → Bool
  | .load _ _ data => data.isSome
  | .store _ _ done => done

/-- The queue of a unit (R60). -/
def State.queueOf (s : State) : MauUnit → List Request
  | .gmau => s.gmau
  | .smau i =>
    match s.slices[i]? with
    | some sl => sl.queue
    | none => []

/-- Replacing the queue of a unit. -/
def State.setQueue (s : State) (u : MauUnit) (q : List Request) : State :=
  match u with
  | .gmau => s.setGmau q
  | .smau i => s.setSlices (s.slices.modify i fun sl => sl.setQueue q)

/-- Some queue of some unit holds a request (R161). -/
def State.anyQueued (s : State) : Bool :=
  !s.gmau.isEmpty || s.slices.any fun sl => !sl.queue.isEmpty

/-- Every unit with a queue, of an enabled slice or not (R60). -/
def State.allUnits (s : State) : List MauUnit := .gmau :: s.allIds.map .smau

/-- The units a `COMMIT` or `DISCARD` concerns: the GMAU and the SMAUs of the enabled slices (R63, R65). -/
def State.concernedUnits (s : State) : List MauUnit := .gmau :: s.enabledIds.map .smau

/-- Delivery of a queue's loaded data to the registers of the unit's set (R63). -/
def deliver (q : List Request) (rf : RegFile) : RegFile :=
  q.foldl (fun acc r =>
    match r with
    | .load n _ (some v) => acc.set n v
    | .load _ _ none => acc
    | .store _ _ _ => acc) rf

/-! ## Memory -/

/-- The byte at an address; an unlisted address reads `Config.unlistedByte` (log 7). -/
def Memory.readByte : Memory → Nat → Byte
  | [], _ => Config.unlistedByte
  | (k, b) :: rest, a => if k = a then b else Memory.readByte rest a

/-- Writing one byte, keeping the canonical form: addresses rising, no byte listed that an unlisted
address reads as. -/
def Memory.writeByte : Memory → Nat → Byte → Memory
  | [], a, v => if v = Config.unlistedByte then [] else [(a, v)]
  | (k, b) :: rest, a, v =>
    if a < k then (if v = Config.unlistedByte then (k, b) :: rest else (a, v) :: (k, b) :: rest)
    else if a = k then (if v = Config.unlistedByte then rest else (a, v) :: rest)
    else (k, b) :: Memory.writeByte rest a v

/-- Every listed address is at or above `lo`, rising, below 2^32, with a byte an unlisted address does
not read as. -/
def Memory.wfFrom : Nat → Memory → Bool
  | _, [] => true
  | lo, (k, b) :: rest =>
    decide (lo ≤ k) && decide (k < 2 ^ 32) && (b != Config.unlistedByte) && Memory.wfFrom (k + 1) rest

/-- The canonical form of memory. -/
def Memory.wf (m : Memory) : Bool := Memory.wfFrom 0 m

/-- The address of byte `k` of the word at `addr`, modulo 2^32 (R53). -/
def byteAddr (addr : Word) (k : Nat) : Nat := (addr + BitVec.ofNat 32 k).toNat

/-- Byte `k` of a word under a byte order (R53): little puts bits `8k + 7` to `8k` at `addr + k`. DESIGN CHOICE
(log 8): big, which the spec does not name, puts bits `8(3 - k) + 7` to `8(3 - k)` there. -/
def byteOf (order : ByteOrder) (v : Word) (k : Nat) : Byte :=
  match order with
  | .little => v.extractLsb' (8 * k) 8
  | .big => v.extractLsb' (8 * (3 - k)) 8

/-- The word of four bytes, the one at the lowest address first (R53). -/
def joinBytes (order : ByteOrder) (b0 b1 b2 b3 : Byte) : Word :=
  match order with
  | .little => b3 ++ b2 ++ b1 ++ b0
  | .big => b0 ++ b1 ++ b2 ++ b3

/-- The 32-bit word at `addr` in memory outside the image (R11, R52). -/
def Memory.readWord (order : ByteOrder) (m : Memory) (addr : Word) : Word :=
  joinBytes order (m.readByte (byteAddr addr 0)) (m.readByte (byteAddr addr 1))
    (m.readByte (byteAddr addr 2)) (m.readByte (byteAddr addr 3))

/-- `MemWrite(addr, 4, v)` (R11): all four bytes at one instant (R55). -/
def Memory.writeWord (order : ByteOrder) (m : Memory) (addr v : Word) : Memory :=
  (((m.writeByte (byteAddr addr 0) (byteOf order v 0)).writeByte (byteAddr addr 1) (byteOf order v 1)).writeByte
    (byteAddr addr 2) (byteOf order v 2)).writeByte (byteAddr addr 3) (byteOf order v 3)

/-- The address lies in the program image (R57). -/
def State.inImage (s : State) (addr : Word) : Bool :=
  decide (s.imageBase.toNat ≤ addr.toNat) && decide (addr.toNat < s.imageBase.toNat + 4 * s.image.length)

/-- The image word at an address, if the address lies in the image (R57, R58). -/
def State.imageWord (s : State) (addr : Word) : Option Word :=
  if s.inImage addr then s.image[(addr.toNat - s.imageBase.toNat) / 4]? else none

/-- `MemRead(addr, 4)` (R11): the image word where the image lies, else the word in memory (R57). -/
def State.readMem (s : State) (addr : Word) : Word :=
  match s.imageWord addr with
  | some w => w
  | none => s.mem.readWord s.params.byteOrder addr

/-- Instruction fetch (R58): the image word at `ip`; none makes the step raise `FetchFault`. -/
def State.fetch (s : State) : Option Word := s.imageWord s.ip

/-- The address is in the range. -/
def AddrRange.contains (r : AddrRange) (a : Nat) : Bool :=
  decide (r.base ≤ a) && decide (a < r.base + 4 * r.words)

/-- The aligned address is in `MEM_ADMIT` (R56). -/
def State.admits (s : State) (addr : Word) : Bool := s.memAdmit.any fun r => r.contains addr.toNat

/-- The program that `State.withFetchWord` places: one word at `ip`, the next move the core's (log 5). -/
def State.placeProgram (s : State) (w : Word) : State :=
  { s with imageBase := s.ip, image := [w], run := .running, env := [.core] }

/-! ## Checks (R253) -/

/-- The register is the destination of a queued load (R36). -/
def State.isPending (s : State) : RegRef → Bool
  | .global n => pendingIn s.gmau n
  | .slice i n => pendingIn (s.queueOf (.smau i)) n

/-- The register or flag holds a value (R39). -/
def State.holdsValue (s : State) : ReadRef → Bool
  | .reg (.global n) => s.globals.holds n
  | .reg (.slice i n) => (s.sliceRegs i).holds n
  | .tFlag i =>
    match s.slices[i]? with
    | some sl => sl.tWritten
    | none => false

/-- R253 step 5, first half: `PendingAccess` of the first pending register among those named. -/
def pendingFault (s : State) (named : List RegRef) : Option Fault :=
  (named.find? s.isPending).map Fault.pendingAccess

/-- R253 step 5, second half: `UnwrittenRead` of the first register or flag read that holds no value. -/
def unwrittenFault (s : State) (reads : List ReadRef) : Option Fault :=
  (reads.find? fun r => !s.holdsValue r).map Fault.unwrittenRead

/-- R253 step 6: `GlobalIndexRange` of the first number above 63. -/
def indexFault (ks : List Nat) : Option Fault :=
  (ks.find? fun k => decide (63 < k)).map Fault.globalIndexRange

/-- `CheckData(addr)` (R11): `MisalignedAccess` (R54), then `AccessFault` (R56). -/
def dataFault (s : State) (addr : Word) : Option Fault :=
  if addr.extractLsb' 0 2 = 0#2 then
    if s.admits addr then none else some (.accessFault addr)
  else some (.misalignedAccess addr)

/-- `CheckData(addr)`, then `CheckCode(addr)` (R130). -/
def storeFault (s : State) (addr : Word) : Option Fault :=
  (dataFault s addr).or (if s.inImage addr then some (.codeWrite addr) else none)

/-- R253 step 8: `QueueOverflow` of the first unit whose queue is full (R66). -/
def overflowFault (s : State) (us : List MauUnit) : Option Fault :=
  match s.params.mauDepth with
  | none => none
  | some depth => (us.find? fun u => decide (depth ≤ (s.queueOf u).length)).map Fault.queueOverflow

/-- The instruction's outcome: the first fault its checks find, else its effect (R252, R253). -/
def checked (fault : Option Fault) (after : State) : Result :=
  match fault with
  | some f => .fault f
  | none => .next after

/-! ## Taking a fault -/

/-- R252: a fault changes nothing but `RUN <- Faulted`, with the fault and its record kept beside it. No
handler runs (R254) and no instruction returns from it (R255); only a host start leaves it (R259). -/
def takeFault (f : Fault) (s : State) : State := s.setRun (.faulted f)

/-- What a step makes of a meaning's outcome: a raised fault is taken (R252), a refusal ends the run (R12). -/
def settle (s : State) : Result → Result
  | .next t => .next t
  | .fault f => .next (takeFault f s)
  | .refused r => .refused r

/-! ## Performing a request (R62) -/

/-- Unit order (R62): request `k` is unperformed, and under `fifo` no earlier request is. -/
def mayPerform (order : MauOrder) (q : List Request) (k : Nat) : Bool :=
  match q[k]? with
  | none => false
  | some r =>
    !r.performed &&
      match order with
      | .any => true
      | .fifo => (q.take k).all Request.performed

/-- The request is performed: a load takes the word at its address, a store writes its word (R62). -/
def performRequest (s : State) (u : MauUnit) (k : Nat) (r : Request) : State :=
  match r with
  | .load n addr _ => s.setQueue u ((s.queueOf u).set k (.load n addr (some (s.readMem addr))))
  | .store addr v _ =>
    (s.setQueue u ((s.queueOf u).set k (.store addr v true))).setMem (s.mem.writeWord s.params.byteOrder addr v)

/-- Unit `u` performs its request `k`, if it may (R62); else nothing happens. -/
def mauPerform (s : State) (u : MauUnit) (k : Nat) : State :=
  if mayPerform s.params.mauOrder (s.queueOf u) k then
    match (s.queueOf u)[k]? with
    | some r => performRequest s u k r
    | none => s
  else s

/-- The requests of the units `us` that may be performed next, each as its unit and its position in the queue: none
exactly when every one of their requests is performed. -/
def State.performableOf (s : State) (us : List MauUnit) : List (MauUnit × Nat) :=
  us.flatMap fun u =>
    ((List.range (s.queueOf u).length).filter fun k => mayPerform s.params.mauOrder (s.queueOf u) k).map
      fun k => (u, k)

/-- The requests that a `COMMIT` waits for (R63). -/
def State.performable (s : State) : List (MauUnit × Nat) := s.performableOf s.concernedUnits

/-- A held `COMMIT` (R63, R253 step 4): the core waits, and one of the requests it waits for is performed.
Where several may be next, which one is a free choice (log 11). -/
def performOne (s : State) : State :=
  match s.performable with
  | [] => s
  | [c] => mauPerform s c.1 c.2
  | c :: d :: rest =>
    let l := c :: d :: rest
    let pick := (l[Config.mauPick s.frees % l.length]?).getD c
    (mauPerform s pick.1 pick.2).setFrees (s.frees + 1)

end Sys2Proof.Machine
end

