-- ==== Sys2Proof/Machine/Flags.lean ====
section
/-! DEFINITION. Machine/Flags.lean: the test conditions (R163), the masks (R32) and the execution mask
(R31). The machine has no flag but `T` (R30). -/

namespace Sys2Proof.Machine

/-- A mask of bits, the first at bit 0 (R32); bits past the list are 0. -/
def maskOf : List Bool → Word
  | [] => 0#32
  | b :: rest => (maskOf rest <<< 1) ||| (if b then 1#32 else 0#32)

/-- `ExecMask` (R10, R31): bit `i` is the enable bit of Slice `i`. -/
def State.execMask (s : State) : Word := maskOf (s.slices.map fun sl => sl.en)

/-- The `T` flags as a mask (R32, R152). -/
def State.tMask (s : State) : Word := maskOf (s.slices.map fun sl => sl.t)

/-- `Cond(cond, A, B)` (R163). -/
def condHolds (c : Cond) (a b execMask : Word) : Bool :=
  match c with
  | .zro => a == 0#32
  | .equ => a == b
  | .ult => decide (a.toNat < b.toNat)
  | .ugt => decide (b.toNat < a.toNat)
  | .slt => decide (a.toInt < b.toInt)
  | .sgt => decide (b.toInt < a.toInt)
  | .neg => a.getLsbD 31
  | .cns => (a &&& execMask) == execMask

/-- Writing the enable bits of every slice from a mask, bits past the slices ignored (R32, R151). -/
def State.setEnMask (s : State) (m : Word) : State :=
  s.setSlices (updateEvery (fun i sl => sl.setEn (m.getLsbD i)) s.slices)

/-- Writing the `T` flags of every slice from a mask, bits past the slices ignored (R32, R154). -/
def State.setTMask (s : State) (m : Word) : State :=
  s.setSlices (updateEvery (fun i sl => sl.setT (m.getLsbD i)) s.slices)

end Sys2Proof.Machine
end

