-- ==== Sys2Proof/Machine/Operands.lean ====
section
/-! DEFINITION. Machine/Operands.lean: operand forms (R26, R27), immediates (R101, R102), and the shared
run of a register-to-register instruction (R200). -/

namespace Sys2Proof.Machine

/-! ## Register operands -/

/-- `R(set, i, n)` (R10). -/
def regRef (g : RegSet) (i : Nat) (n : RegNum) : RegRef :=
  match g with
  | .slice => .slice i n
  | .global => .global n

/-- The value of `R(set, i, n)` (R10). -/
def State.readReg (s : State) (g : RegSet) (i : Nat) (n : RegNum) : Word :=
  match g with
  | .slice => (s.sliceRegs i).get n
  | .global => s.globals.get n

/-- The registers `ns` of every concerned slice: those of each enabled slice in ascending order for a
per-slice form, the `G` registers once for an all-global form (R253 step 5). -/
def concernedRegs (s : State) (g : RegSet) (ns : List RegNum) : List RegRef :=
  match g with
  | .slice => s.enabledIds.flatMap fun i => ns.map (RegRef.slice i)
  | .global => ns.map RegRef.global

/-- For a per-slice form whose operands may be of either set: the references `f i` of each enabled slice. -/
def perEnabled {α : Type} (s : State) (f : Nat → List α) : List α := s.enabledIds.flatMap f

/-- Writing register `d` of a set: of each enabled slice with the value of that slice, or of the Global
set once (R27). -/
def writeSet (s : State) (g : RegSet) (d : RegNum) (local_ : Nat → Slice → Word) (global_ : Word) : State :=
  match g with
  | .slice => s.setSlices (updateEnabled (fun i sl => sl.setReg d (local_ i sl)) s.slices)
  | .global => s.setGlobals (s.globals.set d global_)

/-- The lowest enabled slice (R10); none when no slice is enabled. -/
def State.lowestEnabled (s : State) : Option Nat := s.enabledIds.head?

/-- The Enabled Slice ID of Slice `i` (R122): the number of enabled slices below it. -/
def State.enabledRank (s : State) (i : Nat) : Nat := ((s.slices.take i).filter fun sl => sl.en).length

/-! ## Immediates -/

/-- `Expand(type, imm12)` (R101), with `q` for `QFRAC`. -/
def expandImm (q : Nat) (ty : ImmType) (imm : BitVec 12) : Word :=
  match ty with
  | .unsignedInt => imm.setWidth 32
  | .signedInt => imm.signExtend 32
  | .mixedFixed => imm.signExtend 32 <<< (q - 6)
  | .wholeFixed => imm.signExtend 32 <<< q
  | .fractionFixed => imm.signExtend 32 <<< (q - 10)

/-- The target of a branch of format `B23` at `ip` (R102, R158). -/
def branchTarget (ip : Word) (off : BitVec 23) : Word := ip + (off.signExtend 32 <<< 2)

/-- The target of a branch (R158 to R160): of format `B23`, or of the operand form that `OPCODE_MAP` gives it (R6,
R98; log 19), then also a multiple of 4 (R28). -/
def State.branchTo (s : State) (b : BranchOp) (off : BitVec 23) : Word :=
  if s.params.opcodeMap.ownBranch b then Config.branchWord b off s.ip ++ 0#2 else branchTarget s.ip off

/-- The value of `RELPC` at `ip` (R102, R124). -/
def relpcValue (ip : Word) (imm : BitVec 12) : Word := ip + imm.signExtend 32

/-! ## R200: a register-to-register instruction -/

/-- R200 for a function of the old registers of the set: the destination and the sources must not be
pending, the sources must hold values, then `Rd <- f` and `ip <- ip + 4`. -/
def runRegOp (g : RegSet) (d : RegNum) (srcs : List RegNum) (f : RegFile → Word) (s : State) : Result :=
  checked
    ((pendingFault s (concernedRegs s g (d :: srcs))).or
      (unwrittenFault s ((concernedRegs s g srcs).map ReadRef.reg)))
    (writeSet s g d (fun _ sl => f sl.regs) (f s.globals)).advance

/-- R200 for a function that may leave its value open (R233): `f` takes the free value. With `g = 0` each
slice has a free value of its own (R218). -/
def runRegOpDraw (g : RegSet) (d : RegNum) (srcs : List RegNum) (f : Word → RegFile → Word) (s : State) :
    Result :=
  checked
    ((pendingFault s (concernedRegs s g (d :: srcs))).or
      (unwrittenFault s ((concernedRegs s g srcs).map ReadRef.reg)))
    (((writeSet s g d (fun i sl => f (Config.draw (s.frees + i)) sl.regs)
        (f (Config.draw s.frees) s.globals)).setFrees (s.frees + s.slices.length + 1)).advance)

/-- Format `A3U` with a pure function of two sources (R87, R200). -/
def runOp2 (f : Word → Word → Word) (g : RegSet) (d a b : RegNum) (s : State) : Result :=
  runRegOp g d [a, b] (fun rf => f (rf.get a) (rf.get b)) s

/-- Format `A2U` with a pure function of one source (R88, R200). -/
def runOp1 (f : Word → Word) (g : RegSet) (d a : RegNum) (s : State) : Result :=
  runRegOp g d [a] (fun rf => f (rf.get a)) s

/-- Format `A3U` where the old value of `Rd` is a third source (R200, R215). -/
def runAccumulate (f : Word → Word → Word → Word) (g : RegSet) (d a b : RegNum) (s : State) : Result :=
  runRegOp g d [d, a, b] (fun rf => f (rf.get d) (rf.get a) (rf.get b)) s

/-- Format `A3U` where the result may be open; the first argument of `f` is the free value (R218). -/
def runOp2Draw (f : Word → Word → Word → Word) (g : RegSet) (d a b : RegNum) (s : State) : Result :=
  runRegOpDraw g d [a, b] (fun v rf => f v (rf.get a) (rf.get b)) s

/-- Format `A2U` where the result may be open; the first argument of `f` is the free value (R222). -/
def runOp1Draw (f : Word → Word → Word) (g : RegSet) (d a : RegNum) (s : State) : Result :=
  runRegOpDraw g d [a] (fun v rf => f v (rf.get a)) s

end Sys2Proof.Machine
end

