-- ==== Sys2Proof/Machine/Control.lean ====
section
/-! DEFINITION. Machine/Control.lean: group `0b0001`, control flow and conditional execution (R150 to
R163). -/

namespace Sys2Proof.Machine

/-- `ENT` (R150), in both modes: `replace` reads the `T` flag of every slice, `narrow` those of the enabled
slices. -/
def execEnt (s : State) : Result :=
  match s.params.entMode with
  | .replace =>
    checked (unwrittenFault s (s.allIds.map ReadRef.tFlag))
      (s.setSlices (updateEvery (fun _ sl => sl.setEn sl.t) s.slices)).advance
  | .narrow =>
    checked (unwrittenFault s (s.enabledIds.map ReadRef.tFlag))
      (s.setSlices (updateEvery (fun _ sl => sl.setEn (sl.en && sl.t)) s.slices)).advance

/-- The checks of an instruction with one global source (R151, R154). -/
def globalSourceFault (rs : RegNum) (s : State) : Option Fault :=
  (pendingFault s [.global rs]).or (unwrittenFault s [.reg (.global rs)])

/-- `ENM` (R151). -/
def execEnm (rs : RegNum) (s : State) : Result :=
  checked (globalSourceFault rs s) (s.setEnMask (s.globals.get rs)).advance

/-- `TMST` (R152): the `T` flag of every slice, enabled or not. -/
def execTmst (d : RegNum) (s : State) : Result :=
  checked ((pendingFault s [.global d]).or (unwrittenFault s (s.allIds.map ReadRef.tFlag)))
    (s.setGlobals (s.globals.set d s.tMask)).advance

/-- `EMST` (R153). -/
def execEmst (d : RegNum) (s : State) : Result :=
  checked (pendingFault s [.global d]) (s.setGlobals (s.globals.set d s.execMask)).advance

/-- `MSKL` (R154): the `T` flag of every slice, enabled or not. -/
def execMskl (rs : RegNum) (s : State) : Result :=
  checked (globalSourceFault rs s) (s.setTMask (s.globals.get rs)).advance

/-- `LDT` (R155). -/
def execLdt (d : RegNum) (s : State) : Result :=
  checked
    ((pendingFault s (concernedRegs s .slice [d])).or
      (unwrittenFault s (perEnabled s fun i => [.tFlag i])))
    (writeSet s .slice d (fun _ sl => if sl.t then 1#32 else 0#32) 0#32).advance

/-- The registers a test names: `b` only for a condition with two operands (R96, R156). -/
def testRegs (c : Cond) (a b : RegNum) : List RegNum := if c.takesTwo then [a, b] else [a]

/-- `TST` (R156): the `T` flags of the enabled slices; `negated` is the `!` form. -/
def execTst (g : RegSet) (negated : Bool) (c : Cond) (a b : RegNum) (s : State) : Result :=
  checked
    ((pendingFault s (perEnabled s fun i => (testRegs c a b).map (regRef g i))).or
      (unwrittenFault s (perEnabled s fun i => (testRegs c a b).map fun n => .reg (regRef g i n))))
    (s.setSlices (updateEnabled
      (fun i sl => sl.setT ((condHolds c (s.readReg g i a) (s.readReg g i b) s.execMask) ^^ negated))
      s.slices)).advance

/-- `SEL` (R157): the register that is not chosen is not read, but may not be pending. -/
def execSel (d t f : RegNum) (s : State) : Result :=
  checked
    ((pendingFault s (concernedRegs s .slice [d, t, f])).or
      (unwrittenFault s (perEnabled s fun i =>
        [.tFlag i, .reg (.slice i (if s.flagT i then t else f))])))
    (writeSet s .slice d (fun _ sl => sl.regs.get (if sl.t then t else f)) 0#32).advance

/-- `BR` (R158). -/
def execBr (off : BitVec 23) (s : State) : Result := .next (s.setIp (s.branchTo .br off))

/-- `BEN` (R159). -/
def execBen (off : BitVec 23) (s : State) : Result :=
  .next (if s.execMask ≠ 0#32 then s.setIp (s.branchTo .ben off) else s.advance)

/-- `BNEN` (R160). -/
def execBnen (off : BitVec 23) (s : State) : Result :=
  .next (if s.execMask = 0#32 then s.setIp (s.branchTo .bnen off) else s.advance)

/-- `SIG` (R161): with `SIG_HALTS` the task is completed and `ip` stays at the `SIG`. -/
def execSig (s : State) : Result :=
  checked (if s.anyQueued then some .pendingAtCompletion else none)
    (if s.params.sigHalts then (s.setSignal true).setRun .completed else (s.setSignal true).advance)

/-- `NOP` (R162). -/
def execNop (s : State) : Result := .next s.advance

end Sys2Proof.Machine
end

