-- ==== Sys2Proof/Machine/Num.lean ====
section
/-! DEFINITION. Machine/Num.lean: the functions of the logic and mathematics instructions on 32-bit values:
`NUM` as an argument (R6; log 18) and its default bodies. `q` is `QFRAC`; `free` is the free value of R233. -/

namespace Sys2Proof.Machine

/-! ## `NUM` as an argument (R6) -/

/-- Field `n` of `NUM` with one operand; `f` is its default body. -/
def num1 (p : Params) (n : NumField) (f : Word → Word) (x : Word) : Word :=
  if p.ownNum n then Config.numBody n p.qfrac [x] else f x

/-- Field `n` of `NUM` with two operands, or with one after the free value. -/
def num2 (p : Params) (n : NumField) (f : Word → Word → Word) (x y : Word) : Word :=
  if p.ownNum n then Config.numBody n p.qfrac [x, y] else f x y

/-- Field `n` of `NUM` with an accumulator and two operands, or with two after the free value. -/
def num3 (p : Params) (n : NumField) (f : Word → Word → Word → Word) (x y z : Word) : Word :=
  if p.ownNum n then Config.numBody n p.qfrac [x, y, z] else f x y z

/-! ## Logic (R180 to R199) -/

/-- `LNOT` (R184). -/
def numLnot (x : Word) : Word := if x = 0#32 then 1#32 else 0#32

/-- `LBOOL` (R185). -/
def numLbool (x : Word) : Word := if x = 0#32 then 0#32 else 1#32

/-- `PCNT` (R186): how many of bits 0 to 31 are 1. -/
def numPcnt (x : Word) : Word := BitVec.ofNat 32 ((List.range 32).countP fun i => x.getLsbD i)

/-- `BITS` (R187): the low `n` bits set. -/
def numBits (x : Word) : Word :=
  if x.toNat < 32 then (1#32 <<< x.toNat) - 1#32 else BitVec.allOnes 32

/-- `BE` (R188): bit `y` of `x`; no bit from 32 on. -/
def numBe (x y : Word) : Word :=
  if y.toNat < 32 then (if x.getLsbD y.toNat then 1#32 else 0#32) else 0#32

/-- `BS` (R189). -/
def numBs (x y : Word) : Word := if y.toNat < 32 then x ||| (1#32 <<< y.toNat) else x

/-- `BC` (R190). -/
def numBc (x y : Word) : Word := if y.toNat < 32 then x &&& ~~~(1#32 <<< y.toNat) else x

/-- `LSR` (R191); the whole of `y` is the amount. -/
def numLsr (x y : Word) : Word := if y.toNat < 32 then x >>> y.toNat else 0#32

/-- `LSL` (R192). -/
def numLsl (x y : Word) : Word := if y.toNat < 32 then x <<< y.toNat else 0#32

/-- `ASR` (R193). -/
def numAsr (x y : Word) : Word :=
  if y.toNat < 32 then x.sshiftRight y.toNat
  else if x.getLsbD 31 then BitVec.allOnes 32 else 0#32

/-- `REV` (R194). -/
def numRev (x : Word) : Word := x.reverse

/-- `REVH` (R195): the high half reversed in place. -/
def numRevh (x : Word) : Word := (x.extractLsb' 16 16).reverse ++ x.extractLsb' 0 16

/-- `REVL` (R196): the low half reversed in place. -/
def numRevl (x : Word) : Word := x.extractLsb' 16 16 ++ (x.extractLsb' 0 16).reverse

/-- `FFS` (R197): one above the number of the lowest set bit, 0 when there is none. -/
def numFfs (x : Word) : Word :=
  match (List.range 32).find? fun i => x.getLsbD i with
  | some k => BitVec.ofNat 32 (k + 1)
  | none => 0#32

/-- `RTHL` (R198). -/
def numRthl (x : Word) : Word := (x.extractLsb' 0 16).setWidth 32

/-- `RTHH` (R199). -/
def numRthh (x : Word) : Word := (x.extractLsb' 16 16).setWidth 32

/-! ## Mathematics (R210 to R233) -/

/-- `2^q` as an integer. -/
def pow2 (q : Nat) : Int := ((2 ^ q : Nat) : Int)

/-- `UMULI` (R212): the low 32 bits of the unsigned product. -/
def numUmuli (x y : Word) : Word := BitVec.ofNat 32 (x.toNat * y.toNat)

/-- `SMULI` (R213): the low 32 bits of the signed product. -/
def numSmuli (x y : Word) : Word := BitVec.ofInt 32 (x.toInt * y.toInt)

/-- The signed product shifted right by `q`, rounded down (R214); `/` of a positive divisor rounds down. -/
def fixedProduct (q : Nat) (x y : Word) : Int := (x.toInt * y.toInt) / pow2 q

/-- `MULQ` (R214). -/
def numMulq (q : Nat) (x y : Word) : Word := BitVec.ofInt 32 (fixedProduct q x y)

/-- `UFMAI` (R215). -/
def numUfmai (acc x y : Word) : Word := BitVec.ofNat 32 (acc.toNat + x.toNat * y.toNat)

/-- `SFMAI` (R216). -/
def numSfmai (acc x y : Word) : Word := BitVec.ofInt 32 (acc.toInt + x.toInt * y.toInt)

/-- `MACQ` (R217). -/
def numMacq (q : Nat) (acc x y : Word) : Word := BitVec.ofInt 32 (acc.toInt + fixedProduct q x y)

/-- `UDIVI` (R218). -/
def numUdivi (free x y : Word) : Word := if y = 0#32 then free else BitVec.ofNat 32 (x.toNat / y.toNat)

/-- `SDIVI` (R219): rounds toward zero. -/
def numSdivi (free x y : Word) : Word :=
  if y = 0#32 then free else BitVec.ofInt 32 (x.toInt.tdiv y.toInt)

/-- `DIVQ` (R220): the dividend is widened before the shift; rounds toward zero. -/
def numDivq (q : Nat) (free x y : Word) : Word :=
  if y = 0#32 then free else BitVec.ofInt 32 ((x.toInt * pow2 q).tdiv y.toInt)

/-- `UREM` (R221). -/
def numUrem (free x y : Word) : Word := if y = 0#32 then free else BitVec.ofNat 32 (x.toNat % y.toNat)

/-- `RCPQ` (R222). -/
def numRcpq (q : Nat) (free x : Word) : Word :=
  if x = 0#32 then free else BitVec.ofInt 32 ((pow2 (2 * q)).tdiv x.toInt)

/-- The largest `r` with `r * r ≤ n`, found from bit `k - 1` down to bit 0, `r` the bits found so far. -/
def isqrtFrom (n : Nat) : Nat → Nat → Nat
  | 0, r => r
  | k + 1, r => if (r + 2 ^ k) * (r + 2 ^ k) ≤ n then isqrtFrom n k (r + 2 ^ k) else isqrtFrom n k r

/-- `SQRTQ` (R223): the root of `s(x) * 2^q`, rounded down; its bits are below `16 + q`. -/
def numSqrtq (q : Nat) (free x : Word) : Word :=
  if x.getLsbD 31 then free else BitVec.ofNat 32 (isqrtFrom (x.toNat * 2 ^ q) (16 + q) 0)

/-- `ABS` (R224). -/
def numAbs (x : Word) : Word := if x.getLsbD 31 then 0#32 - x else x

/-- `NEG` (R225). -/
def numNeg (x : Word) : Word := 0#32 - x

/-- `SXT` (R226): from a half-word. -/
def numSxt (x : Word) : Word := (x.extractLsb' 0 16).signExtend 32

/-- `UFLOOR` (R227). -/
def numUfloor (q : Nat) (x : Word) : Word := x >>> q

/-- `SFLOOR` (R228). -/
def numSfloor (q : Nat) (x : Word) : Word := x.sshiftRight q

/-- `UCEIL` (R229): the sum is formed without loss. -/
def numUceil (q : Nat) (x : Word) : Word := BitVec.ofNat 32 ((x.toNat + 2 ^ q - 1) / 2 ^ q)

/-- `SCEIL` (R230). -/
def numSceil (q : Nat) (x : Word) : Word := BitVec.ofInt 32 ((x.toInt + pow2 q - 1) / pow2 q)

/-- `ROUND` (R231): a tie goes toward plus infinity. -/
def numRound (q : Nat) (x : Word) : Word := BitVec.ofInt 32 ((x.toInt + pow2 (q - 1)) / pow2 q)

end Sys2Proof.Machine
end

