-- ==== Sys2Proof/Machine/Logic.lean ====
section
/-! DEFINITION. Machine/Logic.lean: group `0b0010`, logic (R180 to R199), each run by R200. -/

namespace Sys2Proof.Machine

/-- `AND` (R180). -/
def execAnd (g : RegSet) (d a b : RegNum) (s : State) : Result :=
  runOp2 (fun x y => x &&& y) g d a b s

/-- `OR` (R181). -/
def execOr (g : RegSet) (d a b : RegNum) (s : State) : Result :=
  runOp2 (fun x y => x ||| y) g d a b s

/-- `XOR` (R182). -/
def execXor (g : RegSet) (d a b : RegNum) (s : State) : Result :=
  runOp2 (fun x y => x ^^^ y) g d a b s

/-- `NOT` (R183). -/
def execNot (g : RegSet) (d a : RegNum) (s : State) : Result :=
  runOp1 (fun x => ~~~x) g d a s

/-- `LNOT` (R184). -/
def execLnot (g : RegSet) (d a : RegNum) (s : State) : Result :=
  runOp1 numLnot g d a s

/-- `LBOOL` (R185). -/
def execLbool (g : RegSet) (d a : RegNum) (s : State) : Result :=
  runOp1 numLbool g d a s

/-- `PCNT` (R186). -/
def execPcnt (g : RegSet) (d a : RegNum) (s : State) : Result :=
  runOp1 numPcnt g d a s

/-- `BITS` (R187). -/
def execBits (g : RegSet) (d a : RegNum) (s : State) : Result :=
  runOp1 numBits g d a s

/-- `BE` (R188). -/
def execBe (g : RegSet) (d a b : RegNum) (s : State) : Result :=
  runOp2 (num2 s.params .be numBe) g d a b s

/-- `BS` (R189). -/
def execBs (g : RegSet) (d a b : RegNum) (s : State) : Result :=
  runOp2 (num2 s.params .bs numBs) g d a b s

/-- `BC` (R190). -/
def execBc (g : RegSet) (d a b : RegNum) (s : State) : Result :=
  runOp2 (num2 s.params .bc numBc) g d a b s

/-- `LSR` (R191). -/
def execLsr (g : RegSet) (d a b : RegNum) (s : State) : Result :=
  runOp2 (num2 s.params .lsr numLsr) g d a b s

/-- `LSL` (R192). -/
def execLsl (g : RegSet) (d a b : RegNum) (s : State) : Result :=
  runOp2 (num2 s.params .lsl numLsl) g d a b s

/-- `ASR` (R193). -/
def execAsr (g : RegSet) (d a b : RegNum) (s : State) : Result :=
  runOp2 (num2 s.params .asr numAsr) g d a b s

/-- `REV` (R194). -/
def execRev (g : RegSet) (d a : RegNum) (s : State) : Result :=
  runOp1 (num1 s.params .rev numRev) g d a s

/-- `REVH` (R195). -/
def execRevh (g : RegSet) (d a : RegNum) (s : State) : Result :=
  runOp1 (num1 s.params .revh numRevh) g d a s

/-- `REVL` (R196). -/
def execRevl (g : RegSet) (d a : RegNum) (s : State) : Result :=
  runOp1 (num1 s.params .revl numRevl) g d a s

/-- `FFS` (R197). -/
def execFfs (g : RegSet) (d a : RegNum) (s : State) : Result :=
  runOp1 (num1 s.params .ffs numFfs) g d a s

/-- `RTHL` (R198). -/
def execRthl (g : RegSet) (d a : RegNum) (s : State) : Result :=
  runOp1 (num1 s.params .rthl numRthl) g d a s

/-- `RTHH` (R199). -/
def execRthh (g : RegSet) (d a : RegNum) (s : State) : Result :=
  runOp1 (num1 s.params .rthh numRthh) g d a s

end Sys2Proof.Machine
end

