-- ==== Sys2Proof/Machine/Mathematics.lean ====
section
/-! DEFINITION. Machine/Mathematics.lean: group `0b0011`, mathematics (R210 to R231), each run by R200. -/

namespace Sys2Proof.Machine

/-- `ADD` (R210). -/
def execAdd (g : RegSet) (d a b : RegNum) (s : State) : Result :=
  runOp2 (fun x y => x + y) g d a b s

/-- `SUB` (R211). -/
def execSub (g : RegSet) (d a b : RegNum) (s : State) : Result :=
  runOp2 (fun x y => x - y) g d a b s

/-- `UMULI` (R212). -/
def execUmuli (g : RegSet) (d a b : RegNum) (s : State) : Result :=
  runOp2 (num2 s.params .umuli numUmuli) g d a b s

/-- `SMULI` (R213). -/
def execSmuli (g : RegSet) (d a b : RegNum) (s : State) : Result :=
  runOp2 (num2 s.params .smuli numSmuli) g d a b s

/-- `MULQ` (R214). -/
def execMulq (g : RegSet) (d a b : RegNum) (s : State) : Result :=
  runOp2 (num2 s.params .mulq (numMulq s.params.qfrac)) g d a b s

/-- `UFMAI` (R215). -/
def execUfmai (g : RegSet) (d a b : RegNum) (s : State) : Result :=
  runAccumulate (num3 s.params .ufmai numUfmai) g d a b s

/-- `SFMAI` (R216). -/
def execSfmai (g : RegSet) (d a b : RegNum) (s : State) : Result :=
  runAccumulate (num3 s.params .sfmai numSfmai) g d a b s

/-- `MACQ` (R217). -/
def execMacq (g : RegSet) (d a b : RegNum) (s : State) : Result :=
  runAccumulate (num3 s.params .macq (numMacq s.params.qfrac)) g d a b s

/-- `UDIVI` (R218). -/
def execUdivi (g : RegSet) (d a b : RegNum) (s : State) : Result :=
  runOp2Draw (num3 s.params .udivi numUdivi) g d a b s

/-- `SDIVI` (R219). -/
def execSdivi (g : RegSet) (d a b : RegNum) (s : State) : Result :=
  runOp2Draw (num3 s.params .sdivi numSdivi) g d a b s

/-- `DIVQ` (R220). -/
def execDivq (g : RegSet) (d a b : RegNum) (s : State) : Result :=
  runOp2Draw (num3 s.params .divq (numDivq s.params.qfrac)) g d a b s

/-- `UREM` (R221). -/
def execUrem (g : RegSet) (d a b : RegNum) (s : State) : Result :=
  runOp2Draw (num3 s.params .urem numUrem) g d a b s

/-- `RCPQ` (R222). -/
def execRcpq (g : RegSet) (d a : RegNum) (s : State) : Result :=
  runOp1Draw (num2 s.params .rcpq (numRcpq s.params.qfrac)) g d a s

/-- `SQRTQ` (R223). -/
def execSqrtq (g : RegSet) (d a : RegNum) (s : State) : Result :=
  runOp1Draw (num2 s.params .sqrtq (numSqrtq s.params.qfrac)) g d a s

/-- `ABS` (R224). -/
def execAbs (g : RegSet) (d a : RegNum) (s : State) : Result :=
  runOp1 (num1 s.params .abs numAbs) g d a s

/-- `NEG` (R225). -/
def execNeg (g : RegSet) (d a : RegNum) (s : State) : Result :=
  runOp1 (num1 s.params .neg numNeg) g d a s

/-- `SXT` (R226). -/
def execSxt (g : RegSet) (d a : RegNum) (s : State) : Result :=
  runOp1 (num1 s.params .sxt numSxt) g d a s

/-- `UFLOOR` (R227). -/
def execUfloor (g : RegSet) (d a : RegNum) (s : State) : Result :=
  runOp1 (num1 s.params .ufloor (numUfloor s.params.qfrac)) g d a s

/-- `SFLOOR` (R228). -/
def execSfloor (g : RegSet) (d a : RegNum) (s : State) : Result :=
  runOp1 (num1 s.params .sfloor (numSfloor s.params.qfrac)) g d a s

/-- `UCEIL` (R229). -/
def execUceil (g : RegSet) (d a : RegNum) (s : State) : Result :=
  runOp1 (num1 s.params .uceil (numUceil s.params.qfrac)) g d a s

/-- `SCEIL` (R230). -/
def execSceil (g : RegSet) (d a : RegNum) (s : State) : Result :=
  runOp1 (num1 s.params .sceil (numSceil s.params.qfrac)) g d a s

/-- `ROUND` (R231). -/
def execRound (g : RegSet) (d a : RegNum) (s : State) : Result :=
  runOp1 (num1 s.params .round (numRound s.params.qfrac)) g d a s

end Sys2Proof.Machine
end

