-- ==== Sys2Proof/Machine/MemoryAccess.lean ====
section
/-! DEFINITION. Machine/MemoryAccess.lean: group `0b0000`, queued memory access (R126, R130 to R132) and
texture sampling (R127 to R129). -/

namespace Sys2Proof.Machine

/-- The units of a form: the SMAU of each enabled slice, or the GMAU (R51). -/
def formUnits (s : State) (g : RegSet) : List MauUnit :=
  match g with
  | .slice => s.enabledIds.map MauUnit.smau
  | .global => [.gmau]

/-- The addresses in register `n` of the concerned slices, or of the Global set, in ascending order. -/
def formAddrs (s : State) (g : RegSet) (n : RegNum) : List Word :=
  match g with
  | .slice => s.enabledIds.map fun i => s.readReg .slice i n
  | .global => [s.globals.get n]

/-- R253 step 7 for `LD`: the first failing check of the first failing address. -/
def dataFaults (s : State) (addrs : List Word) : Option Fault := addrs.findSome? (dataFault s)

/-- R253 step 7 for `ST`. -/
def storeFaults (s : State) (addrs : List Word) : Option Fault := addrs.findSome? (storeFault s)

/-- Appending a request to the queue of each enabled slice, or of the GMAU (R61). -/
def enqueue (s : State) (g : RegSet) (local_ : Slice → Request) (global_ : Request) : State :=
  match g with
  | .slice => s.setSlices (updateEnabled (fun _ sl => sl.setQueue (sl.queue ++ [local_ sl])) s.slices)
  | .global => s.setGmau (s.gmau ++ [global_])

/-- `LD` (R126): address captured, destination pending from here on (R36, R61). -/
def execLd (g : RegSet) (d rs : RegNum) (s : State) : Result :=
  checked
    ((((pendingFault s (concernedRegs s g [d, rs])).or
      (unwrittenFault s ((concernedRegs s g [rs]).map ReadRef.reg))).or
      (dataFaults s (formAddrs s g rs))).or
      (overflowFault s (formUnits s g)))
    (enqueue s g (fun sl => .load d (sl.regs.get rs) none) (.load d (s.globals.get rs) none)).advance

/-- `ST` (R130), address register `d`, data register `rs`, both captured (R61). `ST Gd, Ss` is no
instruction (R90): its word is illegal, and so is the term. -/
def execSt (gd gs : RegSet) (d rs : RegNum) (s : State) : Result :=
  match gd, gs with
  | .slice, .slice =>
    checked
      ((((pendingFault s (concernedRegs s .slice [d, rs])).or
        (unwrittenFault s ((concernedRegs s .slice [d, rs]).map ReadRef.reg))).or
        (storeFaults s (formAddrs s .slice d))).or
        (overflowFault s (formUnits s .slice)))
      (enqueue s .slice (fun sl => .store (sl.regs.get d) (sl.regs.get rs) false)
        (.store 0#32 0#32 false)).advance
  | .global, .global =>
    checked
      ((((pendingFault s (concernedRegs s .global [d, rs])).or
        (unwrittenFault s ((concernedRegs s .global [d, rs]).map ReadRef.reg))).or
        (storeFaults s (formAddrs s .global d))).or
        (overflowFault s (formUnits s .global)))
      (enqueue s .global (fun _ => .store 0#32 0#32 false)
        (.store (s.globals.get d) (s.globals.get rs) false)).advance
  | .slice, .global =>
    checked
      ((((pendingFault s (perEnabled s fun i => [.slice i d, .global rs])).or
        (unwrittenFault s (perEnabled s fun i => [.reg (.slice i d), .reg (.global rs)]))).or
        (storeFaults s (formAddrs s .slice d))).or
        (overflowFault s (formUnits s .slice)))
      (enqueue s .slice (fun sl => .store (sl.regs.get d) (s.globals.get rs) false)
        (.store 0#32 0#32 false)).advance
  | .global, .slice => .fault (.illegalInstruction s.ip (s.fetch.getD 0#32))

/-- Every request of every concerned unit is performed: the hold of `COMMIT` is lifted (R63). -/
def State.commitReady (s : State) : Bool :=
  s.concernedUnits.all fun u => (s.queueOf u).all Request.performed

/-- The effect of `COMMIT` (R63, R131): loaded data to the registers, the concerned queues empty; the
queue of a disabled slice is left as it is (R65). -/
def deliverAll (s : State) : State :=
  ((s.setGlobals (deliver s.gmau s.globals)).setGmau []).setSlices
    (updateEnabled (fun _ sl => (sl.setRegs (deliver sl.queue sl.regs)).setQueue []) s.slices)

/-- `COMMIT` (R131): while it is held the core waits and a unit performs a request (R63; log 11). -/
def execCommit (s : State) : Result :=
  if s.commitReady then .next (deliverAll s).advance else .next (performOne s)

/-- `DISCARD` (R132): the concerned queues are emptied, no register is written, nothing is waited for. -/
def execDiscard (s : State) : Result :=
  .next (((s.setGmau []).setSlices (updateEnabled (fun _ sl => sl.setQueue []) s.slices)).advance)

/-- `SAMPR` (R127, R129): no destination, no format, no completion in the source; refused (log 25). -/
def execSampr (_g : RegSet) (_t _x _y : RegNum) (_s : State) : Result := .refused .textureUnitUnknown

/-- `SAMPC` (R128, R129): refused for the same reasons (log 25). -/
def execSampc (_g : RegSet) (_t _x _y : RegNum) (_s : State) : Result := .refused .textureUnitUnknown

end Sys2Proof.Machine
end

