-- ==== Sys2Proof/Machine/Moves.lean ====
section
/-! DEFINITION. Machine/Moves.lean: group `0b0000`, the register moves (R120 to R125). -/

namespace Sys2Proof.Machine

/-- `MOV` (R120), in its four forms. `MOV Gd, Ss` reads the lowest enabled slice only, and writes nothing
when no slice is enabled (R25; log 16, log 17). -/
def execMov (gd gs : RegSet) (d rs : RegNum) (s : State) : Result :=
  match gd, gs with
  | .slice, .slice => runOp1 (fun x => x) .slice d rs s
  | .global, .global => runOp1 (fun x => x) .global d rs s
  | .slice, .global =>
    checked
      ((pendingFault s (perEnabled s fun i => [.slice i d, .global rs])).or
        (unwrittenFault s (perEnabled s fun _ => [.reg (.global rs)])))
      (writeSet s .slice d (fun _ _ => s.globals.get rs) 0#32).advance
  | .global, .slice =>
    checked
      ((pendingFault s (perEnabled s fun i => [.global d, .slice i rs])).or
        (unwrittenFault s (s.lowestEnabled.toList.map fun i => .reg (.slice i rs))))
      (match s.lowestEnabled with
        | some i => (s.setGlobals (s.globals.set d ((s.sliceRegs i).get rs))).advance
        | none => s.advance)

/-- The `G` register with number `k`; a number above 63 names none (R253 step 5). -/
def globalRefs (k : Nat) : List RegRef := if k < 64 then [.global (BitVec.ofNat 6 k)] else []

/-- The value of the `G` register with number `k`. -/
def State.globalAt (s : State) (k : Nat) : Word := s.globals.get (BitVec.ofNat 6 k)

/-- `MVG` and `MVGE` (R121, R122): the `G` register of Slice `i` is the named one plus `off i`. -/
def moveIndexed (off : Nat → Nat) (dir : MoveDir) (d rs : RegNum) (s : State) : Result :=
  match dir with
  | .fromGlobal =>
    checked
      (((pendingFault s (perEnabled s fun i => .slice i d :: globalRefs (rs.toNat + off i))).or
        (unwrittenFault s (perEnabled s fun i => (globalRefs (rs.toNat + off i)).map ReadRef.reg))).or
        (indexFault (s.enabledIds.map fun i => rs.toNat + off i)))
      (writeSet s .slice d (fun i _ => s.globalAt (rs.toNat + off i)) 0#32).advance
  | .toGlobal =>
    checked
      (((pendingFault s (perEnabled s fun i => globalRefs (d.toNat + off i) ++ [.slice i rs])).or
        (unwrittenFault s (perEnabled s fun i => [.reg (.slice i rs)]))).or
        (indexFault (s.enabledIds.map fun i => d.toNat + off i)))
      (s.setGlobals (s.enabledIds.foldl
        (fun rf i => rf.set (BitVec.ofNat 6 (d.toNat + off i)) ((s.sliceRegs i).get rs)) s.globals)).advance

/-- `MVG` (R121): the offset is the absolute Slice ID. -/
def execMvg (dir : MoveDir) (d rs : RegNum) (s : State) : Result := moveIndexed (fun i => i) dir d rs s

/-- `MVGE` (R122): the offset is the Enabled Slice ID. -/
def execMvge (dir : MoveDir) (d rs : RegNum) (s : State) : Result := moveIndexed s.enabledRank dir d rs s

/-- `MVI` (R123). -/
def execMvi (g : RegSet) (ty : ImmType) (d : RegNum) (imm : BitVec 12) (s : State) : Result :=
  runRegOp g d [] (fun _ => expandImm s.params.qfrac ty imm) s

/-- `RELPC` (R124): from the address of the instruction itself. -/
def execRelpc (g : RegSet) (d : RegNum) (imm : BitVec 12) (s : State) : Result :=
  runRegOp g d [] (fun _ => relpcValue s.ip imm) s

/-- `MVS` (R125): no special register is listed, no operand is defined; refused (log 25). -/
def execMvs (_params : BitVec 23) (_s : State) : Result := .refused .specialRegisterUnknown

end Sys2Proof.Machine
end

