-- ==== Sys2Proof/Machine/Raster.lean ====
section
/-! DEFINITION. Machine/Raster.lean: group `0b0100`, raster and tile control (R240 to R248): titles only in
the source, every instruction refused (log 25). -/

namespace Sys2Proof.Machine

/-- `TILD` (R240, R248): refused. -/
def execTild (_params : BitVec 23) (_s : State) : Result := .refused .rasterUnitUnknown

/-- `TIST` (R241, R248): refused. -/
def execTist (_params : BitVec 23) (_s : State) : Result := .refused .rasterUnitUnknown

/-- `PLD` (R242, R248): refused. -/
def execPld (_params : BitVec 23) (_s : State) : Result := .refused .rasterUnitUnknown

/-- `PST` (R243, R248): refused. -/
def execPst (_params : BitVec 23) (_s : State) : Result := .refused .rasterUnitUnknown

/-- `TOFS` (R244, R248): refused. -/
def execTofs (_params : BitVec 23) (_s : State) : Result := .refused .rasterUnitUnknown

/-- `TOFL` (R245, R248): refused. -/
def execTofl (_params : BitVec 23) (_s : State) : Result := .refused .rasterUnitUnknown

/-- `TRIL` (R246, R248): refused. -/
def execTril (_params : BitVec 23) (_s : State) : Result := .refused .rasterUnitUnknown

/-- `BARYP` (R247, R248): refused. -/
def execBaryp (_params : BitVec 23) (_s : State) : Result := .refused .rasterUnitUnknown

end Sys2Proof.Machine
end

