-- ==== Sys2Proof/Machine/Dispatch.lean ====
section
/-! DEFINITION. Machine/Dispatch.lean: the meaning of each instruction, one arm per constructor. -/

namespace Sys2Proof.Machine

/-- The meaning of an instruction (rules R120 to R247), the order of its checks by R253. -/
def exec (i : Instr) (s : State) : Host.Outcome State Fault Refusal :=
  match i with
  | .mov gd gs d rs => Sys2Proof.Machine.execMov gd gs d rs s
  | .mvg dir d rs => Sys2Proof.Machine.execMvg dir d rs s
  | .mvge dir d rs => Sys2Proof.Machine.execMvge dir d rs s
  | .mvi g ty d imm => Sys2Proof.Machine.execMvi g ty d imm s
  | .relpc g d imm => Sys2Proof.Machine.execRelpc g d imm s
  | .mvs params => Sys2Proof.Machine.execMvs params s
  | .ld g d a => Sys2Proof.Machine.execLd g d a s
  | .sampr g t x y => Sys2Proof.Machine.execSampr g t x y s
  | .sampc g t x y => Sys2Proof.Machine.execSampc g t x y s
  | .st gd gs d rs => Sys2Proof.Machine.execSt gd gs d rs s
  | .commit => Sys2Proof.Machine.execCommit s
  | .discard => Sys2Proof.Machine.execDiscard s
  | .ent => Sys2Proof.Machine.execEnt s
  | .enm rs => Sys2Proof.Machine.execEnm rs s
  | .tmst d => Sys2Proof.Machine.execTmst d s
  | .emst d => Sys2Proof.Machine.execEmst d s
  | .mskl rs => Sys2Proof.Machine.execMskl rs s
  | .ldt d => Sys2Proof.Machine.execLdt d s
  | .tst g n c a b => Sys2Proof.Machine.execTst g n c a b s
  | .sel d t f => Sys2Proof.Machine.execSel d t f s
  | .br off => Sys2Proof.Machine.execBr off s
  | .ben off => Sys2Proof.Machine.execBen off s
  | .bnen off => Sys2Proof.Machine.execBnen off s
  | .sig => Sys2Proof.Machine.execSig s
  | .nop => Sys2Proof.Machine.execNop s
  | .and g d a b => Sys2Proof.Machine.execAnd g d a b s
  | .or g d a b => Sys2Proof.Machine.execOr g d a b s
  | .xor g d a b => Sys2Proof.Machine.execXor g d a b s
  | .not g d a => Sys2Proof.Machine.execNot g d a s
  | .lnot g d a => Sys2Proof.Machine.execLnot g d a s
  | .lbool g d a => Sys2Proof.Machine.execLbool g d a s
  | .pcnt g d a => Sys2Proof.Machine.execPcnt g d a s
  | .bits g d a => Sys2Proof.Machine.execBits g d a s
  | .be g d a b => Sys2Proof.Machine.execBe g d a b s
  | .bs g d a b => Sys2Proof.Machine.execBs g d a b s
  | .bc g d a b => Sys2Proof.Machine.execBc g d a b s
  | .lsr g d a b => Sys2Proof.Machine.execLsr g d a b s
  | .lsl g d a b => Sys2Proof.Machine.execLsl g d a b s
  | .asr g d a b => Sys2Proof.Machine.execAsr g d a b s
  | .rev g d a => Sys2Proof.Machine.execRev g d a s
  | .revh g d a => Sys2Proof.Machine.execRevh g d a s
  | .revl g d a => Sys2Proof.Machine.execRevl g d a s
  | .ffs g d a => Sys2Proof.Machine.execFfs g d a s
  | .rthl g d a => Sys2Proof.Machine.execRthl g d a s
  | .rthh g d a => Sys2Proof.Machine.execRthh g d a s
  | .add g d a b => Sys2Proof.Machine.execAdd g d a b s
  | .sub g d a b => Sys2Proof.Machine.execSub g d a b s
  | .umuli g d a b => Sys2Proof.Machine.execUmuli g d a b s
  | .smuli g d a b => Sys2Proof.Machine.execSmuli g d a b s
  | .mulq g d a b => Sys2Proof.Machine.execMulq g d a b s
  | .ufmai g d a b => Sys2Proof.Machine.execUfmai g d a b s
  | .sfmai g d a b => Sys2Proof.Machine.execSfmai g d a b s
  | .macq g d a b => Sys2Proof.Machine.execMacq g d a b s
  | .udivi g d a b => Sys2Proof.Machine.execUdivi g d a b s
  | .sdivi g d a b => Sys2Proof.Machine.execSdivi g d a b s
  | .divq g d a b => Sys2Proof.Machine.execDivq g d a b s
  | .urem g d a b => Sys2Proof.Machine.execUrem g d a b s
  | .rcpq g d a => Sys2Proof.Machine.execRcpq g d a s
  | .sqrtq g d a => Sys2Proof.Machine.execSqrtq g d a s
  | .abs g d a => Sys2Proof.Machine.execAbs g d a s
  | .neg g d a => Sys2Proof.Machine.execNeg g d a s
  | .sxt g d a => Sys2Proof.Machine.execSxt g d a s
  | .ufloor g d a => Sys2Proof.Machine.execUfloor g d a s
  | .sfloor g d a => Sys2Proof.Machine.execSfloor g d a s
  | .uceil g d a => Sys2Proof.Machine.execUceil g d a s
  | .sceil g d a => Sys2Proof.Machine.execSceil g d a s
  | .round g d a => Sys2Proof.Machine.execRound g d a s
  | .tild params => Sys2Proof.Machine.execTild params s
  | .tist params => Sys2Proof.Machine.execTist params s
  | .pld params => Sys2Proof.Machine.execPld params s
  | .pst params => Sys2Proof.Machine.execPst params s
  | .tofs params => Sys2Proof.Machine.execTofs params s
  | .tofl params => Sys2Proof.Machine.execTofl params s
  | .tril params => Sys2Proof.Machine.execTril params s
  | .baryp params => Sys2Proof.Machine.execBaryp params s

end Sys2Proof.Machine
end

