-- ==== Sys2Proof/Machine/Turn.lean ====
section
/-! DEFINITION. Machine/Turn.lean: one turn of the core (R253) and the moves of the other agents (R62, R259
to R263). -/

namespace Sys2Proof.Machine

/-! ## The core -/

/-- The machine's decoder (R103), with its `OPCODE_MAP` (R6). -/
def State.decode (s : State) (w : Word) : Except DecodeError Instr := decodeBy s.params.opcodeMap w

/-- Steps 2 to 10 of R253, in state `Running`: fetch, decode, run. -/
def runCore (s : State) : Result :=
  match s.fetch with
  | none => .next (takeFault (.fetchFault s.ip) s)
  | some w =>
    match s.decode w with
    | .error _ => .next (takeFault (.illegalInstruction s.ip w) s)
    | .ok i => settle s (exec i s)

/-- The core's turn (R253 step 1): it steps only when `RUN` is `Running` (R37). A faulted task is terminal
and answers with its fault (R252, log 13); in the other states the core takes no step (log 14). -/
def coreTurn (s : State) : Result :=
  match s.run with
  | .running => runCore s
  | .faulted f => .fault f
  | .idle => .next s
  | .suspended => .next s
  | .completed => .next s
  | .stopped => .next s

/-! ## The host -/

/-- The address lies in the image of the launch record (R57). -/
def Launch.inImage (l : Launch) (a : Nat) : Bool :=
  decide (l.imageBase.toNat ≤ a) && decide (a < l.imageBase.toNat + 4 * l.image.length)

/-- `MEM_INIT` gives a word for every address of `MEM_ADMIT` outside the image (R282). -/
def Launch.memInitCovers (l : Launch) : Bool :=
  l.memAdmit.all fun r => (List.range r.words).all fun k =>
    l.inImage (r.base + 4 * k) || l.memInit.any fun p => p.1.toNat == r.base + 4 * k

/-- What a launch record must satisfy (R282), for a machine with `nslices` slices. DESIGN CHOICE (log 35), where
R282 is silent: the addresses of `MEM_INIT` are multiples of 4, `T_INIT` is given only for slices that exist,
and words of `MEM_INIT` outside `MEM_ADMIT` are accepted. -/
def Launch.ok (l : Launch) (nslices : Nat) : Bool :=
  (l.imageBase.toNat % 4 == 0) && (l.entry.toNat % 4 == 0) &&
  decide (1 ≤ l.image.length) && decide (l.imageBase.toNat + 4 * l.image.length ≤ 2 ^ 32) &&
  decide (l.imageBase.toNat ≤ l.entry.toNat) &&
  decide (l.entry.toNat < l.imageBase.toNat + 4 * l.image.length) &&
  (l.memAdmit.all fun r => (r.base % 4 == 0) && decide (r.base + 4 * r.words ≤ 2 ^ 32)) &&
  (l.memInit.all fun p => p.1.toNat % 4 == 0) && l.memInitCovers &&
  decide (l.enInit.toNat < 2 ^ nslices) &&
  (l.sInit.all fun p => decide (p.1 < nslices)) &&
  (l.tInit.all fun p => decide (p.1 < nslices))

/-- The registers the launch record gives: the last entry for a register counts (log 34), a register without
an entry is unwritten (R38). -/
def launchRegs (l : List (RegNum × Word)) : RegFile :=
  l.foldl (fun rf p => rf.set p.1 p.2) RegFile.unwritten

/-- The entries of `S_INIT` for Slice `i`. -/
def sInitOf (l : List (Nat × RegNum × Word)) (i : Nat) : List (RegNum × Word) :=
  (l.filter fun p => p.1 == i).map fun p => p.2

/-- The `T` flag the launch record gives Slice `i`, if it gives one (R38; log 34). -/
def tInitOf (l : List (Nat × Bool)) (i : Nat) : Option Bool :=
  (l.find? fun p => p.1 == i).map fun p => p.2

/-- Slice `i` after the start (R259). -/
def launchSlice (l : Launch) (i : Nat) : Slice :=
  { regs := launchRegs (sInitOf l.sInit i)
    t := (tInitOf l.tInit i).getD false
    tWritten := (tInitOf l.tInit i).isSome
    en := l.enInit.getLsbD i
    queue := [] }

/-- Memory from `MEM_INIT` (R259), in canonical form; also its words outside `MEM_ADMIT` (log 35). -/
def launchMem (order : ByteOrder) (l : List (Word × Word)) : Memory :=
  l.foldl (fun m p => m.writeWord order p.1 p.2) []

/-- Start (R259): the whole state is set from the launch record; nothing of an earlier task survives. -/
def startTask (l : Launch) (s : State) : State :=
  { s with
    slices := (List.range s.slices.length).map (launchSlice l)
    globals := launchRegs l.gInit
    gmau := []
    ip := l.entry
    mem := launchMem s.params.byteOrder l.memInit
    imageBase := l.imageBase
    image := l.image
    memAdmit := l.memAdmit
    signal := false
    run := .running }

/-- The states a start may leave (R259, R263). -/
def RunState.startable : RunState → Bool
  | .idle | .completed | .stopped | .faulted _ => true
  | .running | .suspended => false

/-- Stop (R261): requests still queued are treated as by `DISCARD` for every unit (log 21). -/
def stopTask (s : State) : State :=
  ((s.setGmau []).setSlices (updateEvery (fun _ sl => sl.setQueue []) s.slices)).setRun .stopped

/-- A host action (R259 to R261); one that R263 does not list does nothing (log 23). -/
def hostMove (m : HostMove) (s : State) : State :=
  match m with
  | .start l => if s.run.startable && l.ok s.slices.length then startTask l s else s
  | .suspend => if s.run = .running then s.setRun .suspended else s
  | .resume => if s.run = .suspended then s.setRun .running else s
  | .stop => if s.run = .running ∨ s.run = .suspended then stopTask s else s

/-! ## Progress -/

/-- Unit number `n`: 0 is the GMAU, `i + 1` the SMAU of Slice `i` (R60). -/
def unitOf : Nat → MauUnit
  | 0 => .gmau
  | i + 1 => .smau i

/-- The move that a value of `Config.planMove` stands for: the core's, or a unit's (log 36). -/
def planned : Option (Nat × Nat) → Move
  | none => .core
  | some (n, k) => .mau (unitOf n) k

/-- The moves `l` with a move for each of the requests, at places that are a free choice (log 36). -/
def insertRequests (c : Nat) : List (MauUnit × Nat) → List Move → List Move
  | [], l => l
  | (u, k) :: rest, l =>
    let m := insertRequests (c + 1) rest l
    m.insertIdx (Config.mauPick c % (m.length + 1)) (.mau u k)

/-- A plan (log 36): free moves of the core and the units, and among them a move for every request that may be
performed, so that the unit performs it after finitely many moves (R292). -/
def State.plan (s : State) : List Move :=
  insertRequests s.frees (s.performableOf s.allUnits)
    ((List.range (Config.planLength s.frees)).map fun j => planned (Config.planMove (s.frees + j)))

/-- Every request of every unit is performed. -/
def State.allPerformed (s : State) : Bool := s.allUnits.all fun u => (s.queueOf u).all Request.performed

/-- The list `env`, or a plan when it is empty while a request is unperformed (R292, log 36). -/
def State.scheduled (s : State) : State :=
  match s.env with
  | [] => if s.allPerformed then s else (s.setEnv s.plan).setFrees (s.frees + s.plan.length)
  | _ :: _ => s

/-! ## One move -/

/-- One move of one agent (R21, R263). -/
def takeMove (m : Move) (s : State) : Result :=
  match m with
  | .core => coreTurn s
  | .mau u k => .next (mauPerform s u k)
  | .host h => .next (hostMove h s)

/-- The next move of the list, or the core's turn when there is none (log 10). -/
def nextMove (s : State) : Result :=
  match s.scheduled.env with
  | [] => coreTurn s.scheduled
  | m :: rest => takeMove m (s.scheduled.setEnv rest)

end Sys2Proof.Machine
end

