-- ==== Sys2Proof/Machine/Step.lean ====
section
/-! DEFINITION. Machine/Step.lean: one step of the machine, and placing a word where it fetches. -/

namespace Sys2Proof.Machine

/-- One step: one move of one agent (R21, R253, R263). -/
def step (s : State) : Host.Outcome State Fault Refusal := nextMove s

/-- `s` with the instruction `w` as the program at `ip`, its task running and no other agent's move before
it: what loading a program takes (log 5). `w` is a word of `opcode_table.json`; what is placed is the word that
the machine's `OPCODE_MAP` has for it, after reset `w` itself. -/
def State.withFetchWord (s : State) (nbits w : Nat) : State :=
  s.placeProgram (s.params.opcodeMap.machineWord (BitVec.ofNat 32 (w % 2 ^ nbits)))

end Sys2Proof.Machine
end

