-- ==== Sys2Proof/Safety.lean ====
section
/-! DEFINITION. Safety.lean: the end of a good run and what the host sees (R72, R262), the invariant of the
machine, and the terms the statements use for what an instruction changes and what it leaves alone. -/

namespace Sys2Proof.Machine

/-! ## Runs -/

/-- `n` steps one after another, or what ends them before. -/
def steps : Nat → State → Result
  | 0, s => .next s
  | n + 1, s =>
    match step s with
    | .next t => steps n t
    | .fault f => .fault f
    | .refused r => .refused r

/-- The next move is the core's, and `rest` is what it leaves of the list of moves (log 10): its head is the core,
or it is empty with every queued request performed, so that no plan is made (log 36). -/
abbrev CoreMoves (s : State) (rest : List Move) : Prop :=
  s.env = .core :: rest ∨ (s.env = [] ∧ rest = [] ∧ ∀ u ∈ s.allUnits, ∀ r ∈ s.queueOf u, r.performed = true)

/-! ## The end of a run, and the host's view -/

/-- The end of a good run (R262): completed, signalled, every queue empty. -/
def State.goodEnd (s : State) : Bool := decide (s.run = .completed) && s.signal && !s.anyQueued

/-- The run has ended in a way that is no good run (R252, R261). -/
def State.badEnd (s : State) : Bool :=
  match s.run with
  | .faulted _ | .stopped => true
  | .idle | .running | .suspended | .completed => false

/-- The host may read `SIGNAL` at any time (R262). -/
def State.hostSignal (s : State) : Bool := s.signal

/-- The byte the host reads at an address (R53, R72): none unless the task is completed. -/
def State.hostByte (s : State) (a : Nat) : Option Byte :=
  if s.run = .completed then
    some (byteOf s.params.byteOrder (s.readMem (BitVec.ofNat 32 (a - a % 4))) (a % 4))
  else none

/-! ## The invariant -/

/-- The address of a request (R60). -/
def Request.addr : Request → Word
  | .load _ a _ => a
  | .store a _ _ => a

/-- The destination of a load (R60). -/
def Request.dest : Request → Option RegNum
  | .load n _ _ => some n
  | .store _ _ _ => none

/-- The destinations of the loads of a queue, oldest first. -/
def destsOf (q : List Request) : List RegNum := q.filterMap Request.dest

/-- A queued request has passed the address checks (R54, R56, R57). -/
def requestAdmitted (s : State) (r : Request) : Bool :=
  decide (r.addr.toNat % 4 = 0) && s.admits r.addr &&
    match r with
    | .load _ _ _ => true
    | .store a _ _ => !s.inImage a

/-- A queue: its requests have passed their checks, no two loads share a destination (R126, R131), and it
is no longer than `MAU_QUEUE_DEPTH` (R66). -/
def queueOk (s : State) (q : List Request) : Bool :=
  (q.all fun r => requestAdmitted s r) && decide (destsOf q).Nodup &&
    match s.params.mauDepth with
    | none => true
    | some depth => decide (q.length ≤ depth)

/-- What holds of the machine at reset and after every step: memory canonical; `ip` a multiple of 4 (R28);
1 to 32 slices (R20); legal parameters (R6); the image and the admitted ranges placed as R282 asks; every
queue as it should be; and `Completed` only with `SIGNAL` set and every queue empty (R262). -/
def StateInv (s : State) : Bool :=
  s.mem.wf && decide (s.ip.toNat % 4 = 0) &&
  (decide (1 ≤ s.slices.length) && decide (s.slices.length ≤ 32)) && s.params.legal &&
  (decide (s.imageBase.toNat % 4 = 0) && decide (s.imageBase.toNat + 4 * s.image.length ≤ 2 ^ 32)) &&
  (s.memAdmit.all fun r => decide (r.base % 4 = 0) && decide (r.base + 4 * r.words ≤ 2 ^ 32)) &&
  (queueOk s s.gmau && s.slices.all fun sl => queueOk s sl.queue) &&
  (!decide (s.run = .completed) || s.goodEnd)

/-! ## What an instruction needs -/

/-- The checks of R253 step 5 pass: no register of `named` is pending (R36) and everything of `reads` holds a
value (R39). -/
abbrev ListReady (s : State) (named : List RegRef) (reads : List ReadRef) : Prop :=
  (∀ r ∈ named, s.isPending r = false) ∧ (∀ r ∈ reads, s.holdsValue r = true)

/-- `f` is a fault that a failing check of R253 step 5 may report for `named` and `reads`. -/
def ListFault (s : State) (named : List RegRef) (reads : List ReadRef) (f : Fault) : Prop :=
  (∃ r ∈ named, s.isPending r = true ∧ f = .pendingAccess r) ∨
  ((∀ r ∈ named, s.isPending r = false) ∧ ∃ r ∈ reads, s.holdsValue r = false ∧ f = .unwrittenRead r)

/-- `ListReady` for registers `named` and `reads` of every enabled slice (`g` the Slice set) or of the
Global set. -/
abbrev RegsReady (s : State) (g : RegSet) (named reads : List RegNum) : Prop :=
  ListReady s (concernedRegs s g named) ((concernedRegs s g reads).map ReadRef.reg)

/-- `ListFault` for registers `named` and `reads` of every enabled slice or of the Global set. -/
abbrev RegsFault (s : State) (g : RegSet) (named reads : List RegNum) (f : Fault) : Prop :=
  ListFault s (concernedRegs s g named) ((concernedRegs s g reads).map ReadRef.reg) f

/-- With a check of R253 step 5 failing for `named` or `reads`, the instruction faults as that check says. -/
def FaultsUnless (i : Instr) (s : State) (named : List RegRef) (reads : List ReadRef) : Prop :=
  ¬ ListReady s named reads → ∃ f, exec i s = .fault f ∧ ListFault s named reads f

/-- `FaultsUnless` for registers `named` and `reads` of every enabled slice or of the Global set. -/
abbrev RegsFaultUnless (i : Instr) (s : State) (g : RegSet) (named reads : List RegNum) : Prop :=
  FaultsUnless i s (concernedRegs s g named) ((concernedRegs s g reads).map ReadRef.reg)

/-- `QFRAC` is in its legal range (R6). -/
abbrev LegalQfrac (s : State) : Prop := 10 ≤ s.params.qfrac ∧ s.params.qfrac ≤ 20

/-- The queue of every unit of `us` has room for one more request (R66). -/
abbrev QueueRoom (s : State) (us : List MauUnit) : Prop :=
  ∀ u ∈ us, ∀ depth ∈ s.params.mauDepth, (s.queueOf u).length < depth

/-- An address that a load may use: aligned and admitted (R54, R56). -/
abbrev LoadAddress (s : State) (a : Word) : Prop := a.toNat % 4 = 0 ∧ s.admits a = true

/-- An address that a store may use: also outside the image (R57). -/
abbrev StoreAddress (s : State) (a : Word) : Prop := LoadAddress s a ∧ s.inImage a = false

/-! ## What an instruction changes, and what it leaves alone -/

/-- Everything that no register instruction touches is as before: the parameters, the image, `MEM_ADMIT`,
`SIGNAL`, `RUN`, the other agents' moves, and every byte of memory. -/
def SameMachine (s t : State) : Prop :=
  t.params = s.params ∧ t.imageBase = s.imageBase ∧ t.image = s.image ∧ t.memAdmit = s.memAdmit ∧
  t.signal = s.signal ∧ t.run = s.run ∧ t.env = s.env ∧ ∀ a, t.mem.readByte a = s.mem.readByte a

/-- Register `d` of a set holds a value with `P`; every other register of the set is as before. -/
def RegChange (P : Word → Prop) (d : RegNum) (rf rf' : RegFile) : Prop :=
  P (rf'.get d) ∧ rf'.holds d = true ∧ ∀ n, n ≠ d → rf'.get n = rf.get n ∧ rf'.holds n = rf.holds n

/-- `R` holds between the old and the new record of every slice; no slice is added or lost. -/
def EachSlice (R : Nat → Slice → Slice → Prop) (s t : State) : Prop :=
  t.slices.length = s.slices.length ∧
  ∀ i sl sl', s.slices[i]? = some sl → t.slices[i]? = some sl' → R i sl sl'

/-- Only the registers of a slice may differ. -/
def OnlyRegs (sl sl' : Slice) : Prop :=
  sl'.t = sl.t ∧ sl'.tWritten = sl.tWritten ∧ sl'.en = sl.en ∧ sl'.queue = sl.queue

/-- Only the `T` flag of a slice may differ. -/
def OnlyT (sl sl' : Slice) : Prop := sl'.regs = sl.regs ∧ sl'.en = sl.en ∧ sl'.queue = sl.queue

/-- Only the enable bit of a slice may differ. -/
def OnlyEn (sl sl' : Slice) : Prop :=
  sl'.regs = sl.regs ∧ sl'.t = sl.t ∧ sl'.tWritten = sl.tWritten ∧ sl'.queue = sl.queue

/-- Only the queue of a slice may differ. -/
def OnlyQueue (sl sl' : Slice) : Prop :=
  sl'.regs = sl.regs ∧ sl'.t = sl.t ∧ sl'.tWritten = sl.tWritten ∧ sl'.en = sl.en

/-- The whole effect of an instruction that writes register `d` (R27, R200): with the Slice set, `d` of
every enabled slice `i` gets a value with `P i` of that slice's old registers and a disabled slice is as
before; with the Global set, `Gd` gets a value with `P 0` of the old Global set. `ip` advances (R29), and
nothing else changes. -/
def WritesReg (s t : State) (g : RegSet) (d : RegNum) (P : Nat → RegFile → Word → Prop) : Prop :=
  t.ip = s.ip + 4#32 ∧ SameMachine s t ∧ t.gmau = s.gmau ∧
  match g with
  | .slice =>
    t.globals = s.globals ∧
    EachSlice (fun i sl sl' => OnlyRegs sl sl' ∧
      if sl.en = true then RegChange (P i sl.regs) d sl.regs sl'.regs else sl'.regs = sl.regs) s t
  | .global => t.slices = s.slices ∧ RegChange (P 0 s.globals) d s.globals t.globals

/-- A queue's loaded data delivered (R63): the destination of every load that has its data holds the data,
every other register is as before. -/
def Delivered (q : List Request) (rf rf' : RegFile) : Prop :=
  (∀ n a v, Request.load n a (some v) ∈ q → rf'.get n = v ∧ rf'.holds n = true) ∧
  ∀ n, n ∉ destsOf q → rf'.get n = rf.get n ∧ rf'.holds n = rf.holds n

/-- Unit `u` performs its request `k`, which is `r` (R62), and nothing else changes but the model's own
fields. A load takes the word at its address and changes no byte of memory; a store writes its word, and no
byte outside the word at its address changes. -/
def PerformsRequest (s t : State) (u : MauUnit) (k : Nat) (r : Request) : Prop :=
  (t.params = s.params ∧ t.imageBase = s.imageBase ∧ t.image = s.image ∧ t.memAdmit = s.memAdmit ∧
    t.signal = s.signal ∧ t.run = s.run) ∧
  t.ip = s.ip ∧ t.globals = s.globals ∧ EachSlice (fun _ sl sl' => OnlyQueue sl sl') s t ∧
  (∀ u', u' ≠ u → t.queueOf u' = s.queueOf u') ∧
  match r with
  | .load n a _ =>
    t.queueOf u = (s.queueOf u).set k (.load n a (some (s.readMem a))) ∧
    ∀ b, t.mem.readByte b = s.mem.readByte b
  | .store a v _ =>
    t.queueOf u = (s.queueOf u).set k (.store a v true) ∧ t.mem.readWord s.params.byteOrder a = v ∧
    ∀ b, (∀ j, j < 4 → b ≠ byteAddr a j) → t.mem.readByte b = s.mem.readByte b

/-- The states differ in `T` flags only. -/
def SameButT (s s' : State) : Prop :=
  s' = s.setSlices s'.slices ∧ EachSlice (fun _ sl sl' => OnlyT sl sl') s s'

/-- The meaning of a test condition (R163) on the values `A` and `B`; `CNS` asks for the bit of every enabled
slice. -/
def CondMeaning (s : State) (c : Cond) (A B : Word) : Prop :=
  match c with
  | .zro => A = 0#32
  | .equ => A = B
  | .ult => A.toNat < B.toNat
  | .ugt => B.toNat < A.toNat
  | .slt => A.toInt < B.toInt
  | .sgt => B.toInt < A.toInt
  | .neg => A.getLsbD 31 = true
  | .cns => ∀ i, i < 32 → s.enabledAt i = true → A.getLsbD i = true

/-- `q` is `n / d` rounded toward zero (R9 `trunc`): the rest is smaller than `d` and has the sign of `n`. -/
def TruncQuotient (n d q : Int) : Prop := (n - q * d).natAbs < d.natAbs ∧ 0 ≤ (n - q * d) * n

/-- `v` is the value of field `n` of `NUM` on the operands (R6, log 18): with the default body it is as `P` says,
with a function of the machine's own it is that function's value. -/
def NumValue (s : State) (n : NumField) (operands : List Word) (v : Word) (P : Prop) : Prop :=
  if s.params.ownNum n = true then v = Config.numBody n s.params.qfrac operands else P

/-- `NumValue` for a field that R233 may leave open: a function of the machine's own also has a free value. -/
def NumValueFree (s : State) (n : NumField) (operands : List Word) (v : Word) (P : Prop) : Prop :=
  if s.params.ownNum n = true then ∃ free, v = Config.numBody n s.params.qfrac (free :: operands) else P

/-- `a` is the target of branch `b` with the parameters `off` (R102, R158): with format `B23` the address of the
branch plus four times the signed offset, modulo 2^32; with an operand form of its own (R6, log 19) that form's. -/
def BranchTargetIs (s : State) (b : BranchOp) (off : BitVec 23) (a : Word) : Prop :=
  if s.params.opcodeMap.ownBranch b = true then a = Config.branchWord b off s.ip ++ 0#2
  else a = BitVec.ofInt 32 (s.ip.toNat + 4 * off.toInt)

/-- The slice whose register or flag a fault record names; a `G` register is common to all. -/
def ReadRef.sliceNo : ReadRef → Nat
  | .reg (.slice i _) => i
  | .reg (.global _) => 0
  | .tFlag i => i

/-! ## Groups of instructions -/

/-- The parameter bits that the format of an opcode's row marks `0` (R85 to R99), in the default `OPCODE_MAP`;
an opcode without a row marks none. -/
def zeroBits (opcode : BitVec 9) : BitVec 23 :=
  let n := opcode.toNat
  if n ∈ [0x00A, 0x00B, 0x020, 0x02B, 0x02C] then 0x7FFFFF#23                           -- Z
  else if n ∈ [0x000, 0x009] then 0x1C003F#23                                            -- A2M, A2ST
  else if n ∈ [0x001, 0x002, 0x006] then 0x3C003F#23                                     -- A2X, A2U
  else if n = 0x003 then 0x040000#23                                                     -- I12
  else if n ∈ [0x004, 0x007, 0x008] then 0x3C0000#23                                     -- PCI, A3T
  else if n ∈ [0x022, 0x023, 0x025] then 0x7C0FFF#23                                     -- A1D
  else if n ∈ [0x021, 0x024] then 0x7FF03F#23                                            -- A1S
  else if n = 0x026 then 0x03F000#23                                                     -- TST
  else if n = 0x027 then 0x7C0000#23                                                     -- A3S
  else if (0x043 ≤ n ∧ n ≤ 0x047) ∨ (0x04E ≤ n ∧ n ≤ 0x053) ∨ (0x06C ≤ n ∧ n ≤ 0x075) then 0x3C003F#23  -- A2U
  else if (0x040 ≤ n ∧ n ≤ 0x04D) ∨ (0x060 ≤ n ∧ n ≤ 0x06B) then 0x3C0000#23             -- A3U
  else 0#23                                                                              -- B23, X

/-- The operands of an instruction that runs by R200: its set, the registers it names, the registers it
reads. -/
def operands200 : Instr → Option (RegSet × List RegNum × List RegNum)
  | .and g d a b | .or g d a b | .xor g d a b | .be g d a b | .bs g d a b | .bc g d a b | .lsr g d a b
  | .lsl g d a b | .asr g d a b | .add g d a b | .sub g d a b | .umuli g d a b | .smuli g d a b
  | .mulq g d a b | .udivi g d a b | .sdivi g d a b | .divq g d a b | .urem g d a b =>
    some (g, [d, a, b], [a, b])
  | .ufmai g d a b | .sfmai g d a b | .macq g d a b => some (g, [d, a, b], [d, a, b])
  | .not g d a | .lnot g d a | .lbool g d a | .pcnt g d a | .bits g d a | .rev g d a | .revh g d a
  | .revl g d a | .ffs g d a | .rthl g d a | .rthh g d a | .rcpq g d a | .sqrtq g d a | .abs g d a
  | .neg g d a | .sxt g d a | .ufloor g d a | .sfloor g d a | .uceil g d a | .sceil g d a | .round g d a =>
    some (g, [d, a], [a])
  | _ => none

/-- The instructions that may raise `PendingAccess` (R251 no. 3): those that name a register and are not
refused. -/
def mayFindPending : Instr → Bool
  | .commit | .discard | .ent | .br _ | .ben _ | .bnen _ | .sig | .nop => false
  | .mvs _ | .sampr _ _ _ _ | .sampc _ _ _ _ | .tild _ | .tist _ | .pld _ | .pst _ | .tofs _ | .tofl _ | .tril _
  | .baryp _ => false
  | _ => true

/-- The instructions that may raise `UnwrittenRead` (R251 no. 4): those that read a register or a `T` flag and
are not refused. -/
def mayFindUnwritten : Instr → Bool
  | .ent => true
  | .mvi _ _ _ _ | .relpc _ _ _ | .emst _ => false
  | i => mayFindPending i

end Sys2Proof.Machine
end

