-- ==== Sys2Proof/Certificates/Slice0/Obligations.lean ====
section
/-! DEFINITION. Obligations.lean: the statements for the provers. "log <n>" is notes/assumptions/<n>.md.
`decode` and `encode` are those of the default `OPCODE_MAP` (R6, log 19), whose words the rules give. -/

open Sys2Proof Sys2Proof.Machine

/-! ## Encoding -/

/-- The decoder gives back every well-formed instruction from its word, with every operand at every value
(R81 to R104): with the default `OPCODE_MAP`, and with every legal one that has a word for it (R6, log 19; only
a branch's own operand form may have none). -/
def Obligations.DecodeOfEncode : Prop :=
  ∀ i : Instr, i.wellFormed = true →
    decode (encode i) = .ok i ∧ ∀ m : OpcodeMap, m.legal = true → m.encodes i = true →
      decodeBy m (encodeBy m i) = .ok i

/-- Every word that decodes is the one word of its instruction, and the instruction is well formed: with the
default `OPCODE_MAP`, and with every legal one (R6, log 19). -/
def Obligations.EncodeOfDecode : Prop :=
  ∀ (w : Word) (i : Instr),
    (decode w = .ok i → i.wellFormed = true ∧ encode i = w) ∧
    ∀ m : OpcodeMap, m.legal = true → decodeBy m w = .ok i →
      i.wellFormed = true ∧ m.encodes i = true ∧ encodeBy m i = w

/-- Example words of the instruction rules (R120, R123, R130, R156, R158, R191, R210, R240), one or more of each
group. They are words of the default `OPCODE_MAP`, whose codes and layouts are the spec's own decisions D3 to D8;
`OPCODE_MAP` is an argument of the model (R6, log 19). -/
def Obligations.ExampleWordsDecode : Prop :=
  decode 0x00401080#32 = .ok (.mov .global .slice 1#6 2#6) ∧
  decode 0x01C82FFD#32 = .ok (.mvi .global .signedInt 2#6 0xFFD#12) ∧
  decode 0x04A02040#32 = .ok (.st .slice .global 2#6 1#6) ∧
  decode 0x13100042#32 = .ok (.tst .slice false .slt 1#6 2#6) ∧
  decode 0x147FFFFB#32 = .ok (.br 0x7FFFFB#23) ∧
  decode 0x25803042#32 = .ok (.lsr .slice 3#6 1#6 2#6) ∧
  decode 0x30403042#32 = .ok (.add .global 3#6 1#6 2#6) ∧
  decode 0x40012345#32 = .ok (.tild 0x012345#23)

/-- Reserved and unassigned words (R104, R249; the spec's own decisions D7, D21, D49), with the default
`OPCODE_MAP` (log 19): an opcode without a row, a 1 in a bit that the format marks `0`, `ST Gd, Ss`, an
unassigned immediate type, an odd pair register and a stray second operand of a test name no instruction. -/
def Obligations.ReservedWordsAreIllegal : Prop :=
  (∀ w : Word, (0x00C ≤ (w.extractLsb' 23 9).toNat ∧ (w.extractLsb' 23 9).toNat < 0x020) ∨
      (0x02D ≤ (w.extractLsb' 23 9).toNat ∧ (w.extractLsb' 23 9).toNat < 0x040) ∨
      (0x054 ≤ (w.extractLsb' 23 9).toNat ∧ (w.extractLsb' 23 9).toNat < 0x060) ∨
      (0x076 ≤ (w.extractLsb' 23 9).toNat ∧ (w.extractLsb' 23 9).toNat < 0x080) ∨
      0x088 ≤ (w.extractLsb' 23 9).toNat →
    ∃ e, decode w = .error e) ∧
  (∀ w : Word, w.extractLsb' 0 23 &&& zeroBits (w.extractLsb' 23 9) ≠ 0#23 → ∃ e, decode w = .error e) ∧
  (∀ d rs : RegNum, ∃ e, decode (encode (.st .global .slice d rs)) = .error e) ∧
  (∀ w : Word, w.extractLsb' 23 9 = 0x003#9 → 5 ≤ (w.extractLsb' 19 3).toNat → ∃ e, decode w = .error e) ∧
  (∀ (g : RegSet) (t x y : RegNum), t.toNat % 2 = 1 →
    (∃ e, decode (encode (.sampr g t x y)) = .error e) ∧ ∃ e, decode (encode (.sampc g t x y)) = .error e) ∧
  (∀ (g : RegSet) (n : Bool) (c : Cond) (a b : RegNum), c = .zro ∨ c = .neg ∨ c = .cns → b ≠ 0#6 →
    ∃ e, decode (encode (.tst g n c a b)) = .error e)

/-! ## One step -/

/-- When the core has its turn, the task runs and `ip` lies in the image, a step fetches the image word at
`ip`, decodes it by the machine's `OPCODE_MAP` and runs the instruction (R58, R103, R253): an instruction's own
next state is the step's, a fault is taken (R252), a refusal ends the run (R12). -/
def Obligations.StepRunsDecodedInstruction : Prop :=
  ∀ (s : State) (e : List Move) (k : Nat) (w : Word) (i : Instr),
    s.run = .running → CoreMoves s e → s.image[k]? = some w →
    s.ip.toNat = s.imageBase.toNat + 4 * k → s.decode w = .ok i →
    step s = match exec i (s.setEnv e) with
      | .next t => .next t
      | .fault f => .next ((s.setEnv e).setRun (.faulted f))
      | .refused r => .refused r

/-- A fetch outside the image and an illegal word (R58, R104, R249; the spec's own decisions D7, D12): when the
core has its turn, the step takes `FetchFault(ip)` or `IllegalInstruction(ip, w)`, and nothing but `RUN` changes;
`rest` is what is left of the model's list of moves. -/
def Obligations.FetchAndDecodeFaults : Prop :=
  ∀ (s : State) (rest : List Move), s.run = .running → CoreMoves s rest →
    ((s.ip.toNat < s.imageBase.toNat ∨ s.imageBase.toNat + 4 * s.image.length ≤ s.ip.toNat) →
      step s = .next ((s.setEnv rest).setRun (.faulted (.fetchFault s.ip)))) ∧
    ∀ (k : Nat) (w : Word) (e : DecodeError), s.image[k]? = some w →
      s.ip.toNat = s.imageBase.toNat + 4 * k → s.decode w = .error e →
      step s = .next ((s.setEnv rest).setRun (.faulted (.illegalInstruction s.ip w)))

/-- A fault changes nothing (R252, the spec's own decision D24): when a turn of the core takes a fault, the
state after it is the state before it but for `RUN`. The core steps only when `RUN` is `Running` (R37, R253
step 1); that its turn then answers with the fault after a fault, and with the unchanged state otherwise, is
the model's choice (log 13, log 14); `rest` is what is left of the model's list of moves. -/
def Obligations.FaultChangesOnlyRunState : Prop :=
  ∀ (s : State) (rest : List Move), CoreMoves s rest →
    (∀ (t : State) (f : Fault), s.run = .running → step s = .next t → t.run = .faulted f →
      t = (s.setEnv rest).setRun (.faulted f)) ∧
    (s.run = .idle ∨ s.run = .suspended ∨ s.run = .completed ∨ s.run = .stopped →
      step s = .next (s.setEnv rest)) ∧
    ∀ f, s.run = .faulted f → step s = .fault f

/-- The whole transition relation of `RUN` (R263, the spec's own decision D25), each line with its event. -/
def Obligations.RunStateMovesAreListed : Prop :=
  ∀ s t : State, step s = .next t →
    t.run = s.run ∨
    ((s.run = .idle ∨ s.run = .completed ∨ s.run = .stopped ∨ ∃ f, s.run = .faulted f) ∧ t.run = .running ∧
      ∃ l, s.env.head? = some (.host (.start l))) ∨
    (s.run = .running ∧ t.run = .completed ∧ (s.env = [] ∨ s.env.head? = some .core) ∧
      s.params.sigHalts = true ∧ t.signal = true ∧ ∃ w, s.fetch = some w ∧ s.decode w = .ok .sig) ∨
    (s.run = .running ∧ (∃ f, t.run = .faulted f) ∧ (s.env = [] ∨ s.env.head? = some .core)) ∨
    (s.run = .running ∧ t.run = .suspended ∧ s.env.head? = some (.host .suspend)) ∨
    (s.run = .suspended ∧ t.run = .running ∧ s.env.head? = some (.host .resume)) ∨
    ((s.run = .running ∨ s.run = .suspended) ∧ t.run = .stopped ∧ s.env.head? = some (.host .stop))

/-- `SIGNAL` is set by `SIG` alone and cleared by a start alone (R262, the spec's own decision D23). -/
def Obligations.SignalChangesOnlyBySigOrStart : Prop :=
  ∀ s t : State, step s = .next t →
    t.signal = s.signal ∨
    (t.signal = true ∧ s.run = .running ∧ (s.env = [] ∨ s.env.head? = some .core) ∧
      ∃ w, s.fetch = some w ∧ s.decode w = .ok .sig) ∨
    (t.signal = false ∧ ∃ l, s.env.head? = some (.host (.start l)))

/-- The parameters of the machine, the number of slices, the image and `MEM_ADMIT` (R40, R57): no step
changes them, but for the image and `MEM_ADMIT` at a start (R259). -/
def Obligations.StepKeepsParametersAndImage : Prop :=
  ∀ s t : State, step s = .next t →
    t.params = s.params ∧ t.slices.length = s.slices.length ∧
    ((¬ ∃ l, s.env.head? = some (.host (.start l))) →
      t.imageBase = s.imageBase ∧ t.image = s.image ∧ t.memAdmit = s.memAdmit)

/-! ## Rules about all instructions -/

/-- The `T` flags (R30): only `TST`, for the enabled slices, and `MSKL` write them, and an instruction other
than `ENT`, `TMST`, `LDT` and `SEL` does the same whatever the `T` flags hold. -/
def Obligations.FlagsTouchedOnlyByNamedInstructions : Prop :=
  (∀ (i : Instr) (s t : State), exec i s = .next t →
    EachSlice (fun _ sl sl' =>
      match i with
      | .mskl _ => True
      | .tst _ _ _ _ _ => sl.en = false → sl'.t = sl.t ∧ sl'.tWritten = sl.tWritten
      | _ => sl'.t = sl.t ∧ sl'.tWritten = sl.tWritten) s t) ∧
  ∀ (i : Instr) (s s' : State), SameButT s s' →
    (match i with
      | .ent | .tmst _ | .ldt _ | .sel _ _ _ => False
      | _ => True) →
    match exec i s, exec i s' with
    | .next t, .next t' => SameButT t t'
    | .fault f, .fault f' => f = f'
    | .refused r, .refused r' => r = r'
    | _, _ => False

/-- The execution mask and the disabled slices (R23, R31, R65): only `ENT` and `ENM` write an enable bit, and a
disabled slice keeps its registers and its queue, and its `T` flag too but for `MSKL` (R154). -/
def Obligations.DisabledSliceIsUntouched : Prop :=
  ∀ (i : Instr) (s t : State), exec i s = .next t →
    EachSlice (fun _ sl sl' =>
      (match i with
        | .ent | .enm _ => True
        | _ => sl'.en = sl.en) ∧
      (sl.en = false → sl'.regs = sl.regs ∧ sl'.queue = sl.queue ∧
        match i with
        | .mskl _ => True
        | _ => sl'.t = sl.t ∧ sl'.tWritten = sl.tWritten)) s t

/-- `ip` (R29): every instruction but a branch, a `SIG` and a held `COMMIT` (R63) ends with `ip + 4`. -/
def Obligations.InstructionPointerAdvances : Prop :=
  ∀ (i : Instr) (s t : State), exec i s = .next t →
    match i with
    | .br _ | .ben _ | .bnen _ | .sig => True
    | .commit => t.ip = s.ip + 4#32 ∨
        (t.ip = s.ip ∧ ∃ u ∈ s.concernedUnits, ∃ r ∈ s.queueOf u, r.performed = false)
    | _ => t.ip = s.ip + 4#32

/-- What instructions leave alone (R35, R37, R40, R61, R62). No instruction writes memory: only a unit that
performs a store does; a `COMMIT` that is held sees one request of its units performed (log 11). Only `LD`,
`ST`, `COMMIT` and `DISCARD` touch a queue, only `SIG` changes `SIGNAL` or `RUN`, and no instruction changes the
parameters, the image or `MEM_ADMIT`. -/
def Obligations.InstructionsLeaveMachineAlone : Prop :=
  ∀ (i : Instr) (s t : State), exec i s = .next t →
    (t.params = s.params ∧ t.imageBase = s.imageBase ∧ t.image = s.image ∧ t.memAdmit = s.memAdmit ∧
      t.env = s.env) ∧
    (i ≠ .sig → t.signal = s.signal ∧ t.run = s.run) ∧
    ((i = .commit → ∀ u ∈ s.concernedUnits, ∀ r ∈ s.queueOf u, r.performed = true) →
      ∀ a, t.mem.readByte a = s.mem.readByte a) ∧
    match i with
    | .ld _ _ _ | .st _ _ _ _ | .commit | .discard => True
    | _ => t.gmau = s.gmau ∧ EachSlice (fun _ sl sl' => sl'.queue = sl.queue) s t

/-- Arithmetic never faults (R233, R256), and the register checks (R36, R39, R200, R253 step 5; the spec's own
decisions D40, D60) of every logic and mathematics instruction: it runs exactly when they pass and is never
refused; `PendingAccess` comes before `UnwrittenRead`, there is no other fault; and the record is that of the
lowest-numbered slice that fails. -/
def Obligations.RegisterChecksInOrder : Prop :=
  ∀ (i : Instr) (s : State) (g : RegSet) (named reads : List RegNum),
    operands200 i = some (g, named, reads) →
    ((∃ t, exec i s = .next t) ↔ RegsReady s g named reads) ∧
    ((∃ t, exec i s = .next t) ∨
      (∃ r, exec i s = .fault (.pendingAccess r)) ∨ ∃ r, exec i s = .fault (.unwrittenRead (.reg r))) ∧
    ((∃ r ∈ concernedRegs s g named, s.isPending r = true) →
      ∃ r ∈ concernedRegs s g named, s.isPending r = true ∧ exec i s = .fault (.pendingAccess r) ∧
        ∀ r' ∈ concernedRegs s g named, s.isPending r' = true →
          (ReadRef.reg r).sliceNo ≤ (ReadRef.reg r').sliceNo) ∧
    ((∀ r ∈ concernedRegs s g named, s.isPending r = false) →
      (∃ r ∈ concernedRegs s g reads, s.holdsValue (.reg r) = false) →
      ∃ r ∈ concernedRegs s g reads, s.holdsValue (.reg r) = false ∧
        exec i s = .fault (.unwrittenRead (.reg r)) ∧
        ∀ r' ∈ concernedRegs s g reads, s.holdsValue (.reg r') = false →
          (ReadRef.reg r).sliceNo ≤ (ReadRef.reg r').sliceNo)

/-- Which instruction may raise which fault (R251; the spec's own decision D24): the column "raised by" of the
table. `ST Gd, Ss`, which no word encodes (R90), answers `IllegalInstruction`. -/
def Obligations.FaultsComeFromListedInstructions : Prop :=
  ∀ (i : Instr) (s : State) (f : Fault), exec i s = .fault f →
    match f with
    | .fetchFault _ => False
    | .illegalInstruction _ _ => i.wellFormed = false
    | .pendingAccess _ => mayFindPending i = true
    | .unwrittenRead _ => mayFindUnwritten i = true
    | .globalIndexRange k => 63 < k ∧ ∃ dir d rs, i = .mvg dir d rs ∨ i = .mvge dir d rs
    | .misalignedAccess a => a.toNat % 4 ≠ 0 ∧ ((∃ g d rs, i = .ld g d rs) ∨ ∃ gd gs d rs, i = .st gd gs d rs)
    | .codeWrite a => s.inImage a = true ∧ ∃ gd gs d rs, i = .st gd gs d rs
    | .accessFault a => (a.toNat % 4 = 0 ∧ s.admits a = false) ∧
        ((∃ g d rs, i = .ld g d rs) ∨ ∃ gd gs d rs, i = .st gd gs d rs)
    | .queueOverflow u => (∃ depth, s.params.mauDepth = some depth ∧ depth ≤ (s.queueOf u).length) ∧
        ((∃ g d rs, i = .ld g d rs) ∨ ∃ gd gs d rs, i = .st gd gs d rs)
    | .pendingAtCompletion => i = .sig ∧ s.anyQueued = true

/-- The instructions the spec directs the model to refuse (R125, R127 to R129, R240 to R248): on every state
and operand the answer is the refusal. -/
def Obligations.RefusedInstructionsStop : Prop :=
  ∀ (s : State) (p : BitVec 23) (g : RegSet) (t x y : RegNum),
    exec (.mvs p) s = .refused .specialRegisterUnknown ∧
    exec (.sampr g t x y) s = .refused .textureUnitUnknown ∧
    exec (.sampc g t x y) s = .refused .textureUnitUnknown ∧
    exec (.tild p) s = .refused .rasterUnitUnknown ∧ exec (.tist p) s = .refused .rasterUnitUnknown ∧
    exec (.pld p) s = .refused .rasterUnitUnknown ∧ exec (.pst p) s = .refused .rasterUnitUnknown ∧
    exec (.tofs p) s = .refused .rasterUnitUnknown ∧ exec (.tofl p) s = .refused .rasterUnitUnknown ∧
    exec (.tril p) s = .refused .rasterUnitUnknown ∧ exec (.baryp p) s = .refused .rasterUnitUnknown

/-! ## Moves -/

/-- `MOV` in its four forms (R120), with its faults (R36, R39). `MOV Gd, Ss` takes the value of the lowest enabled
slice (R25). With no slice enabled it only advances `ip`, whatever `Gd` holds and also when `Gd` is pending: that
is the model's reading of R25 and R253 step 5 (log 16 and log 17, both DEDUCED; the spec's own decision D17). -/
def Obligations.MovResults : Prop :=
  ∀ (s : State) (d rs : RegNum),
    (∀ g : RegSet, RegsReady s g [d, rs] [rs] →
      ∃ t, exec (.mov g g d rs) s = .next t ∧ WritesReg s t g d fun _ rf v => v = rf.get rs) ∧
    (ListReady s (s.enabledIds.flatMap fun i => [.slice i d, .global rs])
        (s.enabledIds.map fun _ => .reg (.global rs)) →
      ∃ t, exec (.mov .slice .global d rs) s = .next t ∧
        WritesReg s t .slice d fun _ _ v => v = s.globals.get rs) ∧
    (s.enabledIds = [] → exec (.mov .global .slice d rs) s = .next (s.setIp (s.ip + 4#32))) ∧
    (∀ i sl, s.slices[i]? = some sl → sl.en = true → (∀ j, j < i → s.enabledAt j = false) →
      ListReady s (s.enabledIds.flatMap fun j => [.global d, .slice j rs]) [.reg (.slice i rs)] →
      ∃ t, exec (.mov .global .slice d rs) s = .next t ∧
        WritesReg s t .global d fun _ _ v => v = sl.regs.get rs) ∧
    (∀ g : RegSet, RegsFaultUnless (.mov g g d rs) s g [d, rs] [rs]) ∧
    FaultsUnless (.mov .slice .global d rs) s (s.enabledIds.flatMap fun i => [.slice i d, .global rs])
      (s.enabledIds.map fun _ => .reg (.global rs)) ∧
    FaultsUnless (.mov .global .slice d rs) s (s.enabledIds.flatMap fun j => [.global d, .slice j rs])
      ((s.enabledIds.take 1).map fun j => .reg (.slice j rs))

/-- `MVG` and `MVGE` from the Global set (R121, R122; the spec's own decision D44): slice `i` gets the `G`
register numbered `s + i`, or `s` plus the number of enabled slices below `i`. A failing register check faults
(R36, R39). -/
def Obligations.IndexedMovesFromGlobal : Prop :=
  ∀ (s : State) (d rs : RegNum) (off : Nat → Nat) (i : Instr),
    (i = .mvg .fromGlobal d rs ∧ off = fun k => k) ∨
    (i = .mvge .fromGlobal d rs ∧ off = fun k => ((List.range k).filter s.enabledAt).length) →
    ((∀ k ∈ s.enabledIds, rs.toNat + off k ≤ 63) →
      ListReady s (s.enabledIds.flatMap fun k => [.slice k d, .global (BitVec.ofNat 6 (rs.toNat + off k))])
        (s.enabledIds.map fun k => .reg (.global (BitVec.ofNat 6 (rs.toNat + off k)))) →
      ∃ t, exec i s = .next t ∧
        WritesReg s t .slice d fun k _ v => v = s.globals.get (BitVec.ofNat 6 (rs.toNat + off k))) ∧
    FaultsUnless i s (s.enabledIds.flatMap fun k => .slice k d :: globalRefs (rs.toNat + off k))
      (s.enabledIds.flatMap fun k => (globalRefs (rs.toNat + off k)).map ReadRef.reg)

/-- `MVG` and `MVGE` to the Global set (R121, R122; the spec's own decision D44): each enabled slice writes its
register to the `G` register of its number, and every other `G` register is as before. A failing register check
faults (R36, R39). -/
def Obligations.IndexedMovesToGlobal : Prop :=
  ∀ (s : State) (d rs : RegNum) (off : Nat → Nat) (i : Instr),
    (i = .mvg .toGlobal d rs ∧ off = fun k => k) ∨
    (i = .mvge .toGlobal d rs ∧ off = fun k => ((List.range k).filter s.enabledAt).length) →
    ((∀ k ∈ s.enabledIds, d.toNat + off k ≤ 63) →
      ListReady s (s.enabledIds.flatMap fun k => [.global (BitVec.ofNat 6 (d.toNat + off k)), .slice k rs])
        (s.enabledIds.map fun k => .reg (.slice k rs)) →
      ∃ t, exec i s = .next t ∧ t.ip = s.ip + 4#32 ∧ SameMachine s t ∧ t.gmau = s.gmau ∧
        t.slices = s.slices ∧
        (∀ k sl, s.slices[k]? = some sl → sl.en = true →
          t.globals.get (BitVec.ofNat 6 (d.toNat + off k)) = sl.regs.get rs ∧
          t.globals.holds (BitVec.ofNat 6 (d.toNat + off k)) = true) ∧
        ∀ n : RegNum, (∀ k ∈ s.enabledIds, n.toNat ≠ d.toNat + off k) →
          t.globals.get n = s.globals.get n ∧ t.globals.holds n = s.globals.holds n) ∧
    FaultsUnless i s (s.enabledIds.flatMap fun k => globalRefs (d.toNat + off k) ++ [.slice k rs])
      (s.enabledIds.map fun k => .reg (.slice k rs))

/-- `GlobalIndexRange` (R121, R122, R253 step 6; the spec's own decisions D44, D60): when the register checks
pass and a computed `G` number of an enabled slice is above 63, `MVG` and `MVGE` fault with the number of the
lowest-numbered such slice. -/
def Obligations.IndexedMovesOutOfRange : Prop :=
  ∀ (s : State) (d rs : RegNum) (off : Nat → Nat) (dir : MoveDir) (i : Instr) (base k : Nat),
    (i = .mvg dir d rs ∧ off = fun k => k) ∨
    (i = .mvge dir d rs ∧ off = fun k => ((List.range k).filter s.enabledAt).length) →
    (match dir with
      | .fromGlobal => base = rs.toNat ∧
          ListReady s (s.enabledIds.flatMap fun k => .slice k d :: globalRefs (base + off k))
            (s.enabledIds.flatMap fun k => (globalRefs (base + off k)).map ReadRef.reg)
      | .toGlobal => base = d.toNat ∧
          ListReady s (s.enabledIds.flatMap fun k => globalRefs (base + off k) ++ [.slice k rs])
            (s.enabledIds.map fun k => .reg (.slice k rs))) →
    s.enabledAt k = true → 63 < base + off k → (∀ j, j < k → s.enabledAt j = true → base + off j ≤ 63) →
    exec i s = .fault (.globalIndexRange (base + off k))

/-- `MVI` (R101, R123) with every immediate type: an unsigned or signed 12-bit integer, or a 12-bit signed
number with 6, 0 or 10 fractional bits brought to `QFRAC` fractional bits without loss. A pending `Rd` faults
(R36). -/
def Obligations.MviResults : Prop :=
  ∀ (s : State) (g : RegSet) (ty : ImmType) (d : RegNum) (imm : BitVec 12),
    (LegalQfrac s → RegsReady s g [d] [] →
      ∃ t, exec (.mvi g ty d imm) s = .next t ∧ WritesReg s t g d fun _ _ v =>
        match ty with
        | .unsignedInt => v.toNat = imm.toNat
        | .signedInt => v.toInt = imm.toInt
        | .mixedFixed => v.toInt * 2 ^ 6 = imm.toInt * 2 ^ s.params.qfrac
        | .wholeFixed => v.toInt = imm.toInt * 2 ^ s.params.qfrac
        | .fractionFixed => v.toInt * 2 ^ 10 = imm.toInt * 2 ^ s.params.qfrac) ∧
    RegsFaultUnless (.mvi g ty d imm) s g [d] []

/-- `RELPC` (R102, R124; the spec's own decision D45): the address of the instruction plus the signed byte
offset, modulo 2^32. A pending `Rd` faults (R36). -/
def Obligations.RelpcResult : Prop :=
  ∀ (s : State) (g : RegSet) (d : RegNum) (imm : BitVec 12),
    (RegsReady s g [d] [] →
      ∃ t, exec (.relpc g d imm) s = .next t ∧
        WritesReg s t g d fun _ _ v => v = BitVec.ofInt 32 (s.ip.toNat + imm.toInt)) ∧
    RegsFaultUnless (.relpc g d imm) s g [d] []

/-! ## Memory -/

/-- `LD` (R61, R126): one load, with the address captured, joins the queue of each enabled slice's SMAU or of
the GMAU, and its destination is pending from then on (R36). A failing register check faults (R36, R39, R253
step 5), before any address check. -/
def Obligations.LdQueuesLoads : Prop :=
  ∀ (s : State) (d rs : RegNum),
    (RegsReady s .slice [d, rs] [rs] → (∀ i ∈ s.enabledIds, LoadAddress s ((s.sliceRegs i).get rs)) →
      QueueRoom s (s.enabledIds.map .smau) →
      ∃ t, exec (.ld .slice d rs) s = .next t ∧ t.ip = s.ip + 4#32 ∧ SameMachine s t ∧
        t.globals = s.globals ∧ t.gmau = s.gmau ∧
        EachSlice (fun _ sl sl' => OnlyQueue sl sl' ∧
          sl'.queue = if sl.en then sl.queue ++ [.load d (sl.regs.get rs) none] else sl.queue) s t ∧
        ∀ i ∈ s.enabledIds, t.isPending (.slice i d) = true) ∧
    (RegsReady s .global [d, rs] [rs] → LoadAddress s (s.globals.get rs) → QueueRoom s [.gmau] →
      ∃ t, exec (.ld .global d rs) s = .next t ∧ t.ip = s.ip + 4#32 ∧ SameMachine s t ∧
        t.globals = s.globals ∧ t.slices = s.slices ∧
        t.gmau = s.gmau ++ [.load d (s.globals.get rs) none] ∧ t.isPending (.global d) = true) ∧
    ∀ g : RegSet, RegsFaultUnless (.ld g d rs) s g [d, rs] [rs]

/-- `ST` (R61, R130) in its three forms: one store, with address and data captured, joins the queue of each
enabled slice's SMAU or of the GMAU. No byte of memory changes until a unit performs it. A failing register
check faults (R36, R39, R253 step 5), before any address check. -/
def Obligations.StQueuesStores : Prop :=
  ∀ (s : State) (d rs : RegNum),
    (∀ gs : RegSet,
      ListReady s (s.enabledIds.flatMap fun i => [.slice i d, regRef gs i rs])
        (s.enabledIds.flatMap fun i => [.reg (.slice i d), .reg (regRef gs i rs)]) →
      (∀ i ∈ s.enabledIds, StoreAddress s ((s.sliceRegs i).get d)) → QueueRoom s (s.enabledIds.map .smau) →
      ∃ t, exec (.st .slice gs d rs) s = .next t ∧ t.ip = s.ip + 4#32 ∧ SameMachine s t ∧
        t.globals = s.globals ∧ t.gmau = s.gmau ∧
        EachSlice (fun i sl sl' => OnlyQueue sl sl' ∧
          sl'.queue = if sl.en then sl.queue ++ [.store (sl.regs.get d) (s.readReg gs i rs) false]
            else sl.queue) s t) ∧
    (RegsReady s .global [d, rs] [d, rs] → StoreAddress s (s.globals.get d) → QueueRoom s [.gmau] →
      ∃ t, exec (.st .global .global d rs) s = .next t ∧ t.ip = s.ip + 4#32 ∧ SameMachine s t ∧
        t.globals = s.globals ∧ t.slices = s.slices ∧
        t.gmau = s.gmau ++ [.store (s.globals.get d) (s.globals.get rs) false]) ∧
    (∀ gs : RegSet,
      FaultsUnless (.st .slice gs d rs) s (s.enabledIds.flatMap fun i => [.slice i d, regRef gs i rs])
        (s.enabledIds.flatMap fun i => [.reg (.slice i d), .reg (regRef gs i rs)])) ∧
    RegsFaultUnless (.st .global .global d rs) s .global [d, rs] [d, rs]

/-- The address checks of `LD` and `ST`, and `QueueOverflow` (R54, R56, R57, R66, R253 steps 7 and 8; the spec's
own decisions D11, D12, D13, D52, D60). Slice forms: the slices in ascending order, and for the first address
that fails `MisalignedAccess`, then `AccessFault`, then (`ST`) `CodeWrite`; then the first full queue. All-global
forms: the same for the one address and the GMAU. -/
def Obligations.AddressFaultsInOrder : Prop :=
  (∀ (s : State) (d rs : RegNum) (k : Nat) (sl : Slice),
    s.slices[k]? = some sl → sl.en = true →
    (RegsReady s .slice [d, rs] [rs] →
      (∀ j ∈ s.enabledIds, j < k → LoadAddress s ((s.sliceRegs j).get rs)) →
      ((sl.regs.get rs).toNat % 4 ≠ 0 →
        exec (.ld .slice d rs) s = .fault (.misalignedAccess (sl.regs.get rs))) ∧
      ((sl.regs.get rs).toNat % 4 = 0 → s.admits (sl.regs.get rs) = false →
        exec (.ld .slice d rs) s = .fault (.accessFault (sl.regs.get rs))) ∧
      ((∀ j ∈ s.enabledIds, LoadAddress s ((s.sliceRegs j).get rs)) → ∀ depth, s.params.mauDepth = some depth →
        depth ≤ sl.queue.length → (∀ j ∈ s.enabledIds, j < k → (s.queueOf (.smau j)).length < depth) →
        exec (.ld .slice d rs) s = .fault (.queueOverflow (.smau k)))) ∧
    ∀ gs : RegSet,
      ListReady s (s.enabledIds.flatMap fun i => [.slice i d, regRef gs i rs])
        (s.enabledIds.flatMap fun i => [.reg (.slice i d), .reg (regRef gs i rs)]) →
      (∀ j ∈ s.enabledIds, j < k → StoreAddress s ((s.sliceRegs j).get d)) →
      ((sl.regs.get d).toNat % 4 ≠ 0 →
        exec (.st .slice gs d rs) s = .fault (.misalignedAccess (sl.regs.get d))) ∧
      ((sl.regs.get d).toNat % 4 = 0 → s.admits (sl.regs.get d) = false →
        exec (.st .slice gs d rs) s = .fault (.accessFault (sl.regs.get d))) ∧
      (LoadAddress s (sl.regs.get d) → s.inImage (sl.regs.get d) = true →
        exec (.st .slice gs d rs) s = .fault (.codeWrite (sl.regs.get d))) ∧
      ((∀ j ∈ s.enabledIds, StoreAddress s ((s.sliceRegs j).get d)) → ∀ depth, s.params.mauDepth = some depth →
        depth ≤ sl.queue.length → (∀ j ∈ s.enabledIds, j < k → (s.queueOf (.smau j)).length < depth) →
        exec (.st .slice gs d rs) s = .fault (.queueOverflow (.smau k)))) ∧
  ∀ (s : State) (d rs : RegNum),
    (RegsReady s .global [d, rs] [rs] →
      ((s.globals.get rs).toNat % 4 ≠ 0 →
        exec (.ld .global d rs) s = .fault (.misalignedAccess (s.globals.get rs))) ∧
      ((s.globals.get rs).toNat % 4 = 0 → s.admits (s.globals.get rs) = false →
        exec (.ld .global d rs) s = .fault (.accessFault (s.globals.get rs))) ∧
      (LoadAddress s (s.globals.get rs) → ∀ depth, s.params.mauDepth = some depth → depth ≤ s.gmau.length →
        exec (.ld .global d rs) s = .fault (.queueOverflow .gmau))) ∧
    (RegsReady s .global [d, rs] [d, rs] →
      ((s.globals.get d).toNat % 4 ≠ 0 →
        exec (.st .global .global d rs) s = .fault (.misalignedAccess (s.globals.get d))) ∧
      ((s.globals.get d).toNat % 4 = 0 → s.admits (s.globals.get d) = false →
        exec (.st .global .global d rs) s = .fault (.accessFault (s.globals.get d))) ∧
      (LoadAddress s (s.globals.get d) → s.inImage (s.globals.get d) = true →
        exec (.st .global .global d rs) s = .fault (.codeWrite (s.globals.get d))) ∧
      (StoreAddress s (s.globals.get d) → ∀ depth, s.params.mauDepth = some depth → depth ≤ s.gmau.length →
        exec (.st .global .global d rs) s = .fault (.queueOverflow .gmau)))

/-- `COMMIT` once every request of the GMAU and of the SMAUs of the enabled slices is performed (R63, R65,
R131): the loaded data reaches the registers, those queues are empty, nothing is pending there; a disabled
slice is left alone. -/
def Obligations.CommitDelivers : Prop :=
  ∀ s : State, (∀ u ∈ s.concernedUnits, ∀ r ∈ s.queueOf u, r.performed = true) →
    (destsOf s.gmau).Nodup → (∀ sl ∈ s.slices, (destsOf sl.queue).Nodup) →
    ∃ t, exec .commit s = .next t ∧ t.ip = s.ip + 4#32 ∧ SameMachine s t ∧ t.gmau = [] ∧
      Delivered s.gmau s.globals t.globals ∧
      EachSlice (fun _ sl sl' =>
        if sl.en = true then
          sl'.queue = [] ∧ sl'.t = sl.t ∧ sl'.tWritten = sl.tWritten ∧ sl'.en = sl.en ∧
          Delivered sl.queue sl.regs sl'.regs
        else sl' = sl) s t ∧
      ∀ n : RegNum, t.isPending (.global n) = false ∧ ∀ i ∈ s.enabledIds, t.isPending (.slice i n) = false

/-- A held `COMMIT` (R63, R292): the core stays at it, and one unperformed request of a concerned unit is
performed. That the turn of the core lets a unit perform one is the model's choice (log 11). -/
def Obligations.HeldCommitPerformsOneRequest : Prop :=
  ∀ s : State, s.mem.wf = true → (∃ u ∈ s.concernedUnits, ∃ r ∈ s.queueOf u, r.performed = false) →
    ∃ t u k r, exec .commit s = .next t ∧ u ∈ s.concernedUnits ∧ (s.queueOf u)[k]? = some r ∧
      r.performed = false ∧ PerformsRequest s t u k r ∧
      (s.params.mauOrder = .fifo → ∀ r' ∈ (s.queueOf u).take k, r'.performed = true)

/-- `DISCARD` (R65, R132): the queues of the GMAU and of the enabled slices are emptied, performed or not; no
register is written, no byte of memory changes, nothing is waited for and no fault is raised. -/
def Obligations.DiscardClearsQueues : Prop :=
  encode .discard = 0x05800000#32 ∧ decode 0x05800000#32 = .ok .discard ∧
  ∀ s : State, ∃ t, exec .discard s = .next t ∧ t.ip = s.ip + 4#32 ∧ SameMachine s t ∧ t.gmau = [] ∧
    t.globals = s.globals ∧
    EachSlice (fun _ sl sl' => OnlyQueue sl sl' ∧ sl'.queue = if sl.en then [] else sl.queue) s t ∧
    (∀ n : RegNum, t.isPending (.global n) = false ∧ ∀ i ∈ s.enabledIds, t.isPending (.slice i n) = false) ∧
    (s.gmau = [] → (∀ i ∈ s.enabledIds, s.queueOf (.smau i) = []) → t = s.setIp (s.ip + 4#32))

/-- A unit's own move (R55, R62, R263; the spec's own decisions D14, D59): in any run state it may perform an
unperformed request, with `fifo` only the oldest; a load takes the word in memory or in the image, a store
writes its word, and nothing else changes. Progress (R292): from every state, a request that is unperformed is
performed after finitely many steps, unless its queue is emptied or the run ends before. How the model brings that
about is its own choice (log 36, DESIGN CHOICE): with no moves listed and a request unperformed, the step is that of
some list of moves of the core and the units, which has a move for every request that may be performed. -/
def Obligations.UnitPerformsRequest : Prop :=
  (∀ (s : State) (u : MauUnit) (k : Nat) (r : Request) (rest : List Move), s.mem.wf = true →
    s.env = .mau u k :: rest → (s.queueOf u)[k]? = some r → r.performed = false →
    (s.params.mauOrder = .fifo → ∀ r' ∈ (s.queueOf u).take k, r'.performed = true) →
    ∃ t, step s = .next t ∧ PerformsRequest s t u k r ∧ t.env = rest) ∧
  (∀ (s : State) (u : MauUnit) (k : Nat) (r : Request), (s.queueOf u)[k]? = some r → r.performed = false →
    ∃ n t, steps n s = .next t ∧
      (t.queueOf u = [] ∨ (∃ r', (t.queueOf u)[k]? = some r' ∧ r'.performed = true) ∨
        (∃ f, t.run = .faulted f) ∨ ∃ x, step t = .refused x)) ∧
  ∀ s : State, s.env = [] → (∃ u, ∃ r ∈ s.queueOf u, r.performed = false) →
    ∃ l n, l ≠ [] ∧ step s = step ((s.setEnv l).setFrees n) ∧ (∀ m ∈ l, m = .core ∨ ∃ u k, m = .mau u k) ∧
      ∀ (u : MauUnit) (k : Nat) (r : Request), (s.queueOf u)[k]? = some r → r.performed = false →
        (s.params.mauOrder = .fifo → ∀ r' ∈ (s.queueOf u).take k, r'.performed = true) → .mau u k ∈ l

/-- No request is performed twice, and under `fifo` none before an older one (R62, the spec's own decision D14).
That the model's list of moves may name such a request at all, and that such a move of a unit is then a step that
leaves everything but the list as it was, is the model's choice (log 10, DESIGN CHOICE). -/
def Obligations.UnitOrderIsRespected : Prop :=
  ∀ (s : State) (u : MauUnit) (k : Nat) (rest : List Move), s.env = .mau u k :: rest →
    ((s.queueOf u)[k]? = none ∨ (∃ r, (s.queueOf u)[k]? = some r ∧ r.performed = true) ∨
      (s.params.mauOrder = .fifo ∧ ∃ r' ∈ (s.queueOf u).take k, r'.performed = false)) →
    step s = .next (s.setEnv rest)

/-! ## Control flow and conditional execution -/

/-- `ENT` in both modes (R150, the spec's own decision D19), with its fault for an unwritten `T` flag. -/
def Obligations.EntResults : Prop :=
  ∀ s : State,
    ((s.params.entMode = .replace → ∀ i ∈ s.allIds, s.holdsValue (.tFlag i) = true) →
      (s.params.entMode = .narrow → ∀ i ∈ s.enabledIds, s.holdsValue (.tFlag i) = true) →
      ∃ t, exec .ent s = .next t ∧ t.ip = s.ip + 4#32 ∧ SameMachine s t ∧ t.globals = s.globals ∧
        t.gmau = s.gmau ∧
        EachSlice (fun _ sl sl' => OnlyEn sl sl' ∧
          sl'.en = match s.params.entMode with
            | .replace => sl.t
            | .narrow => sl.en && sl.t) s t) ∧
    ∀ i, (s.params.entMode = .replace → i ∈ s.allIds) → (s.params.entMode = .narrow → i ∈ s.enabledIds) →
      s.holdsValue (.tFlag i) = false →
      (∀ j, j < i → s.holdsValue (.tFlag j) = true ∨ (s.params.entMode = .narrow ∧ s.enabledAt j = false)) →
      exec .ent s = .fault (.unwrittenRead (.tFlag i))

/-- `ENM` (R151) whole: its word, its effect on the execution mask, its faults. -/
def Obligations.EnmSetsExecutionMask : Prop :=
  (∀ rs : RegNum, (encode (.enm rs)).extractLsb' 23 9 = 0x021#9 ∧
    (encode (.enm rs)).extractLsb' 12 11 = 0#11 ∧ (encode (.enm rs)).extractLsb' 6 6 = rs ∧
    (encode (.enm rs)).extractLsb' 0 6 = 0#6) ∧
  encode (.enm 3#6) = 0x108000C0#32 ∧
  ∀ (s : State) (rs : RegNum),
    (RegsReady s .global [rs] [rs] →
      ∃ t, exec (.enm rs) s = .next t ∧ t.ip = s.ip + 4#32 ∧ SameMachine s t ∧ t.globals = s.globals ∧
        t.gmau = s.gmau ∧
        EachSlice (fun i sl sl' => OnlyEn sl sl' ∧ sl'.en = (s.globals.get rs).getLsbD i) s t) ∧
    (¬ RegsReady s .global [rs] [rs] →
      ∃ f, exec (.enm rs) s = .fault f ∧ RegsFault s .global [rs] [rs] f)

/-- `TMST` (R152): its word, the mask of the `T` flags of every slice, its faults. -/
def Obligations.TmstStoresFlagMask : Prop :=
  (∀ d : RegNum, (encode (.tmst d)).extractLsb' 23 9 = 0x022#9 ∧
    (encode (.tmst d)).extractLsb' 18 5 = 0#5 ∧ (encode (.tmst d)).extractLsb' 12 6 = d ∧
    (encode (.tmst d)).extractLsb' 0 12 = 0#12) ∧
  encode (.tmst 1#6) = 0x11001000#32 ∧
  ∀ (s : State) (d : RegNum),
    (ListReady s [.global d] (s.allIds.map ReadRef.tFlag) →
      ∃ t, exec (.tmst d) s = .next t ∧
        WritesReg s t .global d fun _ _ v => ∀ i, i < 32 → v.getLsbD i = s.flagT i) ∧
    (¬ ListReady s [.global d] (s.allIds.map ReadRef.tFlag) →
      ∃ f, exec (.tmst d) s = .fault f ∧ ListFault s [.global d] (s.allIds.map ReadRef.tFlag) f)

/-- `EMST` (R153) whole: its word, the execution mask in a register, its fault, and that `ENM` of the register
then leaves the mask as it was. -/
def Obligations.EmstStoresExecutionMask : Prop :=
  (∀ d : RegNum, (encode (.emst d)).extractLsb' 23 9 = 0x023#9 ∧
    (encode (.emst d)).extractLsb' 18 5 = 0#5 ∧ (encode (.emst d)).extractLsb' 12 6 = d ∧
    (encode (.emst d)).extractLsb' 0 12 = 0#12) ∧
  encode (.emst 0#6) = 0x11800000#32 ∧
  ∀ (s : State) (d : RegNum),
    (RegsReady s .global [d] [] →
      ∃ t, exec (.emst d) s = .next t ∧
        (WritesReg s t .global d fun _ _ v => ∀ i, i < 32 → v.getLsbD i = s.enabledAt i) ∧
        (s.slices.length ≤ 32 → ∃ t', exec (.enm d) t = .next t' ∧ t'.slices = s.slices)) ∧
    (¬ RegsReady s .global [d] [] → exec (.emst d) s = .fault (.pendingAccess (.global d)))

/-- `MSKL` (R154) whole: its word, the `T` flag of every slice from a mask, its faults, and that no other
instruction writes the `T` flag of a disabled slice. -/
def Obligations.MsklLoadsFlags : Prop :=
  (∀ rs : RegNum, (encode (.mskl rs)).extractLsb' 23 9 = 0x024#9 ∧
    (encode (.mskl rs)).extractLsb' 12 11 = 0#11 ∧ (encode (.mskl rs)).extractLsb' 6 6 = rs ∧
    (encode (.mskl rs)).extractLsb' 0 6 = 0#6) ∧
  encode (.mskl 3#6) = 0x120000C0#32 ∧
  (∀ (i : Instr) (s t : State), (∀ rs, i ≠ .mskl rs) → exec i s = .next t →
    EachSlice (fun _ sl sl' => sl.en = false → sl'.t = sl.t ∧ sl'.tWritten = sl.tWritten) s t) ∧
  ∀ (s : State) (rs : RegNum),
    (RegsReady s .global [rs] [rs] →
      ∃ t, exec (.mskl rs) s = .next t ∧ t.ip = s.ip + 4#32 ∧ SameMachine s t ∧ t.globals = s.globals ∧
        t.gmau = s.gmau ∧
        EachSlice (fun i sl sl' => OnlyT sl sl' ∧ sl'.t = (s.globals.get rs).getLsbD i ∧
          sl'.tWritten = true) s t) ∧
    (¬ RegsReady s .global [rs] [rs] →
      ∃ f, exec (.mskl rs) s = .fault f ∧ RegsFault s .global [rs] [rs] f)

/-- `LDT` (R155) whole: its word, 0 or 1 in a register of each enabled slice, its faults. -/
def Obligations.LdtLoadsLogicalBoolean : Prop :=
  (∀ d : RegNum, (encode (.ldt d)).extractLsb' 23 9 = 0x025#9 ∧
    (encode (.ldt d)).extractLsb' 18 5 = 0#5 ∧ (encode (.ldt d)).extractLsb' 12 6 = d ∧
    (encode (.ldt d)).extractLsb' 0 12 = 0#12) ∧
  encode (.ldt 5#6) = 0x12805000#32 ∧
  ∀ (s : State) (d : RegNum),
    (ListReady s (concernedRegs s .slice [d]) (s.enabledIds.map ReadRef.tFlag) →
      ∃ t, exec (.ldt d) s = .next t ∧
        WritesReg s t .slice d fun i _ v => v = if s.flagT i then 1#32 else 0#32) ∧
    (¬ ListReady s (concernedRegs s .slice [d]) (s.enabledIds.map ReadRef.tFlag) →
      ∃ f, exec (.ldt d) s = .fault f ∧
        ListFault s (concernedRegs s .slice [d]) (s.enabledIds.map ReadRef.tFlag) f)

/-- `SEL` (R157): the register the `T` flag chooses; the other one is named but not read. A failing check faults
(R36, R39). -/
def Obligations.SelResult : Prop :=
  ∀ (s : State) (d a b : RegNum),
    (ListReady s (concernedRegs s .slice [d, a, b])
        (s.enabledIds.flatMap fun i => [.tFlag i, .reg (.slice i (if s.flagT i then a else b))]) →
      ∃ t, exec (.sel d a b) s = .next t ∧
        WritesReg s t .slice d fun i rf v => v = if s.flagT i then rf.get a else rf.get b) ∧
    FaultsUnless (.sel d a b) s (concernedRegs s .slice [d, a, b])
      (s.enabledIds.flatMap fun i => [.tFlag i, .reg (.slice i (if s.flagT i then a else b))])

/-- The condition codes (R163) whole: the code of each condition, how many registers it takes, and what it
says of the values `A` and `B` and the execution mask. -/
def Obligations.ConditionCodeTable : Prop :=
  (condOfCode 0#3 = .zro ∧ condOfCode 1#3 = .equ ∧ condOfCode 2#3 = .ult ∧ condOfCode 3#3 = .ugt ∧
    condOfCode 4#3 = .slt ∧ condOfCode 5#3 = .sgt ∧ condOfCode 6#3 = .neg ∧ condOfCode 7#3 = .cns) ∧
  (∀ c : Cond, condOfCode (codeOfCond c) = c ∧ (c.takesTwo = false ↔ c = .zro ∨ c = .neg ∨ c = .cns)) ∧
  ∀ (s : State) (c : Cond) (A B : Word), condHolds c A B s.execMask = true ↔ CondMeaning s c A B

/-- `TST` (R156, the spec's own decision D21): the `T` flag of each enabled slice gets the condition's value,
negated in the `!` forms; a disabled slice is left alone. A failing check faults (R36, R39). -/
def Obligations.TstResult : Prop :=
  ∀ (s : State) (g : RegSet) (negated : Bool) (c : Cond) (a b : RegNum),
    (ListReady s (s.enabledIds.flatMap fun i => (if c.takesTwo then [a, b] else [a]).map (regRef g i))
        (s.enabledIds.flatMap fun i => (if c.takesTwo then [a, b] else [a]).map fun n => .reg (regRef g i n)) →
      ∃ t, exec (.tst g negated c a b) s = .next t ∧ t.ip = s.ip + 4#32 ∧ SameMachine s t ∧
        t.globals = s.globals ∧ t.gmau = s.gmau ∧
        EachSlice (fun i sl sl' => OnlyT sl sl' ∧
          if sl.en = true then
            sl'.tWritten = true ∧
            (sl'.t = true ↔ (CondMeaning s c (s.readReg g i a) (s.readReg g i b) ↔ negated = false))
          else sl' = sl) s t) ∧
    FaultsUnless (.tst g negated c a b) s
      (s.enabledIds.flatMap fun i => (if c.takesTwo then [a, b] else [a]).map (regRef g i))
      (s.enabledIds.flatMap fun i => (if c.takesTwo then [a, b] else [a]).map fun n => .reg (regRef g i n))

/-- `BR`, `BEN` and `BNEN` (R102, R158 to R160; the spec's own decision D22): the target is the address of the
branch plus four times the signed offset, modulo 2^32, or that of the operand form which `OPCODE_MAP` gives the
branch (R6, log 19); nothing but `ip` changes. The bound on the number of slices is that of R7. -/
def Obligations.BranchResults : Prop :=
  ∀ (s : State) (off : BitVec 23), s.slices.length ≤ 32 →
    (∃ a, BranchTargetIs s .br off a ∧ exec (.br off) s = .next (s.setIp a)) ∧
    ((∃ i, s.enabledAt i = true) →
      (∃ a, BranchTargetIs s .ben off a ∧ exec (.ben off) s = .next (s.setIp a)) ∧
      exec (.bnen off) s = .next (s.setIp (s.ip + 4#32))) ∧
    ((∀ i, s.enabledAt i = false) →
      exec (.ben off) s = .next (s.setIp (s.ip + 4#32)) ∧
      ∃ a, BranchTargetIs s .bnen off a ∧ exec (.bnen off) s = .next (s.setIp a))

/-- `SIG` (R161; the spec's own decisions D23, D53): with every queue empty it sets `SIGNAL`, and ends the task
with `ip` at the `SIG`, or goes on; with a request queued anywhere it faults. -/
def Obligations.SigResults : Prop :=
  ∀ s : State,
    (s.gmau = [] → (∀ sl ∈ s.slices, sl.queue = []) →
      (s.params.sigHalts = true → exec .sig s = .next ((s.setSignal true).setRun .completed)) ∧
      (s.params.sigHalts = false → exec .sig s = .next ((s.setSignal true).setIp (s.ip + 4#32)))) ∧
    ((s.gmau ≠ [] ∨ ∃ sl ∈ s.slices, sl.queue ≠ []) → exec .sig s = .fault .pendingAtCompletion)

/-- `NOP` (R162) whole: its word, and that it changes nothing but `ip`, in every state. -/
def Obligations.NopDoesNothing : Prop :=
  encode .nop = 0x16000000#32 ∧ decode 0x16000000#32 = .ok .nop ∧
  decode 0#32 = .ok (.mov .slice .slice 0#6 0#6) ∧
  ∀ s : State, exec .nop s = .next (s.setIp (s.ip + 4#32))

/-! ## Logic -/

/-- `AND` and `OR` (R180, R181) whole: their words, their values on either set, their faults. -/
def Obligations.AndOrResults : Prop :=
  (∀ (g : RegSet) (d a b : RegNum) (i : Instr) (op : BitVec 9),
    (i = .and g d a b ∧ op = 0x040#9) ∨ (i = .or g d a b ∧ op = 0x041#9) →
    (encode i).extractLsb' 23 9 = op ∧ (encode i).extractLsb' 22 1 = bitOfSet g ∧
    (encode i).extractLsb' 18 4 = 0#4 ∧ (encode i).extractLsb' 12 6 = d ∧ (encode i).extractLsb' 6 6 = a ∧
    (encode i).extractLsb' 0 6 = b) ∧
  (encode (.and .slice 3#6 1#6 2#6) = 0x20003042#32 ∧ encode (.and .global 3#6 1#6 2#6) = 0x20403042#32 ∧
    encode (.or .slice 3#6 1#6 2#6) = 0x20803042#32) ∧
  ∀ (s : State) (g : RegSet) (d a b : RegNum),
    (RegsReady s g [d, a, b] [a, b] →
      (∃ t, exec (.and g d a b) s = .next t ∧ WritesReg s t g d fun _ rf v =>
        ∀ k, k < 32 → v.getLsbD k = ((rf.get a).getLsbD k && (rf.get b).getLsbD k)) ∧
      ∃ t, exec (.or g d a b) s = .next t ∧ WritesReg s t g d fun _ rf v =>
        ∀ k, k < 32 → v.getLsbD k = ((rf.get a).getLsbD k || (rf.get b).getLsbD k)) ∧
    (¬ RegsReady s g [d, a, b] [a, b] →
      (∃ f, exec (.and g d a b) s = .fault f ∧ RegsFault s g [d, a, b] [a, b] f) ∧
      ∃ f, exec (.or g d a b) s = .fault f ∧ RegsFault s g [d, a, b] [a, b] f)

/-- `XOR`, `NOT` and `LNOT` (R182 to R184; the spec's own decisions D35, D56). -/
def Obligations.XorNotLnotResults : Prop :=
  ∀ (s : State) (g : RegSet) (d a b : RegNum),
    (RegsReady s g [d, a, b] [a, b] →
      ∃ t, exec (.xor g d a b) s = .next t ∧ WritesReg s t g d fun _ rf v =>
        ∀ k, k < 32 → v.getLsbD k = ((rf.get a).getLsbD k != (rf.get b).getLsbD k)) ∧
    (RegsReady s g [d, a] [a] →
      (∃ t, exec (.not g d a) s = .next t ∧ WritesReg s t g d fun _ rf v =>
        ∀ k, k < 32 → v.getLsbD k = !(rf.get a).getLsbD k) ∧
      ∃ t, exec (.lnot g d a) s = .next t ∧ WritesReg s t g d fun _ rf v =>
        (rf.get a = 0#32 → v = 1#32) ∧ (rf.get a ≠ 0#32 → v = 0#32))

/-- `LBOOL` and `PCNT` (R185, R186) whole: their words, their values on either set, their faults. -/
def Obligations.LboolPcntResults : Prop :=
  (∀ (g : RegSet) (d a : RegNum) (i : Instr) (op : BitVec 9),
    (i = .lbool g d a ∧ op = 0x045#9) ∨ (i = .pcnt g d a ∧ op = 0x046#9) →
    (encode i).extractLsb' 23 9 = op ∧ (encode i).extractLsb' 22 1 = bitOfSet g ∧
    (encode i).extractLsb' 18 4 = 0#4 ∧ (encode i).extractLsb' 12 6 = d ∧ (encode i).extractLsb' 6 6 = a ∧
    (encode i).extractLsb' 0 6 = 0#6) ∧
  (encode (.lbool .slice 3#6 1#6) = 0x22803040#32 ∧ encode (.pcnt .global 2#6 1#6) = 0x23402040#32) ∧
  ∀ (s : State) (g : RegSet) (d a : RegNum),
    (RegsReady s g [d, a] [a] →
      (∃ t, exec (.lbool g d a) s = .next t ∧ WritesReg s t g d fun _ rf v =>
        (rf.get a = 0#32 → v = 0#32) ∧ (rf.get a ≠ 0#32 → v = 1#32)) ∧
      ∃ t, exec (.pcnt g d a) s = .next t ∧ WritesReg s t g d fun _ rf v =>
        v.toNat = ((List.range 32).filter fun k => (rf.get a).getLsbD k).length) ∧
    (¬ RegsReady s g [d, a] [a] →
      (∃ f, exec (.lbool g d a) s = .fault f ∧ RegsFault s g [d, a] [a] f) ∧
      ∃ f, exec (.pcnt g d a) s = .fault f ∧ RegsFault s g [d, a] [a] f)

/-- `BITS`, `FFS`, `BE`, `BS` and `BC` (R187 to R190, R197; the spec's own decisions D30, D33, D36): the low `n`
bits set, all of them from 32 on; one above the number of the lowest set bit, 0 for 0; a bit number from 32 on
names no bit. A machine with another `NUM` writes its own function's value (R6, log 18), here and below. -/
def Obligations.BitNumberResults : Prop :=
  ∀ (s : State) (g : RegSet) (d a b : RegNum),
    (RegsReady s g [d, a] [a] →
      (∃ t, exec (.bits g d a) s = .next t ∧ WritesReg s t g d fun _ rf v =>
        ∀ k, k < 32 → v.getLsbD k = decide (k < (rf.get a).toNat)) ∧
      ∃ t, exec (.ffs g d a) s = .next t ∧ WritesReg s t g d fun _ rf v =>
        NumValue s .ffs [rf.get a] v ((rf.get a = 0#32 → v = 0#32) ∧
          ∀ k, k < 32 → (rf.get a).getLsbD k = true → (∀ j, j < k → (rf.get a).getLsbD j = false) →
            v.toNat = k + 1)) ∧
    (RegsReady s g [d, a, b] [a, b] →
      (∃ t, exec (.be g d a b) s = .next t ∧ WritesReg s t g d fun _ rf v =>
        NumValue s .be [rf.get a, rf.get b] v (v.toNat = (rf.get a).toNat / 2 ^ (rf.get b).toNat % 2)) ∧
      (∃ t, exec (.bs g d a b) s = .next t ∧ WritesReg s t g d fun _ rf v =>
        NumValue s .bs [rf.get a, rf.get b] v (∀ k, k < 32 →
          v.getLsbD k = ((rf.get a).getLsbD k || decide (k = (rf.get b).toNat)))) ∧
      ∃ t, exec (.bc g d a b) s = .next t ∧ WritesReg s t g d fun _ rf v =>
        NumValue s .bc [rf.get a, rf.get b] v (∀ k, k < 32 →
          v.getLsbD k = ((rf.get a).getLsbD k && decide (k ≠ (rf.get b).toNat))))

/-- `LSR`, `LSL` and `ASR` (R191 to R193, the spec's own decision D31): by every amount, that is the whole of
`Rb`. -/
def Obligations.ShiftResults : Prop :=
  ∀ (s : State) (g : RegSet) (d a b : RegNum), RegsReady s g [d, a, b] [a, b] →
    (∃ t, exec (.lsr g d a b) s = .next t ∧ WritesReg s t g d fun _ rf v =>
      NumValue s .lsr [rf.get a, rf.get b] v (v.toNat = (rf.get a).toNat / 2 ^ (rf.get b).toNat)) ∧
    (∃ t, exec (.lsl g d a b) s = .next t ∧ WritesReg s t g d fun _ rf v =>
      NumValue s .lsl [rf.get a, rf.get b] v (v.toNat = (rf.get a).toNat * 2 ^ (rf.get b).toNat % 2 ^ 32)) ∧
    ∃ t, exec (.asr g d a b) s = .next t ∧ WritesReg s t g d fun _ rf v =>
      NumValue s .asr [rf.get a, rf.get b] v (v.toInt = (rf.get a).toInt / 2 ^ (rf.get b).toNat)

/-- `REV`, `REVH`, `REVL`, `RTHL` and `RTHH` (R194 to R196, R198, R199; the spec's own decisions D32, D34). -/
def Obligations.ReversalAndHalfWordResults : Prop :=
  ∀ (s : State) (g : RegSet) (d a : RegNum), RegsReady s g [d, a] [a] →
    (∃ t, exec (.rev g d a) s = .next t ∧ WritesReg s t g d fun _ rf v =>
      NumValue s .rev [rf.get a] v (∀ k, k < 32 → v.getLsbD k = (rf.get a).getLsbD (31 - k))) ∧
    (∃ t, exec (.revh g d a) s = .next t ∧ WritesReg s t g d fun _ rf v =>
      NumValue s .revh [rf.get a] v (∀ k, k < 16 → v.getLsbD (16 + k) = (rf.get a).getLsbD (31 - k) ∧ v.getLsbD
        k = (rf.get a).getLsbD k)) ∧
    (∃ t, exec (.revl g d a) s = .next t ∧ WritesReg s t g d fun _ rf v =>
      NumValue s .revl [rf.get a] v (∀ k, k < 16 → v.getLsbD k = (rf.get a).getLsbD (15 - k) ∧ v.getLsbD (16 +
        k) = (rf.get a).getLsbD (16 + k))) ∧
    (∃ t, exec (.rthl g d a) s = .next t ∧ WritesReg s t g d fun _ rf v =>
      NumValue s .rthl [rf.get a] v (v.toNat = (rf.get a).toNat % 2 ^ 16)) ∧
    ∃ t, exec (.rthh g d a) s = .next t ∧ WritesReg s t g d fun _ rf v =>
      NumValue s .rthh [rf.get a] v (v.toNat = (rf.get a).toNat / 2 ^ 16)

/-! ## Mathematics -/

/-- `ADD`, `SUB`, `ABS`, `NEG` and `SXT` (R210, R211, R224 to R226, R233; the spec's own decisions D37, D42):
sums and differences modulo 2^32, `ABS` and `NEG` of the most negative number keep it, `SXT` extends a
half-word. -/
def Obligations.AddSubtractAndSignResults : Prop :=
  ∀ (s : State) (g : RegSet) (d a b : RegNum),
    (RegsReady s g [d, a, b] [a, b] →
      (∃ t, exec (.add g d a b) s = .next t ∧ WritesReg s t g d fun _ rf v =>
        v.toNat = ((rf.get a).toNat + (rf.get b).toNat) % 2 ^ 32) ∧
      ∃ t, exec (.sub g d a b) s = .next t ∧ WritesReg s t g d fun _ rf v =>
        v.toNat = ((rf.get a).toNat + (2 ^ 32 - (rf.get b).toNat)) % 2 ^ 32) ∧
    (RegsReady s g [d, a] [a] →
      (∃ t, exec (.abs g d a) s = .next t ∧ WritesReg s t g d fun _ rf v =>
        NumValue s .abs [rf.get a] v (v = BitVec.ofInt 32 (rf.get a).toInt.natAbs)) ∧
      (∃ t, exec (.neg g d a) s = .next t ∧ WritesReg s t g d fun _ rf v =>
        NumValue s .neg [rf.get a] v (v = BitVec.ofInt 32 (-(rf.get a).toInt))) ∧
      ∃ t, exec (.sxt g d a) s = .next t ∧ WritesReg s t g d fun _ rf v =>
        NumValue s .sxt [rf.get a] v (∀ k, k < 32 → v.getLsbD k = (rf.get a).getLsbD (min k 15)))

/-- `UMULI`, `SMULI`, `UFMAI` and `SFMAI` (R212, R213, R215, R216, R233; the spec's own decisions D38, D39):
the low 32 bits; the accumulator is the old value of the destination. -/
def Obligations.IntegerMultiplyResults : Prop :=
  ∀ (s : State) (g : RegSet) (d a b : RegNum),
    (RegsReady s g [d, a, b] [a, b] →
      (∃ t, exec (.umuli g d a b) s = .next t ∧ WritesReg s t g d fun _ rf v =>
        NumValue s .umuli [rf.get a, rf.get b] v (v.toNat = (rf.get a).toNat * (rf.get b).toNat % 2 ^ 32)) ∧
      ∃ t, exec (.smuli g d a b) s = .next t ∧ WritesReg s t g d fun _ rf v =>
        NumValue s .smuli [rf.get a, rf.get b] v (v = BitVec.ofInt 32 ((rf.get a).toInt * (rf.get b).toInt))) ∧
    (RegsReady s g [d, a, b] [d, a, b] →
      (∃ t, exec (.ufmai g d a b) s = .next t ∧ WritesReg s t g d fun _ rf v =>
        NumValue s .ufmai [rf.get d, rf.get a, rf.get b] v (v.toNat = ((rf.get d).toNat + (rf.get a).toNat *
          (rf.get b).toNat) % 2 ^ 32)) ∧
      ∃ t, exec (.sfmai g d a b) s = .next t ∧ WritesReg s t g d fun _ rf v =>
        NumValue s .sfmai [rf.get d, rf.get a, rf.get b] v (v = BitVec.ofInt 32 ((rf.get d).toInt + (rf.get
          a).toInt * (rf.get b).toInt)))

/-- `MULQ` and `MACQ` (R214, R217, R233; the spec's own decisions D38, D39): the product shifted right by
`QFRAC` and rounded toward minus infinity, then cut to 32 bits or added to the old destination. -/
def Obligations.FixedMultiplyResults : Prop :=
  ∀ (s : State) (g : RegSet) (d a b : RegNum),
    (RegsReady s g [d, a, b] [a, b] →
      ∃ t, exec (.mulq g d a b) s = .next t ∧ WritesReg s t g d fun _ rf v =>
        NumValue s .mulq [rf.get a, rf.get b] v (∃ p : Int, p * 2 ^ s.params.qfrac ≤ (rf.get a).toInt * (rf.get
          b).toInt ∧ (rf.get a).toInt * (rf.get b).toInt < (p + 1) * 2 ^ s.params.qfrac ∧ v = BitVec.ofInt 32 p))
          ∧
    (RegsReady s g [d, a, b] [d, a, b] →
      ∃ t, exec (.macq g d a b) s = .next t ∧ WritesReg s t g d fun _ rf v =>
        NumValue s .macq [rf.get d, rf.get a, rf.get b] v (∃ p : Int, p * 2 ^ s.params.qfrac ≤ (rf.get a).toInt
          * (rf.get b).toInt ∧ (rf.get a).toInt * (rf.get b).toInt < (p + 1) * 2 ^ s.params.qfrac ∧ v =
          BitVec.ofInt 32 ((rf.get d).toInt + p)))

/-- `UDIVI`, `SDIVI` and `UREM` (R218, R219, R221, R233; the spec's own decisions D40, D50): with any divisor
the instruction completes; the value is constrained only for a divisor that is not 0. -/
def Obligations.IntegerDivideResults : Prop :=
  ∀ (s : State) (g : RegSet) (d a b : RegNum), RegsReady s g [d, a, b] [a, b] →
    (∃ t, exec (.udivi g d a b) s = .next t ∧ WritesReg s t g d fun _ rf v =>
      NumValueFree s .udivi [rf.get a, rf.get b] v (rf.get b ≠ 0#32 → v.toNat * (rf.get b).toNat ≤ (rf.get
        a).toNat ∧ (rf.get a).toNat < (v.toNat + 1) * (rf.get b).toNat)) ∧
    (∃ t, exec (.sdivi g d a b) s = .next t ∧ WritesReg s t g d fun _ rf v =>
      NumValueFree s .sdivi [rf.get a, rf.get b] v (rf.get b ≠ 0#32 → ∃ q, TruncQuotient (rf.get a).toInt
        (rf.get b).toInt q ∧ v = BitVec.ofInt 32 q)) ∧
    ∃ t, exec (.urem g d a b) s = .next t ∧ WritesReg s t g d fun _ rf v =>
      NumValueFree s .urem [rf.get a, rf.get b] v (rf.get b ≠ 0#32 → v.toNat < (rf.get b).toNat ∧ ∃ q, (rf.get
        a).toNat = q * (rf.get b).toNat + v.toNat)

/-- `DIVQ`, `RCPQ` and `SQRTQ` (R220, R222, R223, R233; the spec's own decisions D40, D41): on every source
value the instruction completes; the value is constrained only where the divisor is not 0 and the radicand not
negative. -/
def Obligations.FixedDivideResults : Prop :=
  ∀ (s : State) (g : RegSet) (d a b : RegNum), LegalQfrac s →
    (RegsReady s g [d, a, b] [a, b] →
      ∃ t, exec (.divq g d a b) s = .next t ∧ WritesReg s t g d fun _ rf v =>
        NumValueFree s .divq [rf.get a, rf.get b] v (rf.get b ≠ 0#32 → ∃ q, TruncQuotient ((rf.get a).toInt * 2
          ^ s.params.qfrac) (rf.get b).toInt q ∧ v = BitVec.ofInt 32 q)) ∧
    (RegsReady s g [d, a] [a] →
      (∃ t, exec (.rcpq g d a) s = .next t ∧ WritesReg s t g d fun _ rf v =>
        NumValueFree s .rcpq [rf.get a] v (rf.get a ≠ 0#32 → ∃ q, TruncQuotient (2 ^ (2 * s.params.qfrac))
          (rf.get a).toInt q ∧ v = BitVec.ofInt 32 q)) ∧
      ∃ t, exec (.sqrtq g d a) s = .next t ∧ WritesReg s t g d fun _ rf v =>
        NumValueFree s .sqrtq [rf.get a] v (0 ≤ (rf.get a).toInt → v.toNat * v.toNat ≤ (rf.get a).toNat * 2 ^
          s.params.qfrac ∧ (rf.get a).toNat * 2 ^ s.params.qfrac < (v.toNat + 1) * (v.toNat + 1)))

/-- `UFLOOR`, `SFLOOR`, `UCEIL`, `SCEIL` and `ROUND` (R227 to R231, R233; the spec's own decision D43): the
integer at or below, at or above, or nearest to the fixed-point value, a tie going up. -/
def Obligations.RoundingResults : Prop :=
  ∀ (s : State) (g : RegSet) (d a : RegNum), LegalQfrac s → RegsReady s g [d, a] [a] →
    (∃ t, exec (.ufloor g d a) s = .next t ∧ WritesReg s t g d fun _ rf v =>
      NumValue s .ufloor [rf.get a] v (v.toNat * 2 ^ s.params.qfrac ≤ (rf.get a).toNat ∧ (rf.get a).toNat <
        (v.toNat + 1) * 2 ^ s.params.qfrac)) ∧
    (∃ t, exec (.sfloor g d a) s = .next t ∧ WritesReg s t g d fun _ rf v =>
      NumValue s .sfloor [rf.get a] v (v.toInt * 2 ^ s.params.qfrac ≤ (rf.get a).toInt ∧ (rf.get a).toInt <
        (v.toInt + 1) * 2 ^ s.params.qfrac)) ∧
    (∃ t, exec (.uceil g d a) s = .next t ∧ WritesReg s t g d fun _ rf v =>
      NumValue s .uceil [rf.get a] v ((rf.get a).toNat ≤ v.toNat * 2 ^ s.params.qfrac ∧ v.toNat * 2 ^
        s.params.qfrac < (rf.get a).toNat + 2 ^ s.params.qfrac)) ∧
    (∃ t, exec (.sceil g d a) s = .next t ∧ WritesReg s t g d fun _ rf v =>
      NumValue s .sceil [rf.get a] v ((rf.get a).toInt ≤ v.toInt * 2 ^ s.params.qfrac ∧ v.toInt * 2 ^
        s.params.qfrac < (rf.get a).toInt + 2 ^ s.params.qfrac)) ∧
    ∃ t, exec (.round g d a) s = .next t ∧ WritesReg s t g d fun _ rf v =>
      NumValue s .round [rf.get a] v ((2 * v.toInt - 1) * 2 ^ s.params.qfrac ≤ 2 * (rf.get a).toInt ∧ 2 *
        (rf.get a).toInt < (2 * v.toInt + 1) * 2 ^ s.params.qfrac)

/-! ## The host -/

/-- Start (R38, R259, R282; the spec's own decision D27): the whole state is set from the launch record; a
register or flag that it does not name holds no value. A byte that no entry of `MEM_INIT` names reads as an
unlisted byte, which is the model's choice (log 7, log 28). -/
def Obligations.HostStartSetsWholeState : Prop :=
  ∀ (s : State) (l : Launch) (rest : List Move), s.env = .host (.start l) :: rest →
    s.run.startable = true → l.ok s.slices.length = true →
    ∃ t, step s = .next t ∧ t.ip = l.entry ∧ t.run = .running ∧ t.signal = false ∧ t.gmau = [] ∧
      t.imageBase = l.imageBase ∧ t.image = l.image ∧ t.memAdmit = l.memAdmit ∧ t.params = s.params ∧
      t.env = rest ∧ t.slices.length = s.slices.length ∧
      (∀ i sl, t.slices[i]? = some sl → sl.queue = [] ∧ sl.en = l.enInit.getLsbD i ∧
        (∀ n, (∀ v, (i, n, v) ∉ l.sInit) → sl.regs.holds n = false) ∧
        (∀ n v, (i, n, v) ∈ l.sInit → (∀ v', (i, n, v') ∈ l.sInit → v' = v) →
          sl.regs.get n = v ∧ sl.regs.holds n = true) ∧
        ((∀ b, (i, b) ∉ l.tInit) → sl.tWritten = false) ∧
        ∀ b, (i, b) ∈ l.tInit → (∀ b', (i, b') ∈ l.tInit → b' = b) → sl.t = b ∧ sl.tWritten = true) ∧
      (∀ n, (∀ v, (n, v) ∉ l.gInit) → t.globals.holds n = false) ∧
      (∀ n v, (n, v) ∈ l.gInit → (∀ v', (n, v') ∈ l.gInit → v' = v) →
        t.globals.get n = v ∧ t.globals.holds n = true) ∧
      (∀ a v, (a, v) ∈ l.memInit → (∀ v', (a, v') ∈ l.memInit → v' = v) →
        t.mem.readWord s.params.byteOrder a = v) ∧
      ∀ b, (∀ a v, (a, v) ∈ l.memInit → ∀ k, k < 4 → b ≠ byteAddr a k) →
        t.mem.readByte b = Config.unlistedByte

/-- Suspend, resume and stop (R260, R261, R263; the spec's own decision D25): what each changes, and that one
that R263 does not list changes nothing (log 23). A start whose launch record breaks a condition of R282 is
dropped and changes nothing either: that it is dropped is the model's choice (log 29; the points on which R282 is
silent, log 35). A suspend and a resume with nothing between leave every part of the state as it was. A stop
empties every queue (log 21). -/
def Obligations.HostSuspendResumeStop : Prop :=
  ∀ (s : State) (rest : List Move),
    (s.env = .host .suspend :: rest → s.run = .running → step s = .next ((s.setEnv rest).setRun .suspended)) ∧
    (s.env = .host .resume :: rest → s.run = .suspended → step s = .next ((s.setEnv rest).setRun .running)) ∧
    (s.env = .host .stop :: rest → s.run = .running ∨ s.run = .suspended →
      ∃ t, step s = .next t ∧ t.run = .stopped ∧ t.ip = s.ip ∧ t.globals = s.globals ∧ t.gmau = [] ∧
        t.signal = s.signal ∧ t.image = s.image ∧ t.imageBase = s.imageBase ∧ t.memAdmit = s.memAdmit ∧
        t.env = rest ∧ EachSlice (fun _ sl sl' => OnlyQueue sl sl' ∧ sl'.queue = []) s t ∧
        ∀ a, t.mem.readByte a = s.mem.readByte a) ∧
    (s.env = .host .suspend :: rest → s.run ≠ .running → step s = .next (s.setEnv rest)) ∧
    (s.env = .host .resume :: rest → s.run ≠ .suspended → step s = .next (s.setEnv rest)) ∧
    (s.env = .host .stop :: rest → s.run ≠ .running → s.run ≠ .suspended → step s = .next (s.setEnv rest)) ∧
    (∀ l, s.env = .host (.start l) :: rest → s.run = .running ∨ s.run = .suspended ∨ l.ok s.slices.length = false →
      step s = .next (s.setEnv rest)) ∧
    (s.env = .host .suspend :: .host .resume :: rest → s.run = .running →
      ∃ t, step s = .next t ∧ step t = .next (s.setEnv rest))

/-- The end of a good run (R72, R262; the spec's own decisions D23, D54): a step that completes the task leaves
`SIGNAL` set and every queue empty, and the host then reads the bytes of memory as they stand outside the
image; before that it reads none. -/
def Obligations.CompletedTaskShowsMemory : Prop :=
  ∀ s t : State, s.run ≠ .completed → step s = .next t → t.run = .completed →
    t.goodEnd = true ∧ (∀ a, s.hostByte a = none) ∧
    ∀ a, a < 2 ^ 32 → (∀ w, t.imageWord (BitVec.ofNat 32 (a - a % 4)) ≠ some w) →
      t.hostByte a = some (t.mem.readByte a)

/-! ## The invariant -/

/-- The state after reset meets the invariant, and has what R38 gives: `SIGNAL` 0, `RUN` `Running`, empty
queues, every slice enabled. (That registers hold 0 there is the model's choice, log 3, and not stated.) -/
def Obligations.ResetMeetsInvariant : Prop :=
  StateInv State.reset = true ∧ State.reset.signal = false ∧ State.reset.run = .running ∧ State.reset.gmau = [] ∧
  ∀ sl ∈ State.reset.slices, sl.queue = [] ∧ sl.en = true

/-- Every step of every agent keeps the invariant `StateInv`: memory canonical, `ip` aligned (R28), 1 to 32 slices
(R20), legal parameters (R6), the image and the admitted ranges placed as R282 asks, every queued request
aligned, admitted and, for a store, outside the image (R54, R56, R57), no two queued loads of a unit with one
destination (R131), no queue beyond its depth (R66), `Completed` only as the end of a good run (R262). -/
def Obligations.StepKeepsInvariant : Prop :=
  ∀ s t : State, StateInv s = true → step s = .next t → StateInv t = true
end

