-- ==== Sys2Proof/Laws/Memory.lean ====
section
/-! SUPPORT. Laws/Memory.lean: reading after writing, and the canonical form kept by every memory
operation. -/

namespace Sys2Proof.Machine

/-- Every address listed from `lo` on is at or above `lo`. -/
theorem Memory.wfFrom_mono {lo lo' : Nat} (h : lo' ≤ lo) :
    ∀ {m : Memory}, Memory.wfFrom lo m = true → Memory.wfFrom lo' m = true
  | [], _ => rfl
  | (k, b) :: rest, hm => by
    simp only [Memory.wfFrom, Bool.and_eq_true, decide_eq_true_eq] at hm ⊢
    exact ⟨⟨⟨by omega, hm.1.1.2⟩, hm.1.2⟩, hm.2⟩

/-- An address below every listed one reads as unlisted. -/
theorem Memory.readByte_below {a lo : Nat} (h : a < lo) :
    ∀ {m : Memory}, Memory.wfFrom lo m = true → m.readByte a = Config.unlistedByte
  | [], _ => rfl
  | (k, b) :: rest, hm => by
    simp only [Memory.wfFrom, Bool.and_eq_true, decide_eq_true_eq] at hm
    have hk : ¬ k = a := by omega
    rw [Memory.readByte, if_neg hk]
    exact Memory.readByte_below (lo := k + 1) (by omega) hm.2

/-- Writing a byte keeps the canonical form. -/
theorem Memory.writeByte_wfFrom {lo a : Nat} (v : Byte) (ha : a < 2 ^ 32) (hlo : lo ≤ a) :
    ∀ {m : Memory}, Memory.wfFrom lo m = true → Memory.wfFrom lo (m.writeByte a v) = true
  | [], _ => by
    unfold Memory.writeByte
    split
    · rfl
    · simp_all [Memory.wfFrom]
  | (k, b) :: rest, hm => by
    have hm' := hm
    simp only [Memory.wfFrom, Bool.and_eq_true, decide_eq_true_eq] at hm'
    obtain ⟨⟨⟨h1, h2⟩, h3⟩, h4⟩ := hm'
    unfold Memory.writeByte
    split
    · split
      · exact hm
      · simp only [Memory.wfFrom, Bool.and_eq_true, decide_eq_true_eq]
        refine ⟨⟨⟨hlo, ha⟩, by simp_all⟩, ⟨⟨by omega, h2⟩, h3⟩, h4⟩
    · split
      · split
        · exact Memory.wfFrom_mono (by omega) h4
        · simp only [Memory.wfFrom, Bool.and_eq_true, decide_eq_true_eq]
          rename_i hak hv
          refine ⟨⟨⟨hlo, ha⟩, by simp_all⟩, ?_⟩
          rw [hak]
          exact h4
      · simp only [Memory.wfFrom, Bool.and_eq_true, decide_eq_true_eq]
        exact ⟨⟨⟨h1, h2⟩, h3⟩, Memory.writeByte_wfFrom v ha (by omega) h4⟩

/-- The byte written reads back. -/
theorem Memory.readByte_writeByte_same {lo a : Nat} (v : Byte) :
    ∀ {m : Memory}, Memory.wfFrom lo m = true → (m.writeByte a v).readByte a = v
  | [], _ => by
    unfold Memory.writeByte
    split
    · simp_all [Memory.readByte]
    · simp [Memory.readByte]
  | (k, b) :: rest, hm => by
    simp only [Memory.wfFrom, Bool.and_eq_true, decide_eq_true_eq] at hm
    obtain ⟨⟨⟨h1, h2⟩, h3⟩, h4⟩ := hm
    unfold Memory.writeByte
    split
    · split
      · rename_i hlt hv
        have hk : ¬ k = a := by omega
        rw [Memory.readByte, if_neg hk, Memory.readByte_below (lo := k + 1) (by omega) h4, hv]
      · simp [Memory.readByte]
    · split
      · split
        · rename_i hlt hak hv
          rw [Memory.readByte_below (lo := k + 1) (by omega) h4, hv]
        · simp [Memory.readByte]
      · rename_i hlt hne
        have hk : ¬ k = a := fun e => hne e.symm
        rw [Memory.readByte, if_neg hk]
        exact Memory.readByte_writeByte_same v h4

/-- Every other byte reads as before. -/
theorem Memory.readByte_writeByte_other {lo a c : Nat} (v : Byte) (hc : c ≠ a) :
    ∀ {m : Memory}, Memory.wfFrom lo m = true → (m.writeByte a v).readByte c = m.readByte c
  | [], _ => by
    unfold Memory.writeByte
    split
    · rfl
    · simp [Memory.readByte, Ne.symm hc]
  | (k, b) :: rest, hm => by
    simp only [Memory.wfFrom, Bool.and_eq_true, decide_eq_true_eq] at hm
    obtain ⟨⟨⟨h1, h2⟩, h3⟩, h4⟩ := hm
    unfold Memory.writeByte
    split
    · split
      · rfl
      · simp [Memory.readByte, Ne.symm hc]
    · split
      · rename_i hlt hak
        have hkc : ¬ k = c := by omega
        split
        · rw [Memory.readByte, if_neg hkc]
        · simp [Memory.readByte, Ne.symm hc, hkc]
      · by_cases hkc : k = c
        · simp [Memory.readByte, hkc]
        · simp only [Memory.readByte, if_neg hkc]
          exact Memory.readByte_writeByte_other v hc h4

/-- A byte address is an address of the space. -/
theorem byteAddr_lt (addr : Word) (k : Nat) : byteAddr addr k < 2 ^ 32 := (addr + BitVec.ofNat 32 k).isLt

/-- Writing a byte keeps `Memory.wf`. -/
theorem Memory.writeByte_wf {m : Memory} (h : m.wf = true) {a : Nat} (ha : a < 2 ^ 32) (v : Byte) :
    (m.writeByte a v).wf = true := Memory.writeByte_wfFrom v ha (Nat.zero_le a) h

/-- Writing a word keeps `Memory.wf`. -/
theorem Memory.writeWord_wf {m : Memory} (h : m.wf = true) (order : ByteOrder) (addr v : Word) :
    (m.writeWord order addr v).wf = true := by
  unfold Memory.writeWord
  exact Memory.writeByte_wf (Memory.writeByte_wf (Memory.writeByte_wf (Memory.writeByte_wf h
    (byteAddr_lt _ _) _) (byteAddr_lt _ _) _) (byteAddr_lt _ _) _) (byteAddr_lt _ _) _

/-- Two bytes of one word have different addresses. -/
theorem byteAddr_ne (addr : Word) {j k : Nat} (hj : j < 4) (hk : k < 4) (h : j ≠ k) :
    byteAddr addr j ≠ byteAddr addr k := by
  unfold byteAddr
  intro e
  have e' := BitVec.eq_of_toNat_eq e
  have : BitVec.ofNat 32 j = BitVec.ofNat 32 k := by
    have := congrArg (fun x => x - addr) e'
    simpa [BitVec.add_comm addr, BitVec.add_sub_cancel] using this
  have hn := congrArg BitVec.toNat this
  simp only [BitVec.toNat_ofNat] at hn
  omega

/-- A byte outside the word written reads as before. -/
theorem Memory.readByte_writeWord_other {m : Memory} (h : m.wf = true) (order : ByteOrder) (addr v : Word)
    {c : Nat} (hc : ∀ k, k < 4 → c ≠ byteAddr addr k) : (m.writeWord order addr v).readByte c = m.readByte c := by
  unfold Memory.writeWord
  have w1 := Memory.writeByte_wf h (byteAddr_lt addr 0) (byteOf order v 0)
  have w2 := Memory.writeByte_wf w1 (byteAddr_lt addr 1) (byteOf order v 1)
  have w3 := Memory.writeByte_wf w2 (byteAddr_lt addr 2) (byteOf order v 2)
  rw [Memory.readByte_writeByte_other _ (hc 3 (by omega)) w3, Memory.readByte_writeByte_other _ (hc 2 (by omega)) w2,
    Memory.readByte_writeByte_other _ (hc 1 (by omega)) w1, Memory.readByte_writeByte_other _ (hc 0 (by omega)) h]

/-- Byte `k` of the word written reads back. -/
theorem Memory.readByte_writeWord_same {m : Memory} (h : m.wf = true) (order : ByteOrder) (addr v : Word)
    {k : Nat} (hk : k < 4) : (m.writeWord order addr v).readByte (byteAddr addr k) = byteOf order v k := by
  unfold Memory.writeWord
  have w1 := Memory.writeByte_wf h (byteAddr_lt addr 0) (byteOf order v 0)
  have w2 := Memory.writeByte_wf w1 (byteAddr_lt addr 1) (byteOf order v 1)
  have w3 := Memory.writeByte_wf w2 (byteAddr_lt addr 2) (byteOf order v 2)
  have ne := fun {i j : Nat} (hi : i < 4) (hj : j < 4) (h : i ≠ j) => byteAddr_ne addr hi hj h
  rcases (by omega : k = 0 ∨ k = 1 ∨ k = 2 ∨ k = 3) with rfl | rfl | rfl | rfl
  · rw [Memory.readByte_writeByte_other _ (ne (by omega) (by omega) (by omega)) w3,
      Memory.readByte_writeByte_other _ (ne (by omega) (by omega) (by omega)) w2,
      Memory.readByte_writeByte_other _ (ne (by omega) (by omega) (by omega)) w1,
      Memory.readByte_writeByte_same _ h]
  · rw [Memory.readByte_writeByte_other _ (ne (by omega) (by omega) (by omega)) w3,
      Memory.readByte_writeByte_other _ (ne (by omega) (by omega) (by omega)) w2,
      Memory.readByte_writeByte_same _ w1]
  · rw [Memory.readByte_writeByte_other _ (ne (by omega) (by omega) (by omega)) w3,
      Memory.readByte_writeByte_same _ w2]
  · rw [Memory.readByte_writeByte_same _ w3]

/-- The bytes of a word, joined, are the word (R53). -/
theorem joinBytes_byteOf (order : ByteOrder) (v : Word) :
    joinBytes order (byteOf order v 0) (byteOf order v 1) (byteOf order v 2) (byteOf order v 3) = v := by
  cases order <;>
  · apply BitVec.eq_of_getLsbD_eq
    intro i hi
    simp only [joinBytes, byteOf, BitVec.getLsbD_append, BitVec.getLsbD_extractLsb']
    split
    · simp_all
    · split
      · rw [show decide (i - 8 < 8) = true by simpa using by omega, Bool.true_and]; congr 1; omega
      · split
        · rw [show decide (i - 8 - 8 < 8) = true by simpa using by omega, Bool.true_and]; congr 1; omega
        · rw [show decide (i - 8 - 8 - 8 < 8) = true by simpa using by omega, Bool.true_and]; congr 1; omega

/-- A word written reads back (R11, R55). -/
theorem Memory.readWord_writeWord {m : Memory} (h : m.wf = true) (order : ByteOrder) (addr v : Word) :
    (m.writeWord order addr v).readWord order addr = v := by
  unfold Memory.readWord
  rw [Memory.readByte_writeWord_same h order addr v (by omega), Memory.readByte_writeWord_same h order addr v (by omega),
    Memory.readByte_writeWord_same h order addr v (by omega), Memory.readByte_writeWord_same h order addr v (by omega),
    joinBytes_byteOf]

end Sys2Proof.Machine
end

