-- ==== Sys2Proof/Laws/State.lean ====
section
/-! SUPPORT. Laws/State.lean: one lemma per field per update, true by definition, so that no proof unfolds a
record update. -/

namespace Sys2Proof.Machine

/-! ### `State.setSlices` -/

@[simp] theorem State.setSlices_params (s : State) (x : List Slice) : (s.setSlices x).params = s.params := rfl
@[simp] theorem State.setSlices_slices (s : State) (x : List Slice) : (s.setSlices x).slices = x := rfl
@[simp] theorem State.setSlices_globals (s : State) (x : List Slice) : (s.setSlices x).globals = s.globals := rfl
@[simp] theorem State.setSlices_gmau (s : State) (x : List Slice) : (s.setSlices x).gmau = s.gmau := rfl
@[simp] theorem State.setSlices_ip (s : State) (x : List Slice) : (s.setSlices x).ip = s.ip := rfl
@[simp] theorem State.setSlices_mem (s : State) (x : List Slice) : (s.setSlices x).mem = s.mem := rfl
@[simp] theorem State.setSlices_imageBase (s : State) (x : List Slice) : (s.setSlices x).imageBase = s.imageBase := rfl
@[simp] theorem State.setSlices_image (s : State) (x : List Slice) : (s.setSlices x).image = s.image := rfl
@[simp] theorem State.setSlices_memAdmit (s : State) (x : List Slice) : (s.setSlices x).memAdmit = s.memAdmit := rfl
@[simp] theorem State.setSlices_signal (s : State) (x : List Slice) : (s.setSlices x).signal = s.signal := rfl
@[simp] theorem State.setSlices_run (s : State) (x : List Slice) : (s.setSlices x).run = s.run := rfl
@[simp] theorem State.setSlices_env (s : State) (x : List Slice) : (s.setSlices x).env = s.env := rfl
@[simp] theorem State.setSlices_frees (s : State) (x : List Slice) : (s.setSlices x).frees = s.frees := rfl

/-! ### `State.setGlobals` -/

@[simp] theorem State.setGlobals_params (s : State) (x : RegFile) : (s.setGlobals x).params = s.params := rfl
@[simp] theorem State.setGlobals_slices (s : State) (x : RegFile) : (s.setGlobals x).slices = s.slices := rfl
@[simp] theorem State.setGlobals_globals (s : State) (x : RegFile) : (s.setGlobals x).globals = x := rfl
@[simp] theorem State.setGlobals_gmau (s : State) (x : RegFile) : (s.setGlobals x).gmau = s.gmau := rfl
@[simp] theorem State.setGlobals_ip (s : State) (x : RegFile) : (s.setGlobals x).ip = s.ip := rfl
@[simp] theorem State.setGlobals_mem (s : State) (x : RegFile) : (s.setGlobals x).mem = s.mem := rfl
@[simp] theorem State.setGlobals_imageBase (s : State) (x : RegFile) : (s.setGlobals x).imageBase = s.imageBase := rfl
@[simp] theorem State.setGlobals_image (s : State) (x : RegFile) : (s.setGlobals x).image = s.image := rfl
@[simp] theorem State.setGlobals_memAdmit (s : State) (x : RegFile) : (s.setGlobals x).memAdmit = s.memAdmit := rfl
@[simp] theorem State.setGlobals_signal (s : State) (x : RegFile) : (s.setGlobals x).signal = s.signal := rfl
@[simp] theorem State.setGlobals_run (s : State) (x : RegFile) : (s.setGlobals x).run = s.run := rfl
@[simp] theorem State.setGlobals_env (s : State) (x : RegFile) : (s.setGlobals x).env = s.env := rfl
@[simp] theorem State.setGlobals_frees (s : State) (x : RegFile) : (s.setGlobals x).frees = s.frees := rfl

/-! ### `State.setGmau` -/

@[simp] theorem State.setGmau_params (s : State) (x : List Request) : (s.setGmau x).params = s.params := rfl
@[simp] theorem State.setGmau_slices (s : State) (x : List Request) : (s.setGmau x).slices = s.slices := rfl
@[simp] theorem State.setGmau_globals (s : State) (x : List Request) : (s.setGmau x).globals = s.globals := rfl
@[simp] theorem State.setGmau_gmau (s : State) (x : List Request) : (s.setGmau x).gmau = x := rfl
@[simp] theorem State.setGmau_ip (s : State) (x : List Request) : (s.setGmau x).ip = s.ip := rfl
@[simp] theorem State.setGmau_mem (s : State) (x : List Request) : (s.setGmau x).mem = s.mem := rfl
@[simp] theorem State.setGmau_imageBase (s : State) (x : List Request) : (s.setGmau x).imageBase = s.imageBase := rfl
@[simp] theorem State.setGmau_image (s : State) (x : List Request) : (s.setGmau x).image = s.image := rfl
@[simp] theorem State.setGmau_memAdmit (s : State) (x : List Request) : (s.setGmau x).memAdmit = s.memAdmit := rfl
@[simp] theorem State.setGmau_signal (s : State) (x : List Request) : (s.setGmau x).signal = s.signal := rfl
@[simp] theorem State.setGmau_run (s : State) (x : List Request) : (s.setGmau x).run = s.run := rfl
@[simp] theorem State.setGmau_env (s : State) (x : List Request) : (s.setGmau x).env = s.env := rfl
@[simp] theorem State.setGmau_frees (s : State) (x : List Request) : (s.setGmau x).frees = s.frees := rfl

/-! ### `State.setIp` -/

@[simp] theorem State.setIp_params (s : State) (x : Word) : (s.setIp x).params = s.params := rfl
@[simp] theorem State.setIp_slices (s : State) (x : Word) : (s.setIp x).slices = s.slices := rfl
@[simp] theorem State.setIp_globals (s : State) (x : Word) : (s.setIp x).globals = s.globals := rfl
@[simp] theorem State.setIp_gmau (s : State) (x : Word) : (s.setIp x).gmau = s.gmau := rfl
@[simp] theorem State.setIp_ip (s : State) (x : Word) : (s.setIp x).ip = x := rfl
@[simp] theorem State.setIp_mem (s : State) (x : Word) : (s.setIp x).mem = s.mem := rfl
@[simp] theorem State.setIp_imageBase (s : State) (x : Word) : (s.setIp x).imageBase = s.imageBase := rfl
@[simp] theorem State.setIp_image (s : State) (x : Word) : (s.setIp x).image = s.image := rfl
@[simp] theorem State.setIp_memAdmit (s : State) (x : Word) : (s.setIp x).memAdmit = s.memAdmit := rfl
@[simp] theorem State.setIp_signal (s : State) (x : Word) : (s.setIp x).signal = s.signal := rfl
@[simp] theorem State.setIp_run (s : State) (x : Word) : (s.setIp x).run = s.run := rfl
@[simp] theorem State.setIp_env (s : State) (x : Word) : (s.setIp x).env = s.env := rfl
@[simp] theorem State.setIp_frees (s : State) (x : Word) : (s.setIp x).frees = s.frees := rfl

/-! ### `State.setMem` -/

@[simp] theorem State.setMem_params (s : State) (x : Memory) : (s.setMem x).params = s.params := rfl
@[simp] theorem State.setMem_slices (s : State) (x : Memory) : (s.setMem x).slices = s.slices := rfl
@[simp] theorem State.setMem_globals (s : State) (x : Memory) : (s.setMem x).globals = s.globals := rfl
@[simp] theorem State.setMem_gmau (s : State) (x : Memory) : (s.setMem x).gmau = s.gmau := rfl
@[simp] theorem State.setMem_ip (s : State) (x : Memory) : (s.setMem x).ip = s.ip := rfl
@[simp] theorem State.setMem_mem (s : State) (x : Memory) : (s.setMem x).mem = x := rfl
@[simp] theorem State.setMem_imageBase (s : State) (x : Memory) : (s.setMem x).imageBase = s.imageBase := rfl
@[simp] theorem State.setMem_image (s : State) (x : Memory) : (s.setMem x).image = s.image := rfl
@[simp] theorem State.setMem_memAdmit (s : State) (x : Memory) : (s.setMem x).memAdmit = s.memAdmit := rfl
@[simp] theorem State.setMem_signal (s : State) (x : Memory) : (s.setMem x).signal = s.signal := rfl
@[simp] theorem State.setMem_run (s : State) (x : Memory) : (s.setMem x).run = s.run := rfl
@[simp] theorem State.setMem_env (s : State) (x : Memory) : (s.setMem x).env = s.env := rfl
@[simp] theorem State.setMem_frees (s : State) (x : Memory) : (s.setMem x).frees = s.frees := rfl

/-! ### `State.setSignal` -/

@[simp] theorem State.setSignal_params (s : State) (x : Bool) : (s.setSignal x).params = s.params := rfl
@[simp] theorem State.setSignal_slices (s : State) (x : Bool) : (s.setSignal x).slices = s.slices := rfl
@[simp] theorem State.setSignal_globals (s : State) (x : Bool) : (s.setSignal x).globals = s.globals := rfl
@[simp] theorem State.setSignal_gmau (s : State) (x : Bool) : (s.setSignal x).gmau = s.gmau := rfl
@[simp] theorem State.setSignal_ip (s : State) (x : Bool) : (s.setSignal x).ip = s.ip := rfl
@[simp] theorem State.setSignal_mem (s : State) (x : Bool) : (s.setSignal x).mem = s.mem := rfl
@[simp] theorem State.setSignal_imageBase (s : State) (x : Bool) : (s.setSignal x).imageBase = s.imageBase := rfl
@[simp] theorem State.setSignal_image (s : State) (x : Bool) : (s.setSignal x).image = s.image := rfl
@[simp] theorem State.setSignal_memAdmit (s : State) (x : Bool) : (s.setSignal x).memAdmit = s.memAdmit := rfl
@[simp] theorem State.setSignal_signal (s : State) (x : Bool) : (s.setSignal x).signal = x := rfl
@[simp] theorem State.setSignal_run (s : State) (x : Bool) : (s.setSignal x).run = s.run := rfl
@[simp] theorem State.setSignal_env (s : State) (x : Bool) : (s.setSignal x).env = s.env := rfl
@[simp] theorem State.setSignal_frees (s : State) (x : Bool) : (s.setSignal x).frees = s.frees := rfl

/-! ### `State.setRun` -/

@[simp] theorem State.setRun_params (s : State) (x : RunState) : (s.setRun x).params = s.params := rfl
@[simp] theorem State.setRun_slices (s : State) (x : RunState) : (s.setRun x).slices = s.slices := rfl
@[simp] theorem State.setRun_globals (s : State) (x : RunState) : (s.setRun x).globals = s.globals := rfl
@[simp] theorem State.setRun_gmau (s : State) (x : RunState) : (s.setRun x).gmau = s.gmau := rfl
@[simp] theorem State.setRun_ip (s : State) (x : RunState) : (s.setRun x).ip = s.ip := rfl
@[simp] theorem State.setRun_mem (s : State) (x : RunState) : (s.setRun x).mem = s.mem := rfl
@[simp] theorem State.setRun_imageBase (s : State) (x : RunState) : (s.setRun x).imageBase = s.imageBase := rfl
@[simp] theorem State.setRun_image (s : State) (x : RunState) : (s.setRun x).image = s.image := rfl
@[simp] theorem State.setRun_memAdmit (s : State) (x : RunState) : (s.setRun x).memAdmit = s.memAdmit := rfl
@[simp] theorem State.setRun_signal (s : State) (x : RunState) : (s.setRun x).signal = s.signal := rfl
@[simp] theorem State.setRun_run (s : State) (x : RunState) : (s.setRun x).run = x := rfl
@[simp] theorem State.setRun_env (s : State) (x : RunState) : (s.setRun x).env = s.env := rfl
@[simp] theorem State.setRun_frees (s : State) (x : RunState) : (s.setRun x).frees = s.frees := rfl

/-! ### `State.setEnv` -/

@[simp] theorem State.setEnv_params (s : State) (x : List Move) : (s.setEnv x).params = s.params := rfl
@[simp] theorem State.setEnv_slices (s : State) (x : List Move) : (s.setEnv x).slices = s.slices := rfl
@[simp] theorem State.setEnv_globals (s : State) (x : List Move) : (s.setEnv x).globals = s.globals := rfl
@[simp] theorem State.setEnv_gmau (s : State) (x : List Move) : (s.setEnv x).gmau = s.gmau := rfl
@[simp] theorem State.setEnv_ip (s : State) (x : List Move) : (s.setEnv x).ip = s.ip := rfl
@[simp] theorem State.setEnv_mem (s : State) (x : List Move) : (s.setEnv x).mem = s.mem := rfl
@[simp] theorem State.setEnv_imageBase (s : State) (x : List Move) : (s.setEnv x).imageBase = s.imageBase := rfl
@[simp] theorem State.setEnv_image (s : State) (x : List Move) : (s.setEnv x).image = s.image := rfl
@[simp] theorem State.setEnv_memAdmit (s : State) (x : List Move) : (s.setEnv x).memAdmit = s.memAdmit := rfl
@[simp] theorem State.setEnv_signal (s : State) (x : List Move) : (s.setEnv x).signal = s.signal := rfl
@[simp] theorem State.setEnv_run (s : State) (x : List Move) : (s.setEnv x).run = s.run := rfl
@[simp] theorem State.setEnv_env (s : State) (x : List Move) : (s.setEnv x).env = x := rfl
@[simp] theorem State.setEnv_frees (s : State) (x : List Move) : (s.setEnv x).frees = s.frees := rfl

/-! ### `State.setFrees` -/

@[simp] theorem State.setFrees_params (s : State) (x : Nat) : (s.setFrees x).params = s.params := rfl
@[simp] theorem State.setFrees_slices (s : State) (x : Nat) : (s.setFrees x).slices = s.slices := rfl
@[simp] theorem State.setFrees_globals (s : State) (x : Nat) : (s.setFrees x).globals = s.globals := rfl
@[simp] theorem State.setFrees_gmau (s : State) (x : Nat) : (s.setFrees x).gmau = s.gmau := rfl
@[simp] theorem State.setFrees_ip (s : State) (x : Nat) : (s.setFrees x).ip = s.ip := rfl
@[simp] theorem State.setFrees_mem (s : State) (x : Nat) : (s.setFrees x).mem = s.mem := rfl
@[simp] theorem State.setFrees_imageBase (s : State) (x : Nat) : (s.setFrees x).imageBase = s.imageBase := rfl
@[simp] theorem State.setFrees_image (s : State) (x : Nat) : (s.setFrees x).image = s.image := rfl
@[simp] theorem State.setFrees_memAdmit (s : State) (x : Nat) : (s.setFrees x).memAdmit = s.memAdmit := rfl
@[simp] theorem State.setFrees_signal (s : State) (x : Nat) : (s.setFrees x).signal = s.signal := rfl
@[simp] theorem State.setFrees_run (s : State) (x : Nat) : (s.setFrees x).run = s.run := rfl
@[simp] theorem State.setFrees_env (s : State) (x : Nat) : (s.setFrees x).env = s.env := rfl
@[simp] theorem State.setFrees_frees (s : State) (x : Nat) : (s.setFrees x).frees = x := rfl

/-! ### `State.advance` -/

@[simp] theorem State.advance_params (s : State) : s.advance.params = s.params := rfl
@[simp] theorem State.advance_slices (s : State) : s.advance.slices = s.slices := rfl
@[simp] theorem State.advance_globals (s : State) : s.advance.globals = s.globals := rfl
@[simp] theorem State.advance_gmau (s : State) : s.advance.gmau = s.gmau := rfl
@[simp] theorem State.advance_ip (s : State) : s.advance.ip = s.ip + 4#32 := rfl
@[simp] theorem State.advance_mem (s : State) : s.advance.mem = s.mem := rfl
@[simp] theorem State.advance_imageBase (s : State) : s.advance.imageBase = s.imageBase := rfl
@[simp] theorem State.advance_image (s : State) : s.advance.image = s.image := rfl
@[simp] theorem State.advance_memAdmit (s : State) : s.advance.memAdmit = s.memAdmit := rfl
@[simp] theorem State.advance_signal (s : State) : s.advance.signal = s.signal := rfl
@[simp] theorem State.advance_run (s : State) : s.advance.run = s.run := rfl
@[simp] theorem State.advance_env (s : State) : s.advance.env = s.env := rfl
@[simp] theorem State.advance_frees (s : State) : s.advance.frees = s.frees := rfl

/-! ### `takeFault` -/

@[simp] theorem takeFault_params (f : Fault) (s : State) : (takeFault f s).params = s.params := rfl
@[simp] theorem takeFault_slices (f : Fault) (s : State) : (takeFault f s).slices = s.slices := rfl
@[simp] theorem takeFault_globals (f : Fault) (s : State) : (takeFault f s).globals = s.globals := rfl
@[simp] theorem takeFault_gmau (f : Fault) (s : State) : (takeFault f s).gmau = s.gmau := rfl
@[simp] theorem takeFault_ip (f : Fault) (s : State) : (takeFault f s).ip = s.ip := rfl
@[simp] theorem takeFault_mem (f : Fault) (s : State) : (takeFault f s).mem = s.mem := rfl
@[simp] theorem takeFault_imageBase (f : Fault) (s : State) : (takeFault f s).imageBase = s.imageBase := rfl
@[simp] theorem takeFault_image (f : Fault) (s : State) : (takeFault f s).image = s.image := rfl
@[simp] theorem takeFault_memAdmit (f : Fault) (s : State) : (takeFault f s).memAdmit = s.memAdmit := rfl
@[simp] theorem takeFault_signal (f : Fault) (s : State) : (takeFault f s).signal = s.signal := rfl
@[simp] theorem takeFault_run (f : Fault) (s : State) : (takeFault f s).run = .faulted f := rfl
@[simp] theorem takeFault_env (f : Fault) (s : State) : (takeFault f s).env = s.env := rfl
@[simp] theorem takeFault_frees (f : Fault) (s : State) : (takeFault f s).frees = s.frees := rfl

/-! ### `Slice.setRegs` -/

@[simp] theorem Slice.setRegs_regs (sl : Slice) (rf : RegFile) : (sl.setRegs rf).regs = rf := rfl
@[simp] theorem Slice.setRegs_t (sl : Slice) (rf : RegFile) : (sl.setRegs rf).t = sl.t := rfl
@[simp] theorem Slice.setRegs_tWritten (sl : Slice) (rf : RegFile) : (sl.setRegs rf).tWritten = sl.tWritten := rfl
@[simp] theorem Slice.setRegs_en (sl : Slice) (rf : RegFile) : (sl.setRegs rf).en = sl.en := rfl
@[simp] theorem Slice.setRegs_queue (sl : Slice) (rf : RegFile) : (sl.setRegs rf).queue = sl.queue := rfl

/-! ### `Slice.setT` -/

@[simp] theorem Slice.setT_regs (sl : Slice) (b : Bool) : (sl.setT b).regs = sl.regs := rfl
@[simp] theorem Slice.setT_t (sl : Slice) (b : Bool) : (sl.setT b).t = b := rfl
@[simp] theorem Slice.setT_tWritten (sl : Slice) (b : Bool) : (sl.setT b).tWritten = true := rfl
@[simp] theorem Slice.setT_en (sl : Slice) (b : Bool) : (sl.setT b).en = sl.en := rfl
@[simp] theorem Slice.setT_queue (sl : Slice) (b : Bool) : (sl.setT b).queue = sl.queue := rfl

/-! ### `Slice.setEn` -/

@[simp] theorem Slice.setEn_regs (sl : Slice) (b : Bool) : (sl.setEn b).regs = sl.regs := rfl
@[simp] theorem Slice.setEn_t (sl : Slice) (b : Bool) : (sl.setEn b).t = sl.t := rfl
@[simp] theorem Slice.setEn_tWritten (sl : Slice) (b : Bool) : (sl.setEn b).tWritten = sl.tWritten := rfl
@[simp] theorem Slice.setEn_en (sl : Slice) (b : Bool) : (sl.setEn b).en = b := rfl
@[simp] theorem Slice.setEn_queue (sl : Slice) (b : Bool) : (sl.setEn b).queue = sl.queue := rfl

/-! ### `Slice.setQueue` -/

@[simp] theorem Slice.setQueue_regs (sl : Slice) (q : List Request) : (sl.setQueue q).regs = sl.regs := rfl
@[simp] theorem Slice.setQueue_t (sl : Slice) (q : List Request) : (sl.setQueue q).t = sl.t := rfl
@[simp] theorem Slice.setQueue_tWritten (sl : Slice) (q : List Request) : (sl.setQueue q).tWritten = sl.tWritten := rfl
@[simp] theorem Slice.setQueue_en (sl : Slice) (q : List Request) : (sl.setQueue q).en = sl.en := rfl
@[simp] theorem Slice.setQueue_queue (sl : Slice) (q : List Request) : (sl.setQueue q).queue = q := rfl

/-! ### `Slice.setReg` -/

@[simp] theorem Slice.setReg_regs (sl : Slice) (n : RegNum) (v : Word) : (sl.setReg n v).regs = sl.regs.set n v := rfl
@[simp] theorem Slice.setReg_t (sl : Slice) (n : RegNum) (v : Word) : (sl.setReg n v).t = sl.t := rfl
@[simp] theorem Slice.setReg_tWritten (sl : Slice) (n : RegNum) (v : Word) : (sl.setReg n v).tWritten = sl.tWritten := rfl
@[simp] theorem Slice.setReg_en (sl : Slice) (n : RegNum) (v : Word) : (sl.setReg n v).en = sl.en := rfl
@[simp] theorem Slice.setReg_queue (sl : Slice) (n : RegNum) (v : Word) : (sl.setReg n v).queue = sl.queue := rfl

/-! ### Register sets -/

/-- A register reads what was written to it. -/
@[simp] theorem RegFile.get_set_same (rf : RegFile) (n : RegNum) (v : Word) : (rf.set n v).get n = v := by
  simp [RegFile.get, RegFile.set]

/-- Writing one register leaves the values of the others alone. -/
theorem RegFile.get_set_other (rf : RegFile) {n m : RegNum} (v : Word) (h : m ≠ n) :
    (rf.set n v).get m = rf.get m := by
  have h' : n.toNat ≠ m.toNat := fun e => h (BitVec.eq_of_toNat_eq e.symm)
  simp [RegFile.get, RegFile.set, h']

/-- A written register holds a value (R39). -/
@[simp] theorem RegFile.holds_set_same (rf : RegFile) (n : RegNum) (v : Word) : (rf.set n v).holds n = true := by
  simp [RegFile.holds, RegFile.set]

/-- Writing one register leaves the marks of the others alone. -/
theorem RegFile.holds_set_other (rf : RegFile) {n m : RegNum} (v : Word) (h : m ≠ n) :
    (rf.set n v).holds m = rf.holds m := by
  have h' : n.toNat ≠ m.toNat := fun e => h (BitVec.eq_of_toNat_eq e.symm)
  simp [RegFile.holds, RegFile.set, h']

end Sys2Proof.Machine
end

