-- ==== Sys2Proof/Laws/Ops.lean ====
section
/-! SUPPORT. Laws/Ops.lean: for each shared operation, once, everything it can do. -/

namespace Sys2Proof.Machine

/-! ## Checks -/

/-- A checked instruction takes effect exactly when its checks find no fault. -/
theorem checked_eq_next {f : Option Fault} {after t : State} :
    checked f after = .next t ↔ f = none ∧ t = after := by
  cases f with
  | none => simp [checked, eq_comm]
  | some f => simp [checked]

/-- A checked instruction faults exactly with the fault its checks find. -/
theorem checked_eq_fault {o : Option Fault} {after : State} {f : Fault} :
    checked o after = .fault f ↔ o = some f := by
  cases o <;> simp [checked]

/-- A checked instruction is never refused. -/
theorem checked_ne_refused {o : Option Fault} {after : State} {r : Refusal} :
    checked o after ≠ .refused r := by
  cases o <;> simp [checked]

/-- The pending check finds nothing when no named register is pending. -/
theorem pendingFault_eq_none {s : State} {named : List RegRef} :
    pendingFault s named = none ↔ ∀ r ∈ named, s.isPending r = false := by
  simp [pendingFault]

/-- What the pending check reports is a named, pending register. -/
theorem pendingFault_eq_some {s : State} {named : List RegRef} {f : Fault}
    (h : pendingFault s named = some f) :
    ∃ r ∈ named, s.isPending r = true ∧ f = .pendingAccess r := by
  simp only [pendingFault, Option.map_eq_some_iff] at h
  obtain ⟨r, hr, rfl⟩ := h
  exact ⟨r, List.mem_of_find?_eq_some hr, List.find?_some hr, rfl⟩

/-- The unwritten check finds nothing when everything read holds a value. -/
theorem unwrittenFault_eq_none {s : State} {reads : List ReadRef} :
    unwrittenFault s reads = none ↔ ∀ r ∈ reads, s.holdsValue r = true := by
  simp [unwrittenFault]

/-- What the unwritten check reports is read and holds no value. -/
theorem unwrittenFault_eq_some {s : State} {reads : List ReadRef} {f : Fault}
    (h : unwrittenFault s reads = some f) :
    ∃ r ∈ reads, s.holdsValue r = false ∧ f = .unwrittenRead r := by
  simp only [unwrittenFault, Option.map_eq_some_iff] at h
  obtain ⟨r, hr, rfl⟩ := h
  exact ⟨r, List.mem_of_find?_eq_some hr, by simpa using List.find?_some hr, rfl⟩

/-- The index check finds nothing when every number names a `G` register. -/
theorem indexFault_eq_none {ks : List Nat} : indexFault ks = none ↔ ∀ k ∈ ks, k ≤ 63 := by
  simp [indexFault]

/-- `CheckData` passes exactly the aligned, admitted addresses (R54, R56). -/
theorem dataFault_eq_none {s : State} {a : Word} :
    dataFault s a = none ↔ a.extractLsb' 0 2 = 0#2 ∧ s.admits a = true := by
  unfold dataFault
  split <;> simp_all

/-- The checks of a store pass exactly the aligned, admitted addresses outside the image (R57). -/
theorem storeFault_eq_none {s : State} {a : Word} :
    storeFault s a = none ↔ (a.extractLsb' 0 2 = 0#2 ∧ s.admits a = true) ∧ s.inImage a = false := by
  simp [storeFault, Option.or_eq_none_iff, dataFault_eq_none]

/-- The queue check passes when the queues are unbounded or have room (R66). -/
theorem overflowFault_eq_none {s : State} {us : List MauUnit} :
    overflowFault s us = none ↔
      ∀ depth, s.params.mauDepth = some depth → ∀ u ∈ us, (s.queueOf u).length < depth := by
  unfold overflowFault
  split
  · rename_i h; simp [h]
  · rename_i d h
    simp only [Option.map_eq_none_iff, List.find?_eq_none, decide_eq_true_eq, h, Option.some.injEq]
    constructor
    · rintro hu _ rfl u hm; have := hu u hm; omega
    · intro hu u hm; have := hu d rfl u hm; omega

/-! ## Slices -/

@[simp] theorem updateEnabled_length (f : Nat → Slice → Slice) (l : List Slice) :
    (updateEnabled f l).length = l.length := by
  simp [updateEnabled]

/-- `for each enabled i`: an enabled slice is replaced, a disabled one is left alone. -/
theorem updateEnabled_getElem? (f : Nat → Slice → Slice) (l : List Slice) (i : Nat) :
    (updateEnabled f l)[i]? = l[i]?.map fun sl => if sl.en then f i sl else sl := by
  simp [updateEnabled]

@[simp] theorem updateEvery_length (f : Nat → Slice → Slice) (l : List Slice) :
    (updateEvery f l).length = l.length := by
  simp [updateEvery]

/-- `for every slice i`: each slice is replaced. -/
theorem updateEvery_getElem? (f : Nat → Slice → Slice) (l : List Slice) (i : Nat) :
    (updateEvery f l)[i]? = l[i]?.map (f i) := by
  simp [updateEvery]

/-- The members of `enabled` (R10). -/
theorem mem_enabledIds {s : State} {i : Nat} : i ∈ s.enabledIds ↔ s.enabledAt i = true := by
  simp only [State.enabledIds, List.mem_filter, List.mem_range, and_iff_right_iff_imp]
  intro h
  unfold State.enabledAt at h
  split at h
  · rename_i sl hs; exact (List.getElem?_eq_some_iff.mp hs).1
  · cases h

/-- A slice is enabled when its record says so. -/
theorem enabledAt_of_getElem? {s : State} {i : Nat} {sl : Slice} (h : s.slices[i]? = some sl) :
    s.enabledAt i = sl.en := by
  simp [State.enabledAt, h]

/-! ## R200 -/

/-- What a register-to-register instruction can do (R200): it runs when no named register is pending and
every source holds a value, and then writes the destination and advances `ip`. -/
theorem runRegOp_eq_next {g : RegSet} {d : RegNum} {srcs : List RegNum} {f : RegFile → Word} {s t : State} :
    runRegOp g d srcs f s = .next t ↔
      (∀ r ∈ concernedRegs s g (d :: srcs), s.isPending r = false) ∧
      (∀ r ∈ concernedRegs s g srcs, s.holdsValue (.reg r) = true) ∧
      t = (writeSet s g d (fun _ sl => f sl.regs) (f s.globals)).advance := by
  unfold runRegOp
  rw [checked_eq_next, Option.or_eq_none_iff, pendingFault_eq_none, unwrittenFault_eq_none, and_assoc]
  simp

/-- The same for a function that may leave its value open (R233). -/
theorem runRegOpDraw_eq_next {g : RegSet} {d : RegNum} {srcs : List RegNum} {f : Word → RegFile → Word}
    {s t : State} :
    runRegOpDraw g d srcs f s = .next t ↔
      (∀ r ∈ concernedRegs s g (d :: srcs), s.isPending r = false) ∧
      (∀ r ∈ concernedRegs s g srcs, s.holdsValue (.reg r) = true) ∧
      t = ((writeSet s g d (fun i sl => f (Config.draw (s.frees + i)) sl.regs)
        (f (Config.draw s.frees) s.globals)).setFrees (s.frees + s.slices.length + 1)).advance := by
  unfold runRegOpDraw
  rw [checked_eq_next, Option.or_eq_none_iff, pendingFault_eq_none, unwrittenFault_eq_none, and_assoc]
  simp

/-- The only faults of a register-to-register instruction (R200, R256). -/
theorem runRegOp_fault {g : RegSet} {d : RegNum} {srcs : List RegNum} {f : RegFile → Word} {s : State} {e : Fault}
    (h : runRegOp g d srcs f s = .fault e) :
    (∃ r, e = .pendingAccess r) ∨ (∃ r, e = .unwrittenRead r) := by
  unfold runRegOp at h
  rw [checked_eq_fault, Option.or_eq_some_iff] at h
  rcases h with h | ⟨-, h⟩
  · obtain ⟨r, -, -, rfl⟩ := pendingFault_eq_some h; exact .inl ⟨r, rfl⟩
  · obtain ⟨r, -, -, rfl⟩ := unwrittenFault_eq_some h; exact .inr ⟨r, rfl⟩

/-- The same for a function that may leave its value open. -/
theorem runRegOpDraw_fault {g : RegSet} {d : RegNum} {srcs : List RegNum} {f : Word → RegFile → Word} {s : State}
    {e : Fault} (h : runRegOpDraw g d srcs f s = .fault e) :
    (∃ r, e = .pendingAccess r) ∨ (∃ r, e = .unwrittenRead r) := by
  unfold runRegOpDraw at h
  rw [checked_eq_fault, Option.or_eq_some_iff] at h
  rcases h with h | ⟨-, h⟩
  · obtain ⟨r, -, -, rfl⟩ := pendingFault_eq_some h; exact .inl ⟨r, rfl⟩
  · obtain ⟨r, -, -, rfl⟩ := unwrittenFault_eq_some h; exact .inr ⟨r, rfl⟩

/-! ## Queues -/

/-- A unit's queue after an update of that unit, where the unit exists. -/
theorem queueOf_setQueue_gmau (s : State) (q : List Request) : (s.setQueue .gmau q).queueOf .gmau = q := rfl

/-- Replacing an SMAU's queue replaces it for that slice alone. -/
theorem setQueue_smau_getElem? (s : State) (i j : Nat) (q : List Request) :
    (s.setQueue (.smau i) q).slices[j]? = s.slices[j]?.map fun sl => if i = j then sl.setQueue q else sl := by
  simp [State.setQueue, List.getElem?_modify]

/-- Replacing the queue of a unit that has one replaces it. -/
theorem queueOf_setQueue_self {s : State} {u : MauUnit} (h : s.queueOf u ≠ []) (q : List Request) :
    (s.setQueue u q).queueOf u = q := by
  cases u with
  | gmau => rfl
  | smau i =>
    rcases hs : s.slices[i]? with _ | sl
    · simp [State.queueOf, hs] at h
    · simp [State.queueOf, setQueue_smau_getElem?, hs, Slice.setQueue]

/-- Replacing the queue of a unit leaves the others alone. -/
theorem queueOf_setQueue_other {s : State} {u v : MauUnit} (h : v ≠ u) (q : List Request) :
    (s.setQueue u q).queueOf v = s.queueOf v := by
  cases u <;> cases v <;> first | rfl | skip
  · rename_i i j
    have : i ≠ j := fun e => h (e ▸ rfl)
    simp only [State.queueOf, setQueue_smau_getElem?, this, if_false]
    cases s.slices[j]? <;> rfl
  · exact absurd rfl h

/-- Performing a request leaves everything but a queue and memory alone (R62). -/
theorem performRequest_frame (s : State) (u : MauUnit) (k : Nat) (r : Request) :
    (performRequest s u k r).params = s.params ∧ (performRequest s u k r).globals = s.globals ∧
    (performRequest s u k r).ip = s.ip ∧ (performRequest s u k r).run = s.run ∧
    (performRequest s u k r).signal = s.signal ∧ (performRequest s u k r).image = s.image ∧
    (performRequest s u k r).imageBase = s.imageBase ∧ (performRequest s u k r).memAdmit = s.memAdmit ∧
    (performRequest s u k r).env = s.env ∧ (performRequest s u k r).frees = s.frees := by
  cases r <;> cases u <;> simp [performRequest, State.setQueue]

/-- Performing request `k` of a unit marks it performed in its queue, and leaves the other queues alone (R62). -/
theorem performRequest_queueOf {s : State} {u : MauUnit} {k : Nat} {r : Request} (h : (s.queueOf u)[k]? = some r) :
    ∃ r', r'.performed = true ∧ (performRequest s u k r).queueOf u = (s.queueOf u).set k r' ∧
      ∀ v, v ≠ u → (performRequest s u k r).queueOf v = s.queueOf v := by
  have hne : s.queueOf u ≠ [] := fun e => by simp [e] at h
  have hm : ∀ (t : State) (m : Memory) (v : MauUnit), (t.setMem m).queueOf v = t.queueOf v := fun t m v => by
    cases v <;> rfl
  cases r with
  | load n a d => exact ⟨_, rfl, queueOf_setQueue_self hne _, fun v hv => queueOf_setQueue_other hv _⟩
  | store a v d =>
    exact ⟨_, rfl, (hm _ _ _).trans (queueOf_setQueue_self hne _), fun w hw =>
      (hm _ _ _).trans (queueOf_setQueue_other hw _)⟩

/-- Performing a request keeps memory canonical. -/
theorem performRequest_wf {s : State} (h : s.mem.wf = true) (u : MauUnit) (k : Nat) (r : Request) :
    (performRequest s u k r).mem.wf = true := by
  cases r with
  | load n a d => cases u <;> simpa [performRequest, State.setQueue] using h
  | store a v d => simpa [performRequest] using Memory.writeWord_wf h s.params.byteOrder a v

/-- What a unit's move can do (R62): nothing, or perform one request that it may perform. -/
theorem mauPerform_cases (s : State) (u : MauUnit) (k : Nat) :
    mauPerform s u k = s ∨
    ∃ r, (s.queueOf u)[k]? = some r ∧ mayPerform s.params.mauOrder (s.queueOf u) k = true ∧
      mauPerform s u k = performRequest s u k r := by
  unfold mauPerform
  split
  · split
    · rename_i hm r hr; exact .inr ⟨_, by assumption, by assumption, rfl⟩
    · exact .inl rfl
  · exact .inl rfl

/-- A request that may be performed is not performed yet (R62). -/
theorem mayPerform_unperformed {order : MauOrder} {q : List Request} {k : Nat} (h : mayPerform order q k = true) :
    ∃ r, q[k]? = some r ∧ r.performed = false := by
  unfold mayPerform at h
  split at h
  · cases h
  · rename_i r hr; simp only [Bool.and_eq_true, Bool.not_eq_true'] at h; exact ⟨r, hr, h.1⟩

/-- A position of a request that may be performed is one of the queue. -/
theorem mayPerform_lt {order : MauOrder} {q : List Request} {k : Nat} (h : mayPerform order q k = true) :
    k < q.length := by
  obtain ⟨r, hr, -⟩ := mayPerform_unperformed h
  exact (List.getElem?_eq_some_iff.mp hr).1

/-- The requests of some units that may be performed (R62). -/
theorem mem_performableOf {s : State} {us : List MauUnit} {u : MauUnit} {k : Nat} :
    (u, k) ∈ s.performableOf us ↔ u ∈ us ∧ mayPerform s.params.mauOrder (s.queueOf u) k = true := by
  simp only [State.performableOf, List.mem_flatMap, List.mem_map, List.mem_filter, List.mem_range, Prod.mk.injEq]
  constructor
  · rintro ⟨v, hv, j, hj, rfl, rfl⟩; exact ⟨hv, hj.2⟩
  · rintro ⟨hu, hk⟩; exact ⟨u, hu, k, ⟨mayPerform_lt hk, hk⟩, rfl, rfl⟩

/-- The requests a held `COMMIT` may see performed belong to concerned units (R63). -/
theorem mem_performable {s : State} {u : MauUnit} {k : Nat} (h : (u, k) ∈ s.performable) :
    u ∈ s.concernedUnits ∧ mayPerform s.params.mauOrder (s.queueOf u) k = true := mem_performableOf.mp h

/-- In a queue with an unperformed request some request at or before it may be performed. -/
theorem exists_mayPerform (order : MauOrder) {q : List Request} {k : Nat} {r : Request} (hk : q[k]? = some r)
    (hr : r.performed = false) : ∃ j, j ≤ k ∧ mayPerform order q j = true := by
  induction k using Nat.strong_induction_on generalizing r with
  | _ k ih =>
    by_cases h : mayPerform order q k = true
    · exact ⟨k, le_rfl, h⟩
    · cases order with
      | any => simp [mayPerform, hk, hr] at h
      | fifo =>
        have : ∃ r' ∈ q.take k, r'.performed = false := by simpa [mayPerform, hk, hr] using h
        obtain ⟨r', hm, hr'⟩ := this
        obtain ⟨j, hj⟩ := List.mem_iff_getElem?.mp hm
        rw [List.getElem?_take] at hj
        split at hj
        · rename_i hlt
          obtain ⟨i, hi, hp⟩ := ih j hlt hj hr'
          exact ⟨i, by omega, hp⟩
        · cases hj

/-- What a held `COMMIT` does (log 11): nothing, or one performable request is performed and the free-value
counter may move. -/
theorem performOne_cases (s : State) :
    (s.performable = [] ∧ performOne s = s) ∨
    ∃ u k n, (u, k) ∈ s.performable ∧ performOne s = (mauPerform s u k).setFrees n := by
  unfold performOne
  split
  · rename_i h; exact .inl ⟨h, rfl⟩
  · rename_i c h
    refine .inr ⟨c.1, c.2, (mauPerform s c.1 c.2).frees, by simp [h], ?_⟩
    simp [State.setFrees]
  · rename_i c d rest h
    right
    dsimp only
    rcases hp : (c :: d :: rest)[Config.mauPick s.frees % (c :: d :: rest).length]? with _ | p
    · exact ⟨c.1, c.2, s.frees + 1, by simp [h], by simp⟩
    · refine ⟨p.1, p.2, s.frees + 1, ?_, by simp⟩
      rw [h]; exact List.mem_of_getElem? hp

/-! ## Taking a fault, settling, moves -/

/-- What `settle` answers with a next state: the meaning's own, or the fault taken (R252). -/
theorem settle_eq_next {s t : State} {r : Result} :
    settle s r = .next t ↔ r = .next t ∨ ∃ f, r = .fault f ∧ t = takeFault f s := by
  cases r <;> simp [settle, eq_comm]

/-- What the core's turn can answer with a next state (R253). -/
theorem runCore_eq_next {s t : State} (h : runCore s = .next t) :
    (s.fetch = none ∧ t = takeFault (.fetchFault s.ip) s) ∨
    (∃ w e, s.fetch = some w ∧ s.decode w = .error e ∧ t = takeFault (.illegalInstruction s.ip w) s) ∨
    (∃ w i, s.fetch = some w ∧ s.decode w = .ok i ∧ exec i s = .next t) ∨
    (∃ w i f, s.fetch = some w ∧ s.decode w = .ok i ∧ exec i s = .fault f ∧ t = takeFault f s) := by
  unfold runCore at h
  split at h
  · rename_i hf; cases h; exact .inl ⟨hf, rfl⟩
  · rename_i w hf
    split at h
    · rename_i e he; cases h; exact .inr (.inl ⟨w, e, hf, he, rfl⟩)
    · rename_i i hi
      rcases settle_eq_next.mp h with h | ⟨f, h, ht⟩
      · exact .inr (.inr (.inl ⟨w, i, hf, hi, h⟩))
      · exact .inr (.inr (.inr ⟨w, i, f, hf, hi, h, ht⟩))

/-- What the core's turn can do: it runs, or it takes no step (R253 step 1). -/
theorem coreTurn_eq_next {s t : State} (h : coreTurn s = .next t) :
    (s.run = .running ∧ runCore s = .next t) ∨ (s.run ≠ .running ∧ t = s) := by
  unfold coreTurn at h
  split at h
  · exact .inl ⟨by assumption, h⟩
  · cases h
  all_goals cases h; exact .inr ⟨by simp_all, rfl⟩

/-! ## Plans -/

/-- The members of a list of moves into which requests were put. -/
theorem mem_insertRequests {m : Move} {l : List Move} {rs : List (MauUnit × Nat)} {c : Nat} :
    m ∈ insertRequests c rs l ↔ m ∈ l ∨ ∃ u k, (u, k) ∈ rs ∧ m = .mau u k := by
  induction rs generalizing c with
  | nil => simp [insertRequests]
  | cons x rs ih =>
    obtain ⟨u, k⟩ := x
    simp only [insertRequests, List.mem_cons, Prod.mk.injEq]
    rw [List.mem_insertIdx (Nat.le_of_lt_succ (Nat.mod_lt _ (Nat.succ_pos _))), ih]
    constructor
    · rintro (rfl | h | ⟨v, j, h, rfl⟩)
      · exact .inr ⟨u, k, .inl ⟨rfl, rfl⟩, rfl⟩
      · exact .inl h
      · exact .inr ⟨v, j, .inr h, rfl⟩
    · rintro (h | ⟨v, j, ⟨rfl, rfl⟩ | h, rfl⟩)
      · exact .inr (.inl h)
      · exact .inl rfl
      · exact .inr (.inr ⟨v, j, h, rfl⟩)

/-- A plan has a move for every request that may be performed. -/
theorem mem_plan {s : State} {u : MauUnit} {k : Nat} (hu : u ∈ s.allUnits)
    (hk : mayPerform s.params.mauOrder (s.queueOf u) k = true) : .mau u k ∈ s.plan :=
  mem_insertRequests.mpr (.inr ⟨u, k, mem_performableOf.mpr ⟨hu, hk⟩, rfl⟩)

/-- A plan holds moves of the core and the units only. -/
theorem plan_moves {s : State} {m : Move} (h : m ∈ s.plan) : m = .core ∨ ∃ u k, m = .mau u k := by
  rcases mem_insertRequests.mp h with h | ⟨u, k, -, rfl⟩
  · obtain ⟨j, -, rfl⟩ := List.mem_map.mp h
    unfold planned
    split
    · exact .inl rfl
    · exact .inr ⟨_, _, rfl⟩
  · exact .inr ⟨u, k, rfl⟩

/-- Every unit that has a queued request is one of `allUnits`. -/
theorem mem_allUnits_of_mem {s : State} {u : MauUnit} {r : Request} (h : r ∈ s.queueOf u) : u ∈ s.allUnits := by
  cases u with
  | gmau => simp [State.allUnits]
  | smau i =>
    rcases hs : s.slices[i]? with _ | sl
    · simp [State.queueOf, hs] at h
    · simpa [State.allUnits, State.allIds] using (List.getElem?_eq_some_iff.mp hs).1

/-- Every request is performed, in the terms of the queues. -/
theorem allPerformed_iff {s : State} :
    s.allPerformed = true ↔ ∀ u, ∀ r ∈ s.queueOf u, r.performed = true := by
  simp only [State.allPerformed, List.all_eq_true]
  exact ⟨fun h u r hr => h u (mem_allUnits_of_mem hr) r hr, fun h u _ r hr => h u r hr⟩

/-- While a request is unperformed, a plan is not empty. -/
theorem plan_ne_nil {s : State} (h : s.allPerformed = false) : s.plan ≠ [] := by
  have : ¬ ∀ u, ∀ r ∈ s.queueOf u, r.performed = true := by rw [← allPerformed_iff, h]; simp
  simp only [not_forall, Bool.not_eq_true] at this
  obtain ⟨u, r, hm, hr⟩ := this
  obtain ⟨k, hk⟩ := List.mem_iff_getElem?.mp hm
  obtain ⟨j, -, hj⟩ := exists_mayPerform s.params.mauOrder hk hr
  exact List.ne_nil_of_mem (mem_plan (mem_allUnits_of_mem hm) hj)

/-! ## Moves -/

/-- What scheduling does: nothing, or it puts a plan in the empty list (R292). -/
theorem scheduled_cases (s : State) :
    (s.scheduled = s ∧ (s.env ≠ [] ∨ s.allPerformed = true)) ∨
    (s.env = [] ∧ s.allPerformed = false ∧ s.scheduled = (s.setEnv s.plan).setFrees (s.frees + s.plan.length)) := by
  unfold State.scheduled
  split
  · rename_i he
    cases hp : s.allPerformed
    · exact .inr ⟨he, rfl, by simp⟩
    · exact .inl ⟨by simp, .inr rfl⟩
  · rename_i he; exact .inl ⟨rfl, .inl (by simp [he])⟩

/-- A state with moves in its list stays as it is. -/
theorem scheduled_cons {s : State} {m : Move} {rest : List Move} (h : s.env = m :: rest) : s.scheduled = s := by
  unfold State.scheduled; rw [h]

/-- A state with every request performed stays as it is. -/
theorem scheduled_performed {s : State} (h : s.allPerformed = true) : s.scheduled = s := by
  unfold State.scheduled; split <;> simp [h]

/-- Scheduling changes the list and the counter only. -/
theorem scheduled_frame (s : State) : ∃ l n, s.scheduled = (s.setEnv l).setFrees n := by
  rcases scheduled_cases s with ⟨h, -⟩ | ⟨-, -, h⟩
  · exact ⟨s.env, s.frees, h⟩
  · exact ⟨_, _, h⟩

/-- Scheduling once is enough. -/
theorem scheduled_scheduled (s : State) : s.scheduled.scheduled = s.scheduled := by
  rcases scheduled_cases s with ⟨h, -⟩ | ⟨-, hp, h⟩
  · rw [h, h]
  · obtain ⟨m, rest, hm⟩ := List.exists_cons_of_ne_nil (plan_ne_nil hp)
    exact scheduled_cons (m := m) (rest := rest) (by rw [h]; simpa using hm)

/-- A step is the step of the scheduled state. -/
theorem nextMove_scheduled (s : State) : nextMove s.scheduled = nextMove s := by
  unfold nextMove; rw [scheduled_scheduled]

/-- What one step can do: the core's turn, or a unit's or the host's move (R21, R263), each as the list of moves
says after scheduling. -/
theorem nextMove_eq_next {s t : State} (h : nextMove s = .next t) :
    (∃ e, (s.scheduled.env = [] ∧ e = [] ∨ s.scheduled.env = .core :: e) ∧
      coreTurn (s.scheduled.setEnv e) = .next t) ∨
    (∃ e u k, s.scheduled.env = .mau u k :: e ∧ t = mauPerform (s.scheduled.setEnv e) u k) ∨
    (∃ e m, s.env = .host m :: e ∧ t = hostMove m (s.setEnv e)) := by
  unfold nextMove at h
  split at h
  · rename_i he
    refine .inl ⟨[], .inl ⟨he, rfl⟩, ?_⟩
    rw [← h]; congr 1; generalize s.scheduled = s' at *; cases s'; simp_all [State.setEnv]
  · rename_i m rest he
    unfold takeMove at h
    split at h
    · exact .inl ⟨rest, .inr he, h⟩
    · cases h; exact .inr (.inl ⟨rest, _, _, he, rfl⟩)
    · rename_i hm
      cases h
      rcases scheduled_cases s with ⟨hs, -⟩ | ⟨-, -, hs⟩
      · exact .inr (.inr ⟨rest, hm, hs ▸ he, by rw [hs]⟩)
      · have : Move.host hm ∈ s.plan := by rw [hs] at he; simp at he; simp [he]
        rcases plan_moves this with h | ⟨_, _, h⟩ <;> cases h

/-- When the core has its turn, the step is that turn (R253). -/
theorem nextMove_core {s : State} {e : List Move}
    (h : s.env = .core :: e ∨ (s.env = [] ∧ e = [] ∧ s.allPerformed = true)) :
    nextMove s = coreTurn (s.setEnv e) := by
  unfold nextMove
  rcases h with h | ⟨h, rfl, hp⟩
  · rw [scheduled_cons h, h]; rfl
  · rw [scheduled_performed hp, h]; cases s; simp_all [State.setEnv]

end Sys2Proof.Machine
end

