-- ==== Sys2Proof/Laws/Effects.lean ====
section
/-! SUPPORT. Laws/Effects.lean: the shared operations in the terms of Safety.lean, for the statements about
results and frames. -/

namespace Sys2Proof.Machine

/-! ## Register sets -/

/-- Writing register `d` changes register `d` alone. -/
theorem RegFile.set_change {P : Word → Prop} {rf : RegFile} {d : RegNum} {v : Word} (h : P v) :
    RegChange P d rf (rf.set d v) :=
  ⟨by simpa using h, by simp, fun _ hn => ⟨rf.get_set_other v hn, rf.holds_set_other v hn⟩⟩

/-! ## Slices -/

/-- A slice-wise relation after `for each enabled i`. -/
theorem eachSlice_updateEnabled {s t : State} {f : Nat → Slice → Slice} {R : Nat → Slice → Slice → Prop}
    (ht : t.slices = updateEnabled f s.slices)
    (h : ∀ i sl, s.slices[i]? = some sl → R i sl (if sl.en then f i sl else sl)) : EachSlice R s t := by
  refine ⟨by simp [ht], fun i sl sl' h1 h2 => ?_⟩
  rw [ht, updateEnabled_getElem?, h1] at h2
  cases h2; exact h i sl h1

/-- A slice-wise relation after an update of every slice. -/
theorem eachSlice_updateEvery {s t : State} {f : Nat → Slice → Slice} {R : Nat → Slice → Slice → Prop}
    (ht : t.slices = updateEvery f s.slices) (h : ∀ i sl, s.slices[i]? = some sl → R i sl (f i sl)) :
    EachSlice R s t := by
  refine ⟨by simp [ht], fun i sl sl' h1 h2 => ?_⟩
  rw [ht, updateEvery_getElem?, h1] at h2
  cases h2; exact h i sl h1

/-- A slice-wise relation that every slice has with itself, where no slice changes. -/
theorem eachSlice_refl {s t : State} {R : Nat → Slice → Slice → Prop} (ht : t.slices = s.slices)
    (h : ∀ i sl, s.slices[i]? = some sl → R i sl sl) : EachSlice R s t := by
  refine ⟨by rw [ht], fun i sl sl' h1 h2 => ?_⟩
  rw [ht, h1] at h2
  cases h2; exact h i sl h1

/-! ## Writing a set -/

/-- Writing register `d` of a set and advancing is the whole effect `WritesReg`, whatever becomes of the
free-value counter. -/
theorem writeSet_writes {s t : State} {g : RegSet} {d : RegNum} {fl : Nat → Slice → Word} {fg : Word}
    {P : Nat → RegFile → Word → Prop} {n : Nat}
    (ht : t = ((writeSet s g d fl fg).setFrees n).advance)
    (hl : g = .slice → ∀ i sl, s.slices[i]? = some sl → sl.en = true → P i sl.regs (fl i sl))
    (hg : g = .global → P 0 s.globals fg) : WritesReg s t g d P := by
  subst ht
  cases g with
  | slice =>
    refine ⟨rfl, ⟨rfl, rfl, rfl, rfl, rfl, rfl, rfl, fun _ => rfl⟩, rfl, rfl, ?_⟩
    refine eachSlice_updateEnabled (f := fun i sl => sl.setReg d (fl i sl)) rfl fun i sl hsl => ?_
    split
    · rename_i hen
      exact ⟨⟨rfl, rfl, rfl, rfl⟩, RegFile.set_change (hl rfl i sl hsl hen)⟩
    · exact ⟨⟨rfl, rfl, rfl, rfl⟩, rfl⟩
  | global => exact ⟨rfl, ⟨rfl, rfl, rfl, rfl, rfl, rfl, rfl, fun _ => rfl⟩, rfl, rfl, RegFile.set_change (hg rfl)⟩

/-- A register-to-register instruction completes when its checks pass, and writes its function's value
(R200). -/
theorem runRegOp_completes {s : State} {g : RegSet} {d : RegNum} {srcs : List RegNum} {f : RegFile → Word}
    {P : Nat → RegFile → Word → Prop} (h : RegsReady s g (d :: srcs) srcs) (hv : ∀ i rf, P i rf (f rf)) :
    ∃ t, runRegOp g d srcs f s = .next t ∧ WritesReg s t g d P :=
  ⟨_, runRegOp_eq_next.mpr ⟨h.1, fun r hr => h.2 _ (List.mem_map.mpr ⟨r, hr, rfl⟩), rfl⟩,
    writeSet_writes (n := s.frees) (by cases g <;> rfl) (fun _ _ _ _ _ => hv _ _) fun _ => hv _ _⟩

/-- The same where the value may be open (R233): it completes, and the value is one the function gives for
some free value. -/
theorem runRegOpDraw_completes {s : State} {g : RegSet} {d : RegNum} {srcs : List RegNum}
    {f : Word → RegFile → Word} {P : Nat → RegFile → Word → Prop} (h : RegsReady s g (d :: srcs) srcs)
    (hv : ∀ free i rf, P i rf (f free rf)) :
    ∃ t, runRegOpDraw g d srcs f s = .next t ∧ WritesReg s t g d P :=
  ⟨_, runRegOpDraw_eq_next.mpr ⟨h.1, fun r hr => h.2 _ (List.mem_map.mpr ⟨r, hr, rfl⟩), rfl⟩,
    writeSet_writes rfl (fun _ _ _ _ _ => hv _ _ _) fun _ => hv _ _ _⟩

/-! ## Masks (R32) -/

/-- Bit `i` of a mask is the `i`-th Boolean; bits past the list are 0. -/
theorem maskOf_getLsbD {i : Nat} (hi : i < 32) : ∀ l : List Bool, (maskOf l).getLsbD i = l.getD i false
  | [] => by simp [maskOf]
  | b :: rest => by
    unfold maskOf
    cases i with
    | zero => cases b <;> simp
    | succ j =>
      have ih := maskOf_getLsbD (i := j) (by omega) rest
      rw [BitVec.getLsbD_eq_getElem (by omega), List.getD_eq_getElem?_getD] at ih
      cases b <;> simp [hi, ih]

/-- Bit `i` of `ExecMask` is the enable bit of Slice `i` (R10). -/
theorem execMask_getLsbD (s : State) {i : Nat} (hi : i < 32) : s.execMask.getLsbD i = s.enabledAt i := by
  rw [State.execMask, maskOf_getLsbD hi, List.getD_eq_getElem?_getD, List.getElem?_map, State.enabledAt]
  cases s.slices[i]? <;> rfl

/-- Bit `i` of the mask of the `T` flags is the flag of Slice `i` (R32). -/
theorem tMask_getLsbD (s : State) {i : Nat} (hi : i < 32) : s.tMask.getLsbD i = s.flagT i := by
  rw [State.tMask, maskOf_getLsbD hi, List.getD_eq_getElem?_getD, List.getElem?_map, State.flagT]
  cases s.slices[i]? <;> rfl

/-- Slice `i` is enabled only if there is one. -/
theorem lt_of_enabledAt {s : State} {i : Nat} (h : s.enabledAt i = true) : i < s.slices.length := by
  unfold State.enabledAt at h
  split at h
  · rename_i sl hs; exact (List.getElem?_eq_some_iff.mp hs).1
  · cases h

/-- `ExecMask` is 0 exactly when no slice is enabled (R7: at most 32 slices). -/
theorem execMask_eq_zero {s : State} (h : s.slices.length ≤ 32) :
    s.execMask = 0#32 ↔ ∀ i, s.enabledAt i = false := by
  constructor
  · intro h0 i
    by_contra hc
    have hi := lt_of_enabledAt (Bool.eq_true_of_not_eq_false hc)
    have := execMask_getLsbD s (show i < 32 by omega)
    simp_all
  · intro ha
    apply BitVec.eq_of_getLsbD_eq
    intro i hi
    rw [execMask_getLsbD s hi, ha i]; simp

/-! ## The lowest slice that fails a check (R253) -/

/-- The first member of a rising list with a property is the least one. -/
theorem find?_of_lowest {p : Nat → Bool} {x : Nat} :
    ∀ {l : List Nat}, l.Pairwise (· < ·) → x ∈ l → p x = true → (∀ y ∈ l, y < x → p y = false) → l.find? p = some x
  | [], _, h, _, _ => by cases h
  | a :: l, hs, hx, hp, hl => by
    rw [List.pairwise_cons] at hs
    rcases List.mem_cons.mp hx with rfl | hx
    · simp [hp]
    · have ha : p a = false := hl a (by simp) (hs.1 x hx)
      rw [List.find?_cons_of_neg (by simp [ha])]
      exact find?_of_lowest hs.2 hx hp fun y hy => hl y (by simp [hy])

/-- The enabled slices are listed in ascending order (R10). -/
theorem enabledIds_rising (s : State) : s.enabledIds.Pairwise (· < ·) :=
  List.Pairwise.filter _ List.pairwise_lt_range

/-! ## Checks -/

/-- The register checks pass exactly when `ListReady` holds (R253 step 5). -/
theorem registerChecks_eq_none {s : State} {named : List RegRef} {reads : List ReadRef} :
    (pendingFault s named).or (unwrittenFault s reads) = none ↔ ListReady s named reads := by
  rw [Option.or_eq_none_iff, pendingFault_eq_none, unwrittenFault_eq_none]

/-- What the register checks report when `ListReady` fails (R253 step 5). -/
theorem registerChecks_fault {s : State} {named : List RegRef} {reads : List ReadRef}
    (h : ¬ ListReady s named reads) :
    ∃ f, (pendingFault s named).or (unwrittenFault s reads) = some f ∧ ListFault s named reads f := by
  rcases hp : pendingFault s named with _ | f
  · rcases hu : unwrittenFault s reads with _ | f
    · exact absurd ⟨pendingFault_eq_none.mp hp, unwrittenFault_eq_none.mp hu⟩ h
    · obtain ⟨r, hr, hn, rfl⟩ := unwrittenFault_eq_some hu
      exact ⟨_, rfl, .inr ⟨pendingFault_eq_none.mp hp, r, hr, hn, rfl⟩⟩
  · obtain ⟨r, hr, hn, rfl⟩ := pendingFault_eq_some hp
    exact ⟨_, rfl, .inl ⟨r, hr, hn, rfl⟩⟩

/-- A meaning that checks its registers first, and may make the checks `o` after them, faults as the register
checks say (R253). -/
theorem faultsUnless_of_checked {i : Instr} {s after : State} {named : List RegRef} {reads : List ReadRef}
    {o : Option Fault}
    (h : exec i s = checked (((pendingFault s named).or (unwrittenFault s reads)).or o) after) :
    FaultsUnless i s named reads := by
  intro hn
  obtain ⟨f, hf, hl⟩ := registerChecks_fault hn
  exact ⟨f, by rw [h, hf]; rfl, hl⟩

/-! ## Branches -/

/-- The target of a branch of format `B23`. -/
theorem branchTo_b23 {s : State} {b : BranchOp} (h : s.params.opcodeMap.ownBranch b = false) (off : BitVec 23) :
    s.branchTo b off = branchTarget s.ip off := by simp [State.branchTo, h]

/-- The target of a branch with an operand form of its own. -/
theorem branchTo_own {s : State} {b : BranchOp} (h : s.params.opcodeMap.ownBranch b = true) (off : BitVec 23) :
    s.branchTo b off = Config.branchWord b off s.ip ++ 0#2 := by simp [State.branchTo, h]

/-! ## Fields of `NUM` -/

/-- With the default body the value is what `P` says of it; with the machine's own it is that function's. -/
theorem numValue_of {s : State} {n : NumField} {operands : List Word} {v : Word} {P : Prop}
    (hd : s.params.ownNum n = false → P)
    (ho : s.params.ownNum n = true → v = Config.numBody n s.params.qfrac operands) :
    NumValue s n operands v P := by
  unfold NumValue; split
  · exact ho ‹_›
  · exact hd (Bool.eq_false_iff.mpr ‹_›)

theorem numValueFree_of {s : State} {n : NumField} {operands : List Word} {v free : Word} {P : Prop}
    (hd : s.params.ownNum n = false → P)
    (ho : s.params.ownNum n = true → v = Config.numBody n s.params.qfrac (free :: operands)) :
    NumValueFree s n operands v P := by
  unfold NumValueFree; split
  · exact ⟨free, ho ‹_›⟩
  · exact hd (Bool.eq_false_iff.mpr ‹_›)

end Sys2Proof.Machine
end

