-- ==== Sys2Proof/Laws/PerInstr.lean ====
section
/-! SUPPORT. Laws/PerInstr.lean: statements about every instruction as syntax, one lemma per constructor. -/

namespace Sys2Proof

/-- The 9-bit opcode of an instruction, the column `opcode` of R85. -/
def opcodeOf : Instr → BitVec 9
  | .mov _ _ _ _ => 0x000#9
  | .mvg _ _ _ => 0x001#9
  | .mvge _ _ _ => 0x002#9
  | .mvi _ _ _ _ => 0x003#9
  | .relpc _ _ _ => 0x004#9
  | .mvs _ => 0x005#9
  | .ld _ _ _ => 0x006#9
  | .sampr _ _ _ _ => 0x007#9
  | .sampc _ _ _ _ => 0x008#9
  | .st _ _ _ _ => 0x009#9
  | .commit => 0x00A#9
  | .discard => 0x00B#9
  | .ent => 0x020#9
  | .enm _ => 0x021#9
  | .tmst _ => 0x022#9
  | .emst _ => 0x023#9
  | .mskl _ => 0x024#9
  | .ldt _ => 0x025#9
  | .tst _ _ _ _ _ => 0x026#9
  | .sel _ _ _ => 0x027#9
  | .br _ => 0x028#9
  | .ben _ => 0x029#9
  | .bnen _ => 0x02A#9
  | .sig => 0x02B#9
  | .nop => 0x02C#9
  | .and _ _ _ _ => 0x040#9
  | .or _ _ _ _ => 0x041#9
  | .xor _ _ _ _ => 0x042#9
  | .not _ _ _ => 0x043#9
  | .lnot _ _ _ => 0x044#9
  | .lbool _ _ _ => 0x045#9
  | .pcnt _ _ _ => 0x046#9
  | .bits _ _ _ => 0x047#9
  | .be _ _ _ _ => 0x048#9
  | .bs _ _ _ _ => 0x049#9
  | .bc _ _ _ _ => 0x04A#9
  | .lsr _ _ _ _ => 0x04B#9
  | .lsl _ _ _ _ => 0x04C#9
  | .asr _ _ _ _ => 0x04D#9
  | .rev _ _ _ => 0x04E#9
  | .revh _ _ _ => 0x04F#9
  | .revl _ _ _ => 0x050#9
  | .ffs _ _ _ => 0x051#9
  | .rthl _ _ _ => 0x052#9
  | .rthh _ _ _ => 0x053#9
  | .add _ _ _ _ => 0x060#9
  | .sub _ _ _ _ => 0x061#9
  | .umuli _ _ _ _ => 0x062#9
  | .smuli _ _ _ _ => 0x063#9
  | .mulq _ _ _ _ => 0x064#9
  | .ufmai _ _ _ _ => 0x065#9
  | .sfmai _ _ _ _ => 0x066#9
  | .macq _ _ _ _ => 0x067#9
  | .udivi _ _ _ _ => 0x068#9
  | .sdivi _ _ _ _ => 0x069#9
  | .divq _ _ _ _ => 0x06A#9
  | .urem _ _ _ _ => 0x06B#9
  | .rcpq _ _ _ => 0x06C#9
  | .sqrtq _ _ _ => 0x06D#9
  | .abs _ _ _ => 0x06E#9
  | .neg _ _ _ => 0x06F#9
  | .sxt _ _ _ => 0x070#9
  | .ufloor _ _ _ => 0x071#9
  | .sfloor _ _ _ => 0x072#9
  | .uceil _ _ _ => 0x073#9
  | .sceil _ _ _ => 0x074#9
  | .round _ _ _ => 0x075#9
  | .tild _ => 0x080#9
  | .tist _ => 0x081#9
  | .pld _ => 0x082#9
  | .pst _ => 0x083#9
  | .tofs _ => 0x084#9
  | .tofl _ => 0x085#9
  | .tril _ => 0x086#9
  | .baryp _ => 0x087#9

/-- The top nine bits of a word are its opcode (R81). -/
theorem wordOf_opcode (op : BitVec 9) (p : BitVec 23) : (wordOf op p).extractLsb' 23 9 = op := by
  apply BitVec.eq_of_getLsbD_eq
  intro i hi
  simp only [wordOf, BitVec.getLsbD_extractLsb', BitVec.getLsbD_append, hi]
  simp

/-- The low 23 bits of a word are its parameters (R81). -/
theorem wordOf_params (op : BitVec 9) (p : BitVec 23) : (wordOf op p).extractLsb' 0 23 = p := by
  apply BitVec.eq_of_getLsbD_eq
  intro i hi
  simp only [wordOf, BitVec.getLsbD_extractLsb', BitVec.getLsbD_append, hi]
  simp [hi]

/-- The opcode of R85 stands at `w[31:23]` of an instruction's word, whatever its operands (R81). -/
def Laws.OpcodeAtTop.Statement (i : Instr) : Prop := (encode i).extractLsb' 23 9 = opcodeOf i

theorem Laws.OpcodeAtTop.mov (gd gs : RegSet) (d rs : RegNum) : Laws.OpcodeAtTop.Statement (.mov gd gs d rs) := wordOf_opcode _ _
theorem Laws.OpcodeAtTop.mvg (dir : MoveDir) (d rs : RegNum) : Laws.OpcodeAtTop.Statement (.mvg dir d rs) := wordOf_opcode _ _
theorem Laws.OpcodeAtTop.mvge (dir : MoveDir) (d rs : RegNum) : Laws.OpcodeAtTop.Statement (.mvge dir d rs) := wordOf_opcode _ _
theorem Laws.OpcodeAtTop.mvi (g : RegSet) (ty : ImmType) (d : RegNum) (imm : BitVec 12) : Laws.OpcodeAtTop.Statement (.mvi g ty d imm) := wordOf_opcode _ _
theorem Laws.OpcodeAtTop.relpc (g : RegSet) (d : RegNum) (imm : BitVec 12) : Laws.OpcodeAtTop.Statement (.relpc g d imm) := wordOf_opcode _ _
theorem Laws.OpcodeAtTop.mvs (params : BitVec 23) : Laws.OpcodeAtTop.Statement (.mvs params) := wordOf_opcode _ _
theorem Laws.OpcodeAtTop.ld (g : RegSet) (d a : RegNum) : Laws.OpcodeAtTop.Statement (.ld g d a) := wordOf_opcode _ _
theorem Laws.OpcodeAtTop.sampr (g : RegSet) (t x y : RegNum) : Laws.OpcodeAtTop.Statement (.sampr g t x y) := wordOf_opcode _ _
theorem Laws.OpcodeAtTop.sampc (g : RegSet) (t x y : RegNum) : Laws.OpcodeAtTop.Statement (.sampc g t x y) := wordOf_opcode _ _
theorem Laws.OpcodeAtTop.st (gd gs : RegSet) (d rs : RegNum) : Laws.OpcodeAtTop.Statement (.st gd gs d rs) := wordOf_opcode _ _
theorem Laws.OpcodeAtTop.commit : Laws.OpcodeAtTop.Statement .commit := wordOf_opcode _ _
theorem Laws.OpcodeAtTop.discard : Laws.OpcodeAtTop.Statement .discard := wordOf_opcode _ _
theorem Laws.OpcodeAtTop.ent : Laws.OpcodeAtTop.Statement .ent := wordOf_opcode _ _
theorem Laws.OpcodeAtTop.enm (rs : RegNum) : Laws.OpcodeAtTop.Statement (.enm rs) := wordOf_opcode _ _
theorem Laws.OpcodeAtTop.tmst (d : RegNum) : Laws.OpcodeAtTop.Statement (.tmst d) := wordOf_opcode _ _
theorem Laws.OpcodeAtTop.emst (d : RegNum) : Laws.OpcodeAtTop.Statement (.emst d) := wordOf_opcode _ _
theorem Laws.OpcodeAtTop.mskl (rs : RegNum) : Laws.OpcodeAtTop.Statement (.mskl rs) := wordOf_opcode _ _
theorem Laws.OpcodeAtTop.ldt (d : RegNum) : Laws.OpcodeAtTop.Statement (.ldt d) := wordOf_opcode _ _
theorem Laws.OpcodeAtTop.tst (g : RegSet) (n : Bool) (c : Cond) (a b : RegNum) : Laws.OpcodeAtTop.Statement (.tst g n c a b) := wordOf_opcode _ _
theorem Laws.OpcodeAtTop.sel (d t f : RegNum) : Laws.OpcodeAtTop.Statement (.sel d t f) := wordOf_opcode _ _
theorem Laws.OpcodeAtTop.br (off : BitVec 23) : Laws.OpcodeAtTop.Statement (.br off) := wordOf_opcode _ _
theorem Laws.OpcodeAtTop.ben (off : BitVec 23) : Laws.OpcodeAtTop.Statement (.ben off) := wordOf_opcode _ _
theorem Laws.OpcodeAtTop.bnen (off : BitVec 23) : Laws.OpcodeAtTop.Statement (.bnen off) := wordOf_opcode _ _
theorem Laws.OpcodeAtTop.sig : Laws.OpcodeAtTop.Statement .sig := wordOf_opcode _ _
theorem Laws.OpcodeAtTop.nop : Laws.OpcodeAtTop.Statement .nop := wordOf_opcode _ _
theorem Laws.OpcodeAtTop.and (g : RegSet) (d a b : RegNum) : Laws.OpcodeAtTop.Statement (.and g d a b) := wordOf_opcode _ _
theorem Laws.OpcodeAtTop.or (g : RegSet) (d a b : RegNum) : Laws.OpcodeAtTop.Statement (.or g d a b) := wordOf_opcode _ _
theorem Laws.OpcodeAtTop.xor (g : RegSet) (d a b : RegNum) : Laws.OpcodeAtTop.Statement (.xor g d a b) := wordOf_opcode _ _
theorem Laws.OpcodeAtTop.not (g : RegSet) (d a : RegNum) : Laws.OpcodeAtTop.Statement (.not g d a) := wordOf_opcode _ _
theorem Laws.OpcodeAtTop.lnot (g : RegSet) (d a : RegNum) : Laws.OpcodeAtTop.Statement (.lnot g d a) := wordOf_opcode _ _
theorem Laws.OpcodeAtTop.lbool (g : RegSet) (d a : RegNum) : Laws.OpcodeAtTop.Statement (.lbool g d a) := wordOf_opcode _ _
theorem Laws.OpcodeAtTop.pcnt (g : RegSet) (d a : RegNum) : Laws.OpcodeAtTop.Statement (.pcnt g d a) := wordOf_opcode _ _
theorem Laws.OpcodeAtTop.bits (g : RegSet) (d a : RegNum) : Laws.OpcodeAtTop.Statement (.bits g d a) := wordOf_opcode _ _
theorem Laws.OpcodeAtTop.be (g : RegSet) (d a b : RegNum) : Laws.OpcodeAtTop.Statement (.be g d a b) := wordOf_opcode _ _
theorem Laws.OpcodeAtTop.bs (g : RegSet) (d a b : RegNum) : Laws.OpcodeAtTop.Statement (.bs g d a b) := wordOf_opcode _ _
theorem Laws.OpcodeAtTop.bc (g : RegSet) (d a b : RegNum) : Laws.OpcodeAtTop.Statement (.bc g d a b) := wordOf_opcode _ _
theorem Laws.OpcodeAtTop.lsr (g : RegSet) (d a b : RegNum) : Laws.OpcodeAtTop.Statement (.lsr g d a b) := wordOf_opcode _ _
theorem Laws.OpcodeAtTop.lsl (g : RegSet) (d a b : RegNum) : Laws.OpcodeAtTop.Statement (.lsl g d a b) := wordOf_opcode _ _
theorem Laws.OpcodeAtTop.asr (g : RegSet) (d a b : RegNum) : Laws.OpcodeAtTop.Statement (.asr g d a b) := wordOf_opcode _ _
theorem Laws.OpcodeAtTop.rev (g : RegSet) (d a : RegNum) : Laws.OpcodeAtTop.Statement (.rev g d a) := wordOf_opcode _ _
theorem Laws.OpcodeAtTop.revh (g : RegSet) (d a : RegNum) : Laws.OpcodeAtTop.Statement (.revh g d a) := wordOf_opcode _ _
theorem Laws.OpcodeAtTop.revl (g : RegSet) (d a : RegNum) : Laws.OpcodeAtTop.Statement (.revl g d a) := wordOf_opcode _ _
theorem Laws.OpcodeAtTop.ffs (g : RegSet) (d a : RegNum) : Laws.OpcodeAtTop.Statement (.ffs g d a) := wordOf_opcode _ _
theorem Laws.OpcodeAtTop.rthl (g : RegSet) (d a : RegNum) : Laws.OpcodeAtTop.Statement (.rthl g d a) := wordOf_opcode _ _
theorem Laws.OpcodeAtTop.rthh (g : RegSet) (d a : RegNum) : Laws.OpcodeAtTop.Statement (.rthh g d a) := wordOf_opcode _ _
theorem Laws.OpcodeAtTop.add (g : RegSet) (d a b : RegNum) : Laws.OpcodeAtTop.Statement (.add g d a b) := wordOf_opcode _ _
theorem Laws.OpcodeAtTop.sub (g : RegSet) (d a b : RegNum) : Laws.OpcodeAtTop.Statement (.sub g d a b) := wordOf_opcode _ _
theorem Laws.OpcodeAtTop.umuli (g : RegSet) (d a b : RegNum) : Laws.OpcodeAtTop.Statement (.umuli g d a b) := wordOf_opcode _ _
theorem Laws.OpcodeAtTop.smuli (g : RegSet) (d a b : RegNum) : Laws.OpcodeAtTop.Statement (.smuli g d a b) := wordOf_opcode _ _
theorem Laws.OpcodeAtTop.mulq (g : RegSet) (d a b : RegNum) : Laws.OpcodeAtTop.Statement (.mulq g d a b) := wordOf_opcode _ _
theorem Laws.OpcodeAtTop.ufmai (g : RegSet) (d a b : RegNum) : Laws.OpcodeAtTop.Statement (.ufmai g d a b) := wordOf_opcode _ _
theorem Laws.OpcodeAtTop.sfmai (g : RegSet) (d a b : RegNum) : Laws.OpcodeAtTop.Statement (.sfmai g d a b) := wordOf_opcode _ _
theorem Laws.OpcodeAtTop.macq (g : RegSet) (d a b : RegNum) : Laws.OpcodeAtTop.Statement (.macq g d a b) := wordOf_opcode _ _
theorem Laws.OpcodeAtTop.udivi (g : RegSet) (d a b : RegNum) : Laws.OpcodeAtTop.Statement (.udivi g d a b) := wordOf_opcode _ _
theorem Laws.OpcodeAtTop.sdivi (g : RegSet) (d a b : RegNum) : Laws.OpcodeAtTop.Statement (.sdivi g d a b) := wordOf_opcode _ _
theorem Laws.OpcodeAtTop.divq (g : RegSet) (d a b : RegNum) : Laws.OpcodeAtTop.Statement (.divq g d a b) := wordOf_opcode _ _
theorem Laws.OpcodeAtTop.urem (g : RegSet) (d a b : RegNum) : Laws.OpcodeAtTop.Statement (.urem g d a b) := wordOf_opcode _ _
theorem Laws.OpcodeAtTop.rcpq (g : RegSet) (d a : RegNum) : Laws.OpcodeAtTop.Statement (.rcpq g d a) := wordOf_opcode _ _
theorem Laws.OpcodeAtTop.sqrtq (g : RegSet) (d a : RegNum) : Laws.OpcodeAtTop.Statement (.sqrtq g d a) := wordOf_opcode _ _
theorem Laws.OpcodeAtTop.abs (g : RegSet) (d a : RegNum) : Laws.OpcodeAtTop.Statement (.abs g d a) := wordOf_opcode _ _
theorem Laws.OpcodeAtTop.neg (g : RegSet) (d a : RegNum) : Laws.OpcodeAtTop.Statement (.neg g d a) := wordOf_opcode _ _
theorem Laws.OpcodeAtTop.sxt (g : RegSet) (d a : RegNum) : Laws.OpcodeAtTop.Statement (.sxt g d a) := wordOf_opcode _ _
theorem Laws.OpcodeAtTop.ufloor (g : RegSet) (d a : RegNum) : Laws.OpcodeAtTop.Statement (.ufloor g d a) := wordOf_opcode _ _
theorem Laws.OpcodeAtTop.sfloor (g : RegSet) (d a : RegNum) : Laws.OpcodeAtTop.Statement (.sfloor g d a) := wordOf_opcode _ _
theorem Laws.OpcodeAtTop.uceil (g : RegSet) (d a : RegNum) : Laws.OpcodeAtTop.Statement (.uceil g d a) := wordOf_opcode _ _
theorem Laws.OpcodeAtTop.sceil (g : RegSet) (d a : RegNum) : Laws.OpcodeAtTop.Statement (.sceil g d a) := wordOf_opcode _ _
theorem Laws.OpcodeAtTop.round (g : RegSet) (d a : RegNum) : Laws.OpcodeAtTop.Statement (.round g d a) := wordOf_opcode _ _
theorem Laws.OpcodeAtTop.tild (params : BitVec 23) : Laws.OpcodeAtTop.Statement (.tild params) := wordOf_opcode _ _
theorem Laws.OpcodeAtTop.tist (params : BitVec 23) : Laws.OpcodeAtTop.Statement (.tist params) := wordOf_opcode _ _
theorem Laws.OpcodeAtTop.pld (params : BitVec 23) : Laws.OpcodeAtTop.Statement (.pld params) := wordOf_opcode _ _
theorem Laws.OpcodeAtTop.pst (params : BitVec 23) : Laws.OpcodeAtTop.Statement (.pst params) := wordOf_opcode _ _
theorem Laws.OpcodeAtTop.tofs (params : BitVec 23) : Laws.OpcodeAtTop.Statement (.tofs params) := wordOf_opcode _ _
theorem Laws.OpcodeAtTop.tofl (params : BitVec 23) : Laws.OpcodeAtTop.Statement (.tofl params) := wordOf_opcode _ _
theorem Laws.OpcodeAtTop.tril (params : BitVec 23) : Laws.OpcodeAtTop.Statement (.tril params) := wordOf_opcode _ _
theorem Laws.OpcodeAtTop.baryp (params : BitVec 23) : Laws.OpcodeAtTop.Statement (.baryp params) := wordOf_opcode _ _

end Sys2Proof
end

