-- ==== Sys2Proof/Laws/Params.lean ====
section
/-! SUPPORT. Laws/Params.lean: what `OPCODE_MAP` and `NUM` do as arguments (R6): rearranging bits and back, words
of the table and of the machine, a field of `NUM` with its default body and with another. -/

namespace Sys2Proof

/-! ## Rearranging bits -/

/-- Bit `k` of `bitsBy f n` is `f k`. -/
@[simp] theorem bitsBy_getLsbD (f : Nat → Bool) (n k : Nat) : (bitsBy f n).getLsbD k = (decide (k < n) && f k) := by
  induction n with
  | zero => simp [bitsBy]
  | succ n ih =>
    rw [bitsBy, BitVec.getLsbD_cons]
    split
    · rename_i h; simp [h]
    · rename_i h; rw [ih]; congr 1; simp only [decide_eq_decide]; omega

/-- A list of places names each place below `n` once. -/
theorem placesOk_perm {n : Nat} {ps : List Nat} (h : placesOk n ps = true) : ps.Perm (List.range n) :=
  List.isPerm_iff.mp h

/-- Putting bits in their places and taking them from there gives them back. -/
theorem takeBits_putBits {n : Nat} {ps : List Nat} (h : placesOk n ps = true) (v : BitVec n) :
    takeBits ps (putBits ps v) = v := by
  have hp := placesOk_perm h
  have hl : ps.length = n := by simpa using hp.length_eq
  have hn : ps.Nodup := hp.nodup_iff.mpr List.nodup_range
  apply BitVec.eq_of_getLsbD_eq
  intro k hk
  have hk' : k < ps.length := by omega
  have hlt : ps[k] < n := by simpa using hp.mem_iff.mp (List.getElem_mem hk')
  simp only [takeBits, putBits, bitsBy_getLsbD, List.getD_eq_getElem _ _ hk', hlt, hn.idxOf_getElem, hk,
    decide_true, Bool.true_and]

/-- Taking bits from their places and putting them there again gives them back. -/
theorem putBits_takeBits {n : Nat} {ps : List Nat} (h : placesOk n ps = true) (v : BitVec n) :
    putBits ps (takeBits ps v) = v := by
  have hp := placesOk_perm h
  have hl : ps.length = n := by simpa using hp.length_eq
  apply BitVec.eq_of_getLsbD_eq
  intro j hj
  have hm : j ∈ ps := hp.mem_iff.mpr (by simpa using hj)
  have hi : ps.idxOf j < ps.length := List.idxOf_lt_length_iff.mpr hm
  simp only [takeBits, putBits, bitsBy_getLsbD, hj, List.getD_eq_getElem _ _ hi, List.getElem_idxOf, hl ▸ hi,
    decide_true, Bool.true_and]

/-! ## Words of the table and of the machine -/

variable {m : OpcodeMap}

/-- What `pairsOk` says. -/
theorem pairsOk_iff {n : Nat} {ps : List (BitVec n × BitVec n)} :
    pairsOk ps = true ↔ (ps.map Prod.fst).Nodup ∧ (ps.map Prod.fst).Perm (ps.map Prod.snd) := by
  simp [pairsOk, List.isPerm_iff]

/-- What `OpcodeMap.legal` says. -/
theorem OpcodeMap.legal_iff : m.legal = true ↔
    (∀ ps, m.layout = some ps → placesOk 32 ps = true) ∧ pairsOk m.codes = true ∧
    (∀ c ∈ m.codes, c.1.extractLsb' 5 4 = c.2.extractLsb' 5 4) ∧
    ∀ r ∈ m.params, placesOk 23 r.2.order = true ∧ pairsOk r.2.values = true ∧
      ∀ v ∈ r.2.values, v.1 &&& ~~~r.2.field = 0#23 ∧ v.2 &&& ~~~r.2.field = 0#23 := by
  simp [legal, ParamLayout.legal, and_assoc, Option.all_eq_true]

/-- In a list with distinct keys, looking up the key of a member finds the member. -/
theorem find?_of_nodup {α β : Type} [BEq β] [LawfulBEq β] {f : α → β} {l : List α} (hn : (l.map f).Nodup) {c : α}
    (hc : c ∈ l) : l.find? (fun x => f x == f c) = some c := by
  induction l with
  | nil => cases hc
  | cons a l ih =>
    rw [List.map_cons, List.nodup_cons] at hn
    rcases List.mem_cons.mp hc with rfl | hc
    · simp
    · have : (f a == f c) = false := beq_eq_false_iff_ne.mpr fun h => hn.1 (h ▸ List.mem_map_of_mem hc)
      rw [List.find?_cons, this]; exact ih hn.2 hc

/-- The table's value of the machine's value of a value is that value. -/
theorem toTable_toMachine {n : Nat} {ps : List (BitVec n × BitVec n)} (h : pairsOk ps = true) (x : BitVec n) :
    toTable ps (toMachine ps x) = x := by
  obtain ⟨hn, hp⟩ := pairsOk_iff.mp h
  unfold toMachine
  split
  · rename_i c hc
    have he : c.2 = x := by simpa using List.find?_some hc
    simp [toTable, find?_of_nodup hn (List.mem_of_find?_eq_some hc), he]
  · rename_i hc
    unfold toTable
    split
    · rename_i c hc'
      have he : c.1 = x := by simpa using List.find?_some hc'
      have hx : x ∈ ps.map Prod.fst := he ▸ List.mem_map_of_mem (List.mem_of_find?_eq_some hc')
      obtain ⟨c', hm', rfl⟩ := List.mem_map.mp (hp.mem_iff.mp hx)
      exact absurd (List.find?_eq_none.mp hc c' hm') (by simp)
    · rfl

/-- The machine's value of the table's value of a value is that value. -/
theorem toMachine_toTable {n : Nat} {ps : List (BitVec n × BitVec n)} (h : pairsOk ps = true) (x : BitVec n) :
    toMachine ps (toTable ps x) = x := by
  obtain ⟨hn, hp⟩ := pairsOk_iff.mp h
  have hn' : (ps.map Prod.snd).Nodup := hp.nodup_iff.mp hn
  unfold toTable
  split
  · rename_i c hc
    have he : c.1 = x := by simpa using List.find?_some hc
    simp [toMachine, find?_of_nodup hn' (List.mem_of_find?_eq_some hc), he]
  · rename_i hc
    unfold toMachine
    split
    · rename_i c hc'
      have he : c.2 = x := by simpa using List.find?_some hc'
      have hx : x ∈ ps.map Prod.snd := he ▸ List.mem_map_of_mem (List.mem_of_find?_eq_some hc')
      obtain ⟨c', hm', rfl⟩ := List.mem_map.mp (hp.mem_iff.mpr hx)
      exact absurd (List.find?_eq_none.mp hc c' hm') (by simp)
    · rfl

/-- A table's value for bits of `field` has bits of `field` only. -/
theorem toTable_field {n : Nat} {ps : List (BitVec n × BitVec n)} {field x : BitVec n}
    (h : ∀ v ∈ ps, v.2 &&& ~~~field = 0#n) (hx : x &&& ~~~field = 0#n) : toTable ps x &&& ~~~field = 0#n := by
  unfold toTable
  split
  · rename_i c hc; exact h c (List.mem_of_find?_eq_some hc)
  · exact hx

/-- A machine's value for bits of `field` has bits of `field` only. -/
theorem toMachine_field {n : Nat} {ps : List (BitVec n × BitVec n)} {field x : BitVec n}
    (h : ∀ v ∈ ps, v.1 &&& ~~~field = 0#n) (hx : x &&& ~~~field = 0#n) : toMachine ps x &&& ~~~field = 0#n := by
  unfold toMachine
  split
  · rename_i c hc; exact h c (List.mem_of_find?_eq_some hc)
  · exact hx

/-- Changing the bits of `field` by `f`, which gives bits of `field` only, and back by `g`. -/
theorem withField_withField {f g : BitVec 23 → BitVec 23} {field : BitVec 23}
    (hf : ∀ x, x &&& ~~~field = 0#23 → f x &&& ~~~field = 0#23) (hg : ∀ x, g (f x) = x) (p : BitVec 23) :
    withField field g (withField field f p) = p := by
  have hp : f (p &&& field) &&& ~~~field = 0#23 := hf _ (by ext i hi; simp)
  have h1 : withField field f p &&& field = f (p &&& field) := by
    ext i hi
    have := congrArg (·[i]) hp
    simp [withField] at this ⊢; grind
  have h2 : withField field f p &&& ~~~field = p &&& ~~~field := by
    ext i hi
    have := congrArg (·[i]) hp
    simp [withField] at this ⊢; grind
  rw [withField, h1, h2, hg]
  ext i hi; simp; grind

theorem OpcodeMap.tableParams_machineParams (h : m.legal = true) (op : BitVec 9) (p : BitVec 23) :
    m.tableParams op (m.machineParams op p) = p := by
  obtain ⟨-, -, -, hr⟩ := OpcodeMap.legal_iff.mp h
  unfold OpcodeMap.tableParams OpcodeMap.machineParams
  split
  · rename_i r hf
    obtain ⟨ho, hp, hv⟩ := hr r (List.mem_of_find?_eq_some hf)
    rw [BitVec.xor_assoc, BitVec.xor_self, BitVec.xor_zero, takeBits_putBits ho]
    exact withField_withField (fun _ => toMachine_field fun v h => (hv v h).1) (toTable_toMachine hp) p
  · rfl

theorem OpcodeMap.machineParams_tableParams (h : m.legal = true) (op : BitVec 9) (p : BitVec 23) :
    m.machineParams op (m.tableParams op p) = p := by
  obtain ⟨-, -, -, hr⟩ := OpcodeMap.legal_iff.mp h
  unfold OpcodeMap.tableParams OpcodeMap.machineParams
  split
  · rename_i r hf
    obtain ⟨ho, hp, hv⟩ := hr r (List.mem_of_find?_eq_some hf)
    rw [withField_withField (fun _ => toTable_field fun v h => (hv v h).2) (toMachine_toTable hp),
      putBits_takeBits ho, BitVec.xor_assoc, BitVec.xor_self, BitVec.xor_zero]
  · rfl

theorem OpcodeMap.tableLayout_machineLayout (h : m.legal = true) (w : Word) :
    m.tableLayout (m.machineLayout w) = w := by
  have hl := (OpcodeMap.legal_iff.mp h).1
  unfold OpcodeMap.tableLayout OpcodeMap.machineLayout
  split
  · rename_i ps hps; exact takeBits_putBits (hl ps hps) w
  · rfl

theorem OpcodeMap.machineLayout_tableLayout (h : m.legal = true) (w : Word) :
    m.machineLayout (m.tableLayout w) = w := by
  have hl := (OpcodeMap.legal_iff.mp h).1
  unfold OpcodeMap.tableLayout OpcodeMap.machineLayout
  split
  · rename_i ps hps; exact putBits_takeBits (hl ps hps) w
  · rfl

@[simp] theorem wordOf_fields (w : Word) : wordOf (w.extractLsb' 23 9) (w.extractLsb' 0 23) = w := by
  apply BitVec.eq_of_getLsbD_eq; intro i hi
  simp only [wordOf, BitVec.getLsbD_append, BitVec.getLsbD_extractLsb']
  by_cases h : i < 23
  · simp [h]
  · have : i - 23 < 9 := by omega
    simp [h, this]; congr 1; omega

/-- The table's word of the machine's word of a table's word is that word, for every legal `OPCODE_MAP`. -/
theorem OpcodeMap.tableWord_machineWord (h : m.legal = true) (v : Word) : m.tableWord (m.machineWord v) = v := by
  simp [OpcodeMap.tableWord, OpcodeMap.machineWord, wordOf_opcode, wordOf_params, OpcodeMap.tableLayout_machineLayout h,
    OpcodeMap.tableOpcode, OpcodeMap.machineOpcode,
    toTable_toMachine (OpcodeMap.legal_iff.mp h).2.1, OpcodeMap.tableParams_machineParams h]

/-- The machine's word of the table's word of a machine's word is that word, for every legal `OPCODE_MAP`. -/
theorem OpcodeMap.machineWord_tableWord (h : m.legal = true) (w : Word) : m.machineWord (m.tableWord w) = w := by
  simp [OpcodeMap.tableWord, OpcodeMap.machineWord, wordOf_opcode, wordOf_params, OpcodeMap.tableOpcode, OpcodeMap.machineOpcode,
    toMachine_toTable (OpcodeMap.legal_iff.mp h).2.1,
    OpcodeMap.machineParams_tableParams h, OpcodeMap.machineLayout_tableLayout h]

@[simp] theorem OpcodeMap.tableWord_default (w : Word) : OpcodeMap.default.tableWord w = w := by
  simp [OpcodeMap.tableWord, OpcodeMap.default, OpcodeMap.tableLayout, OpcodeMap.tableOpcode, toTable,
    OpcodeMap.tableParams]

@[simp] theorem OpcodeMap.machineWord_default (w : Word) : OpcodeMap.default.machineWord w = w := by
  simp [OpcodeMap.machineWord, OpcodeMap.default, OpcodeMap.machineLayout, OpcodeMap.machineOpcode, toMachine,
    OpcodeMap.machineParams]

/-- The default `OPCODE_MAP` encodes every instruction. -/
@[simp] theorem OpcodeMap.encodes_default (i : Instr) : OpcodeMap.default.encodes i = true := by
  cases i <;> simp [OpcodeMap.encodes, OpcodeMap.branchZero, OpcodeMap.default]

/-- What the decoder with any `OPCODE_MAP` answers with an instruction. -/
theorem decodeBy_eq_ok {w : Word} {i : Instr} :
    decodeBy m w = .ok i ↔ decode (m.tableWord w) = .ok i ∧ m.encodes i = true := by
  unfold decodeBy
  split
  · rename_i j h
    by_cases hj : m.encodes j = true
    · simp only [hj, if_true, h, Except.ok.injEq]
      exact ⟨fun e => ⟨e, e ▸ hj⟩, fun e => e.1⟩
    · simp only [hj, h, Except.ok.injEq]
      exact ⟨fun e => (by cases e), fun e => absurd (e.1 ▸ e.2) hj⟩
  · rename_i e h; simp [h]

/-- With the default `OPCODE_MAP` the decoder is the table's. -/
@[simp] theorem decodeBy_default (w : Word) : decodeBy OpcodeMap.default w = decode w := by
  simp only [decodeBy, OpcodeMap.tableWord_default, OpcodeMap.encodes_default, if_true]
  cases decode w <;> rfl

/-- With the default `OPCODE_MAP` the encoder is the table's. -/
@[simp] theorem encodeBy_default (i : Instr) : encodeBy OpcodeMap.default i = encode i := by simp [encodeBy]

namespace Machine

/-! ## Fields of `NUM` -/

variable {p : Params} {n : NumField}

theorem num1_default (h : p.ownNum n = false) (f : Word → Word) : num1 p n f = f := by
  funext x; simp [num1, h]
theorem num1_own (h : p.ownNum n = true) (f : Word → Word) (x : Word) :
    num1 p n f x = Config.numBody n p.qfrac [x] := by simp [num1, h]
theorem num2_default (h : p.ownNum n = false) (f : Word → Word → Word) : num2 p n f = f := by
  funext x y; simp [num2, h]
theorem num2_own (h : p.ownNum n = true) (f : Word → Word → Word) (x y : Word) :
    num2 p n f x y = Config.numBody n p.qfrac [x, y] := by simp [num2, h]
theorem num3_default (h : p.ownNum n = false) (f : Word → Word → Word → Word) : num3 p n f = f := by
  funext x y z; simp [num3, h]
theorem num3_own (h : p.ownNum n = true) (f : Word → Word → Word → Word) (x y z : Word) :
    num3 p n f x y z = Config.numBody n p.qfrac [x, y, z] := by simp [num3, h]

end Machine

end Sys2Proof
end

