-- ==== Sys2Proof/Tests/Slice0.lean ====
section
/-! SUPPORT. Tests/Slice0.lean: small tests. Words and values are those of spec/95_test_vectors.md and of the
examples in the instruction rules; each comment names its source. -/

namespace Sys2Proof.Machine

-- one thread: many evaluations at once would each take a stack of their own
set_option Elab.async false

/-! ## Helpers -/

/-- The next state an outcome holds, if it is one. -/
def nextOf : Result → Option State
  | .next t => some t
  | .fault _ => none
  | .refused _ => none

/-- The fault an outcome holds, if it is one. -/
def faultOf : Result → Option Fault
  | .next _ => none
  | .fault f => some f
  | .refused _ => none

/-- The refusal an outcome holds, if it is one. -/
def refusalOf : Result → Option Refusal
  | .next _ => none
  | .fault _ => none
  | .refused r => some r

/-- Reset with `G1`, `G2` and `G3` set. -/
def stateG (x y z : Word) : State :=
  State.reset.setGlobals (((RegFile.zeros.set 1#6 x).set 2#6 y).set 3#6 z)

/-- `G3` after an instruction in a state with `G1 = x`, `G2 = y`, `G3 = z`. -/
def resultG (i : Instr) (x y z : Word) : Option Word := (nextOf (exec i (stateG x y z))).map fun t => t.globals.get 3#6

/-- Four slices with `S0` as listed, `T` and the enable bits from masks. -/
def stateS (vals : List Word) (tm em : Word) : State :=
  State.reset.setSlices (vals.mapIdx fun i v =>
    ((Slice.reset.setReg 0#6 v).setT (tm.getLsbD i)).setEn (em.getLsbD i))

/-- `S1` of every slice after an instruction. -/
def resultS (i : Instr) (s : State) : Option (List Word) :=
  (nextOf (exec i s)).map fun t => t.slices.map fun sl => sl.regs.get 1#6

/-! ## WellFormed: each check refuses an ill-formed term -/

/-- R90: `ST Gd, Ss` is reserved. -/
theorem test_wf_store : (Instr.st .global .slice 1#6 2#6).wellFormed = false ∧
    (Instr.st .slice .global 1#6 2#6).wellFormed = true := by decide

/-- R96: a one-operand condition leaves `b` zero. -/
theorem test_wf_test : (Instr.tst .slice false .zro 1#6 2#6).wellFormed = false ∧
    (Instr.tst .slice true .neg 1#6 63#6).wellFormed = false ∧
    (Instr.tst .global false .cns 1#6 1#6).wellFormed = false ∧
    (Instr.tst .slice false .equ 1#6 2#6).wellFormed = true := by decide

/-- R33, R99: the texture metadata pair is named by an even register. -/
theorem test_wf_pair : (Instr.sampr .slice 3#6 4#6 5#6).wellFormed = false ∧
    (Instr.sampc .global 63#6 4#6 5#6).wellFormed = false ∧
    (Instr.sampr .slice 62#6 4#6 5#6).wellFormed = true := by decide

/-! ## Decode: the words of spec/95_test_vectors.md section 2.1 and of the rules' examples, the first of each
group written out field by field (R82 to R100) -/

theorem test_decode_group0 :
    decode (0b0000_00000_00_000_000001_000010_000000 : Word) = .ok (.mov .slice .slice 1#6 2#6) ∧
    decode (0x00601080 : Word) = .ok (.mov .global .global 1#6 2#6) ∧
    decode (0x00201080 : Word) = .ok (.mov .slice .global 1#6 2#6) ∧
    decode (0x00401080 : Word) = .ok (.mov .global .slice 1#6 2#6) ∧
    decode (0x00803200 : Word) = .ok (.mvg .fromGlobal 3#6 8#6) ∧
    decode (0x014080C0 : Word) = .ok (.mvge .toGlobal 8#6 3#6) ∧
    decode (0x01801005 : Word) = .ok (.mvi .slice .unsignedInt 1#6 5#12) ∧
    decode (0x01C82FFD : Word) = .ok (.mvi .global .signedInt 2#6 0xFFD#12) ∧
    decode (0x02005010 : Word) = .ok (.relpc .slice 5#6 16#12) ∧
    decode (0x02800000 : Word) = .ok (.mvs 0#23) ∧
    decode (0x03001000 : Word) = .ok (.ld .slice 1#6 0#6) ∧
    decode (0x03401000 : Word) = .ok (.ld .global 1#6 0#6) := by
  decide

theorem test_decode_group0_more :
    decode (0x03802105 : Word) = .ok (.sampr .slice 2#6 4#6 5#6) ∧
    decode (0x04402105 : Word) = .ok (.sampc .global 2#6 4#6 5#6) ∧
    decode (0x04802040 : Word) = .ok (.st .slice .slice 2#6 1#6) ∧
    decode (0x04A02040 : Word) = .ok (.st .slice .global 2#6 1#6) ∧
    decode (0x04E02040 : Word) = .ok (.st .global .global 2#6 1#6) ∧
    decode (0x05000000 : Word) = .ok (.commit) ∧
    decode (0x05800000 : Word) = .ok (.discard) := by
  decide

theorem test_decode_group1 :
    decode (0b0001_00000_00000000000000000000000 : Word) = .ok (.ent) ∧
    decode (0x108000C0 : Word) = .ok (.enm 3#6) ∧
    decode (0x11001000 : Word) = .ok (.tmst 1#6) ∧
    decode (0x11800000 : Word) = .ok (.emst 0#6) ∧
    decode (0x120000C0 : Word) = .ok (.mskl 3#6) ∧
    decode (0x12805000 : Word) = .ok (.ldt 5#6) ∧
    decode (0b0001_00110_0_0_100_000000_000001_000010 : Word) = .ok (.tst .slice false .slt 1#6 2#6) ∧
    decode (0x13740042 : Word) = .ok (.tst .global true .sgt 1#6 2#6) ∧
    decode (0x13200000 : Word) = .ok (.tst .slice true .zro 0#6 0#6) ∧
    decode (0x13802001 : Word) = .ok (.sel 2#6 0#6 1#6) ∧
    decode (0x147FFFFB : Word) = .ok (.br 0x7FFFFB#23) ∧
    decode (0x14800002 : Word) = .ok (.ben 2#23) := by
  decide

theorem test_decode_group1_more :
    decode (0x15000004 : Word) = .ok (.bnen 4#23) ∧
    decode (0x15800000 : Word) = .ok (.sig) ∧
    decode (0x16000000 : Word) = .ok (.nop) := by
  decide

theorem test_decode_group2 :
    decode (0b0010_00000_0_0000_000011_000001_000010 : Word) = .ok (.and .slice 3#6 1#6 2#6) ∧
    decode (0x20403042 : Word) = .ok (.and .global 3#6 1#6 2#6) ∧
    decode (0x20803042 : Word) = .ok (.or .slice 3#6 1#6 2#6) ∧
    decode (0x21003042 : Word) = .ok (.xor .slice 3#6 1#6 2#6) ∧
    decode (0x21803040 : Word) = .ok (.not .slice 3#6 1#6) ∧
    decode (0x22003040 : Word) = .ok (.lnot .slice 3#6 1#6) ∧
    decode (0x22803040 : Word) = .ok (.lbool .slice 3#6 1#6) ∧
    decode (0x23402040 : Word) = .ok (.pcnt .global 2#6 1#6) ∧
    decode (0x23C03040 : Word) = .ok (.bits .global 3#6 1#6) ∧
    decode (0x24003042 : Word) = .ok (.be .slice 3#6 1#6 2#6) ∧
    decode (0x24803042 : Word) = .ok (.bs .slice 3#6 1#6 2#6) ∧
    decode (0x25003042 : Word) = .ok (.bc .slice 3#6 1#6 2#6) := by
  decide

theorem test_decode_group2_more :
    decode (0x25803042 : Word) = .ok (.lsr .slice 3#6 1#6 2#6) ∧
    decode (0x26003042 : Word) = .ok (.lsl .slice 3#6 1#6 2#6) ∧
    decode (0x26803042 : Word) = .ok (.asr .slice 3#6 1#6 2#6) ∧
    decode (0x27003040 : Word) = .ok (.rev .slice 3#6 1#6) ∧
    decode (0x27803040 : Word) = .ok (.revh .slice 3#6 1#6) ∧
    decode (0x28003040 : Word) = .ok (.revl .slice 3#6 1#6) ∧
    decode (0x28803040 : Word) = .ok (.ffs .slice 3#6 1#6) ∧
    decode (0x29003040 : Word) = .ok (.rthl .slice 3#6 1#6) ∧
    decode (0x29803040 : Word) = .ok (.rthh .slice 3#6 1#6) := by
  decide

theorem test_decode_group3 :
    decode (0b0011_00000_1_0000_000011_000001_000010 : Word) = .ok (.add .global 3#6 1#6 2#6) ∧
    decode (0x30803042 : Word) = .ok (.sub .slice 3#6 1#6 2#6) ∧
    decode (0x31003042 : Word) = .ok (.umuli .slice 3#6 1#6 2#6) ∧
    decode (0x31803042 : Word) = .ok (.smuli .slice 3#6 1#6 2#6) ∧
    decode (0x32003042 : Word) = .ok (.mulq .slice 3#6 1#6 2#6) ∧
    decode (0x32803042 : Word) = .ok (.ufmai .slice 3#6 1#6 2#6) ∧
    decode (0x33003042 : Word) = .ok (.sfmai .slice 3#6 1#6 2#6) ∧
    decode (0x33803042 : Word) = .ok (.macq .slice 3#6 1#6 2#6) ∧
    decode (0x34003042 : Word) = .ok (.udivi .slice 3#6 1#6 2#6) ∧
    decode (0x34803042 : Word) = .ok (.sdivi .slice 3#6 1#6 2#6) ∧
    decode (0x35003042 : Word) = .ok (.divq .slice 3#6 1#6 2#6) ∧
    decode (0x35803042 : Word) = .ok (.urem .slice 3#6 1#6 2#6) := by
  decide

theorem test_decode_group3_more :
    decode (0x36003040 : Word) = .ok (.rcpq .slice 3#6 1#6) ∧
    decode (0x36803040 : Word) = .ok (.sqrtq .slice 3#6 1#6) ∧
    decode (0x37003040 : Word) = .ok (.abs .slice 3#6 1#6) ∧
    decode (0x37803040 : Word) = .ok (.neg .slice 3#6 1#6) ∧
    decode (0x38003040 : Word) = .ok (.sxt .slice 3#6 1#6) ∧
    decode (0x38803040 : Word) = .ok (.ufloor .slice 3#6 1#6) ∧
    decode (0x39003040 : Word) = .ok (.sfloor .slice 3#6 1#6) ∧
    decode (0x39803040 : Word) = .ok (.uceil .slice 3#6 1#6) ∧
    decode (0x3A003040 : Word) = .ok (.sceil .slice 3#6 1#6) ∧
    decode (0x3A803040 : Word) = .ok (.round .slice 3#6 1#6) := by
  decide

theorem test_decode_group4 :
    decode (0b0100_00000_00000010010001101000101 : Word) = .ok (.tild 0x012345#23) ∧
    decode (0x40800000 : Word) = .ok (.tist 0#23) ∧
    decode (0x41000000 : Word) = .ok (.pld 0#23) ∧
    decode (0x41800000 : Word) = .ok (.pst 0#23) ∧
    decode (0x42000000 : Word) = .ok (.tofs 0#23) ∧
    decode (0x42800000 : Word) = .ok (.tofl 0#23) ∧
    decode (0x43000000 : Word) = .ok (.tril 0#23) ∧
    decode (0x43800000 : Word) = .ok (.baryp 0#23) := by
  decide

/-- R104, R249, R33, R90, R96, R101: words that name no instruction. -/
theorem test_decode_illegal :
    decode 0x50000000#32 = .error .unassignedGroup ∧ decode 0x44000000#32 = .error .unassignedCode ∧
    decode 0x06000000#32 = .error .unassignedCode ∧ decode 0x16800000#32 = .error .unassignedCode ∧
    decode 0x2A000000#32 = .error .unassignedCode ∧ decode 0x3B000000#32 = .error .unassignedCode ∧
    decode 0x16000001#32 = .error .reservedBit ∧ decode 0x04C02040#32 = .error .reservedStore ∧
    decode 0x01A81005#32 = .error .reservedImmType ∧ decode 0x03803105#32 = .error .oddPair ∧
    decode 0x13000001#32 = .error .strayOperand := by decide

/-! ## Logic: examples of R180 to R199 -/

/-- R180 -/
theorem test_and : resultG (.and .global 3#6 1#6 2#6) 0x0F0F00FF#32 0x00FF0FF0#32 0#32 = some 0x000F00F0#32 := by decide +kernel

/-- R181 -/
theorem test_or : resultG (.or .global 3#6 1#6 2#6) 0x0F0F00FF#32 0x00FF0FF0#32 0#32 = some 0x0FFF0FFF#32 := by decide +kernel

/-- R182 -/
theorem test_xor : resultG (.xor .global 3#6 1#6 2#6) 0x0F0F00FF#32 0x00FF0FF0#32 0#32 = some 0x0FF00F0F#32 := by decide +kernel

/-- R183 -/
theorem test_not : resultG (.not .global 3#6 1#6) 0x0F0F00FF#32 0#32 0#32 = some 0xF0F0FF00#32 := by decide +kernel

/-- R184 -/
theorem test_lnot : resultG (.lnot .global 3#6 1#6) 0#32 0#32 0#32 = some 1#32 ∧
    resultG (.lnot .global 3#6 1#6) 0x80000000#32 0#32 7#32 = some 0#32 := by decide +kernel

/-- R185 -/
theorem test_lbool : resultG (.lbool .global 3#6 1#6) 0x100#32 0#32 0#32 = some 1#32 ∧
    resultG (.lbool .global 3#6 1#6) 0#32 0#32 7#32 = some 0#32 := by decide +kernel

/-- R186 -/
theorem test_pcnt : resultG (.pcnt .global 3#6 1#6) 0xF0F0F0F0#32 0#32 0#32 = some 16#32 ∧
    resultG (.pcnt .global 3#6 1#6) 0xFFFFFFFF#32 0#32 0#32 = some 32#32 := by decide +kernel

/-- R187 -/
theorem test_bits : resultG (.bits .global 3#6 1#6) 3#32 0#32 0#32 = some 7#32 ∧
    resultG (.bits .global 3#6 1#6) 32#32 0#32 0#32 = some 0xFFFFFFFF#32 := by decide +kernel

/-- R188 -/
theorem test_be : resultG (.be .global 3#6 1#6 2#6) 0x10#32 4#32 0#32 = some 1#32 ∧
    resultG (.be .global 3#6 1#6 2#6) 0xFFFFFFFF#32 32#32 7#32 = some 0#32 := by decide +kernel

/-- R189 -/
theorem test_bs : resultG (.bs .global 3#6 1#6 2#6) 0#32 31#32 0#32 = some 0x80000000#32 ∧
    resultG (.bs .global 3#6 1#6 2#6) 5#32 32#32 0#32 = some 5#32 := by decide +kernel

/-- R190 -/
theorem test_bc : resultG (.bc .global 3#6 1#6 2#6) 0xFFFFFFFF#32 0#32 0#32 = some 0xFFFFFFFE#32 ∧
    resultG (.bc .global 3#6 1#6 2#6) 5#32 32#32 0#32 = some 5#32 := by decide +kernel

/-- R191 -/
theorem test_lsr : resultG (.lsr .global 3#6 1#6 2#6) 0x80000010#32 4#32 0#32 = some 0x08000001#32 ∧
    resultG (.lsr .global 3#6 1#6 2#6) 0x80000010#32 32#32 7#32 = some 0#32 := by decide +kernel

/-- R192 -/
theorem test_lsl : resultG (.lsl .global 3#6 1#6 2#6) 0x80000010#32 4#32 0#32 = some 0x100#32 ∧
    resultG (.lsl .global 3#6 1#6 2#6) 1#32 32#32 7#32 = some 0#32 := by decide +kernel

/-- R193 -/
theorem test_asr : resultG (.asr .global 3#6 1#6 2#6) 0x80000010#32 4#32 0#32 = some 0xF8000001#32 ∧
    resultG (.asr .global 3#6 1#6 2#6) 0x80000010#32 0xFFFFFFFF#32 0#32 = some 0xFFFFFFFF#32 := by decide +kernel

/-- R194 -/
theorem test_rev : resultG (.rev .global 3#6 1#6) 0x12345678#32 0#32 0#32 = some 0x1E6A2C48#32 := by decide +kernel

/-- R195 -/
theorem test_revh : resultG (.revh .global 3#6 1#6) 0x12345678#32 0#32 0#32 = some 0x2C485678#32 := by decide +kernel

/-- R196 -/
theorem test_revl : resultG (.revl .global 3#6 1#6) 0x12345678#32 0#32 0#32 = some 0x12341E6A#32 := by decide +kernel

/-- R197 -/
theorem test_ffs : resultG (.ffs .global 3#6 1#6) 8#32 0#32 0#32 = some 4#32 ∧
    resultG (.ffs .global 3#6 1#6) 0x80000000#32 0#32 0#32 = some 32#32 := by decide +kernel

/-- R198 -/
theorem test_rthl : resultG (.rthl .global 3#6 1#6) 0x1234ABCD#32 0#32 0#32 = some 0xABCD#32 := by decide +kernel

/-- R199 -/
theorem test_rthh : resultG (.rthh .global 3#6 1#6) 0x1234ABCD#32 0#32 0#32 = some 0x1234#32 := by decide +kernel

/-! ## Mathematics: examples of R210 to R231, `QFRAC` 16 -/

/-- R210 -/
theorem test_add : resultG (.add .global 3#6 1#6 2#6) 0xFFFFFFFD#32 7#32 0#32 = some 4#32 ∧
    resultG (.add .global 3#6 1#6 2#6) 0xFFFFFFFF#32 1#32 7#32 = some 0#32 := by decide +kernel

/-- R211 -/
theorem test_sub : resultG (.sub .global 3#6 1#6 2#6) 0xFFFFFFFD#32 7#32 0#32 = some 0xFFFFFFF6#32 := by decide +kernel

/-- R212 -/
theorem test_umuli : resultG (.umuli .global 3#6 1#6 2#6) 100000#32 100000#32 0#32 = some 0x540BE400#32 := by decide +kernel

/-- R213 -/
theorem test_smuli : resultG (.smuli .global 3#6 1#6 2#6) 0xFFFFFFFF#32 0xFFFFFFFF#32 0#32 = some 1#32 := by decide +kernel

/-- R214 -/
theorem test_mulq : resultG (.mulq .global 3#6 1#6 2#6) 0xFFFE8000#32 0x00028000#32 0#32 = some 0xFFFC4000#32 ∧
    resultG (.mulq .global 3#6 1#6 2#6) 0xFFFFFFFF#32 1#32 0#32 = some 0xFFFFFFFF#32 := by decide +kernel

/-- R215 -/
theorem test_ufmai : resultG (.ufmai .global 3#6 1#6 2#6) 2#32 3#32 0xFFFFFFFF#32 = some 5#32 := by decide +kernel

/-- R216 -/
theorem test_sfmai : resultG (.sfmai .global 3#6 1#6 2#6) 0xFFFFFFFD#32 4#32 10#32 = some 0xFFFFFFFE#32 := by decide +kernel

/-- R217 -/
theorem test_macq : resultG (.macq .global 3#6 1#6 2#6) 0x00018000#32 0x00020000#32 0x00010000#32 = some 0x00040000#32 := by decide +kernel

/-- R218 -/
theorem test_udivi : resultG (.udivi .global 3#6 1#6 2#6) 0xFFFFFFF9#32 2#32 0#32 = some 0x7FFFFFFC#32 := by decide +kernel

/-- R219 -/
theorem test_sdivi : resultG (.sdivi .global 3#6 1#6 2#6) 0xFFFFFFF9#32 2#32 0#32 = some 0xFFFFFFFD#32 ∧
    resultG (.sdivi .global 3#6 1#6 2#6) 0x80000000#32 0xFFFFFFFF#32 0#32 = some 0x80000000#32 := by decide +kernel

/-- R220 -/
theorem test_divq : resultG (.divq .global 3#6 1#6 2#6) 0xFFFF0000#32 0x00030000#32 0#32 = some 0xFFFFAAAB#32 ∧
    resultG (.divq .global 3#6 1#6 2#6) 0x40000000#32 1#32 7#32 = some 0#32 := by decide +kernel

/-- R221 -/
theorem test_urem : resultG (.urem .global 3#6 1#6 2#6) 0xFFFFFFF9#32 10#32 0#32 = some 9#32 := by decide +kernel

/-- R222 -/
theorem test_rcpq : resultG (.rcpq .global 3#6 1#6) 0xFFFC0000#32 0#32 0#32 = some 0xFFFFC000#32 ∧
    resultG (.rcpq .global 3#6 1#6) 1#32 0#32 7#32 = some 0#32 := by decide +kernel

/-- R223 -/
theorem test_sqrtq : resultG (.sqrtq .global 3#6 1#6) 0x00020000#32 0#32 0#32 = some 0x00016A09#32 ∧
    resultG (.sqrtq .global 3#6 1#6) 0x7FFFFFFF#32 0#32 0#32 = some 0x00B504F3#32 := by decide +kernel

/-- R224 -/
theorem test_abs : resultG (.abs .global 3#6 1#6) 0xFFFFFFFD#32 0#32 0#32 = some 3#32 ∧
    resultG (.abs .global 3#6 1#6) 0x80000000#32 0#32 0#32 = some 0x80000000#32 := by decide +kernel

/-- R225 -/
theorem test_neg : resultG (.neg .global 3#6 1#6) 3#32 0#32 0#32 = some 0xFFFFFFFD#32 := by decide +kernel

/-- R226 -/
theorem test_sxt : resultG (.sxt .global 3#6 1#6) 0x12348000#32 0#32 0#32 = some 0xFFFF8000#32 ∧
    resultG (.sxt .global 3#6 1#6) 0xABCD7FFF#32 0#32 0#32 = some 0x00007FFF#32 := by decide +kernel

/-- R227 -/
theorem test_ufloor : resultG (.ufloor .global 3#6 1#6) 0xFFFD8000#32 0#32 0#32 = some 0xFFFD#32 := by decide +kernel

/-- R228 -/
theorem test_sfloor : resultG (.sfloor .global 3#6 1#6) 0xFFFD8000#32 0#32 0#32 = some 0xFFFFFFFD#32 := by decide +kernel

/-- R229 -/
theorem test_uceil : resultG (.uceil .global 3#6 1#6) 0xFFFFFFFF#32 0#32 0#32 = some 0x00010000#32 ∧
    resultG (.uceil .global 3#6 1#6) 0x00020000#32 0#32 0#32 = some 2#32 := by decide +kernel

/-- R230 -/
theorem test_sceil : resultG (.sceil .global 3#6 1#6) 0xFFFD8000#32 0#32 0#32 = some 0xFFFFFFFE#32 := by decide +kernel

/-- R231 -/
theorem test_round : resultG (.round .global 3#6 1#6) 0xFFFD8000#32 0#32 0#32 = some 0xFFFFFFFE#32 ∧
    resultG (.round .global 3#6 1#6) 0x00008000#32 0#32 0#32 = some 1#32 := by decide +kernel

/-- R218, R233: a zero divisor is no fault, and its value is the free value. -/
theorem test_udivi_zero : resultG (.udivi .global 3#6 1#6 2#6) 5#32 0#32 0#32 = some (Config.draw 0) := by rfl

/-! ## Moves -/

/-- R120: with Slices 1 and 2 enabled, `MOV G3, S0` takes the value of Slice 1 -/
theorem test_mov_lowest : ((nextOf (exec (.mov .global .slice 3#6 0#6) (stateS [5#32, 7#32, 9#32, 11#32] 0#32 0b0110#32))).map
    fun t => t.globals.get 3#6) = some 7#32 := by decide +kernel

/-- R120, R31: a disabled slice is left alone -/
theorem test_mov_disabled : resultS (.mov .slice .slice 1#6 0#6) (stateS [5#32, 7#32, 9#32, 11#32] 0#32 0b1010#32) =
    some [0#32, 7#32, 0#32, 11#32] := by decide +kernel

/-- R121: slice `i` takes `G(1 + i)` -/
theorem test_mvg : resultS (.mvg .fromGlobal 1#6 1#6) (stateG 10#32 11#32 12#32) = some [10#32, 11#32, 12#32, 0#32] := by decide +kernel

/-- R122: `EN = 0b1010`, so `G8` and `G9` get the values of Slices 1 and 3 -/
theorem test_mvge : ((nextOf (exec (.mvge .toGlobal 8#6 0#6) (stateS [4#32, 5#32, 4#32, 6#32] 0#32 0b1010#32))).map
    fun t => (t.globals.get 8#6, t.globals.get 9#6)) = some (5#32, 6#32) := by decide +kernel

/-- R121, R251: Slice 1 would need `G64` -/
theorem test_mvg_range : faultOf (exec (.mvg .fromGlobal 1#6 63#6) State.reset) = some (.globalIndexRange 64) := by decide +kernel

/-- R123 with `QFRAC` 16 -/
theorem test_mvi : resultG (.mvi .global .mixedFixed 3#6 0x060#12) 0#32 0#32 0#32 = some 0x00018000#32 ∧
    resultG (.mvi .global .wholeFixed 3#6 0xFFF#12) 0#32 0#32 0#32 = some 0xFFFF0000#32 := by decide +kernel

/-- R123 -/
theorem test_mvi_more : resultG (.mvi .global .fractionFixed 3#6 0x800#12) 0#32 0#32 0#32 = some 0xFFFE0000#32 ∧
    resultG (.mvi .global .signedInt 3#6 0xFFD#12) 0#32 0#32 0#32 = some 0xFFFFFFFD#32 := by decide +kernel

/-- R124 at `ip = 0x1000` -/
theorem test_relpc : resultG (.relpc .global 3#6 16#12) 0#32 0#32 0#32 = some 0x1010#32 := by decide +kernel

/-- R125, R129, R248 -/
theorem test_refused : refusalOf (exec (.mvs 0#23) State.reset) = some .specialRegisterUnknown ∧
    refusalOf (exec (.sampr .slice 2#6 4#6 5#6) State.reset) = some .textureUnitUnknown ∧
    refusalOf (exec (.tild 0#23) State.reset) = some .rasterUnitUnknown := by decide +kernel

/-! ## Control flow and conditional execution -/

/-- R150: `T = 0b0101` -/
theorem test_ent : ((nextOf (exec .ent (stateS [0#32, 0#32, 0#32, 0#32] 0b0101#32 0b1111#32))).map State.execMask) = some 0b0101#32 := by decide +kernel

/-- R151 -/
theorem test_enm : ((nextOf (exec (.enm 3#6) (stateG 0#32 0#32 0xA#32))).map State.execMask) = some 0b1010#32 := by decide +kernel

/-- R152: `T = 0b0110` -/
theorem test_tmst : ((nextOf (exec (.tmst 1#6) (stateS [0#32, 0#32, 0#32, 0#32] 0b0110#32 1#32))).map
    fun t => t.globals.get 1#6) = some 6#32 := by decide +kernel

/-- R153 -/
theorem test_emst : ((nextOf (exec (.emst 0#6) State.reset)).map fun t => t.globals.get 0#6) = some 0xF#32 := by decide +kernel

/-- R154 -/
theorem test_mskl : ((nextOf (exec (.mskl 3#6) (stateG 0#32 0#32 9#32))).map State.tMask) = some 0b1001#32 := by decide +kernel

/-- R155 -/
theorem test_ldt : resultS (.ldt 1#6) (stateS [5#32, 5#32, 5#32, 5#32] 0b0011#32 0b0110#32) = some [0#32, 1#32, 0#32, 0#32] := by decide +kernel

/-- R156: `0xFFFFFFFD` is below 0 signed, not unsigned -/
theorem test_tst : ((nextOf (exec (.tst .slice false .slt 0#6 1#6) (stateS [0xFFFFFFFD#32, 7#32, 0#32, 1#32] 0#32 0b1111#32))).map
    State.tMask) = some 1#32 ∧
    ((nextOf (exec (.tst .slice true .ugt 0#6 1#6) (stateS [0xFFFFFFFD#32, 7#32, 0#32, 1#32] 0b1000#32 0b0111#32))).map
    State.tMask) = some 0b1100#32 := by decide +kernel

/-- R163: every enabled slice has its bit in `A` -/
theorem test_tst_cns : ((nextOf (exec (.tst .slice false .cns 0#6 0#6) (stateS [6#32, 0xE#32, 2#32, 0#32] 0#32 0b0110#32))).map
    State.tMask) = some 0b0010#32 := by decide +kernel

/-- R157 -/
theorem test_sel : resultS (.sel 1#6 0#6 2#6) (stateS [5#32, 6#32, 7#32, 8#32] 0b0101#32 0b1111#32) = some [5#32, 0#32, 7#32, 0#32] := by decide +kernel

/-- R158, R159: at `ip = 0x1000` -/
theorem test_br : ((nextOf (exec (.br 0x7FFFFB#23) State.reset)).map State.ip) = some 0xFEC#32 ∧
    ((nextOf (exec (.ben 2#23) State.reset)).map State.ip) = some 0x1008#32 := by decide +kernel

/-- R160 -/
theorem test_bnen : ((nextOf (exec (.bnen 4#23) State.reset)).map State.ip) = some 0x1004#32 ∧
    ((nextOf (exec (.bnen 4#23) (stateS [0#32] 0#32 0#32))).map State.ip) = some 0x1010#32 := by decide +kernel

/-- R161 -/
theorem test_sig : ((nextOf (exec .sig State.reset)).map fun t => (t.signal, t.run, t.ip, t.goodEnd)) =
    some (true, .completed, 0x1000#32, true) := by decide +kernel

/-- R161 -/
theorem test_sig_pending : faultOf (exec .sig (State.reset.setGmau [.load 1#6 0#32 none])) = some .pendingAtCompletion := by decide +kernel

/-- R162 -/
theorem test_nop : ((nextOf (exec .nop State.reset)).map fun t => (t.ip, t.slices == State.reset.slices)) = some (0x1004#32, true) := by decide +kernel

/-! ## Memory -/

/-- R126: `LD G1, G0` -/
theorem test_ld : ((nextOf (exec (.ld .global 1#6 0#6) State.reset)).map fun t => (t.gmau, t.isPending (.global 1#6))) =
    some ([.load 1#6 0#32 none], true) := by decide +kernel

/-- R130: `ST G2, G1` with `G2 = 0x2100`, `G1 = 20` -/
theorem test_st : ((nextOf (exec (.st .global .global 2#6 1#6) (stateG 20#32 0x2100#32 0#32))).map State.gmau) =
    some [.store 0x2100#32 20#32 false] := by decide +kernel

/-- R54 -/
theorem test_address_faults : faultOf (exec (.ld .global 1#6 2#6) (stateG 0#32 0x2102#32 0#32)) = some (.misalignedAccess 0x2102#32) ∧
    faultOf (exec (.st .slice .slice 0#6 1#6) (stateS [0x2000#32, 0x2001#32, 2#32, 0#32] 0#32 0b1111#32)) =
      some (.misalignedAccess 0x2001#32) := by decide +kernel

/-- R131: the loaded word reaches the register -/
theorem test_commit_load : ((nextOf (exec .commit (State.reset.setGmau [.load 1#6 0x2008#32 (some 30#32), .store 0#32 1#32 true]))).map
    fun t => (t.globals.get 1#6, t.gmau, t.ip)) = some (30#32, [], 0x1004#32) := by decide +kernel

/-- R63: a held `COMMIT` stays where it is -/
theorem test_commit_held : ((nextOf (exec .commit (State.reset.setGmau [.store 0x2000#32 0x11223344#32 false]))).map
    fun t => (t.gmau, t.ip, t.mem)) = some ([.store 0x2000#32 0x11223344#32 true], 0x1000#32,
      [(0x2000, 0x44#8), (0x2001, 0x33#8), (0x2002, 0x22#8), (0x2003, 0x11#8)]) := by decide +kernel

/-- R132 -/
theorem test_discard : ((nextOf (exec .discard (State.reset.setGmau [.load 1#6 0x2008#32 (some 30#32)]))).map
    fun t => (t.globals.get 1#6, t.gmau, t.ip)) = some (0#32, [], 0x1004#32) := by decide +kernel

/-! ## Steps -/

/-- R58, R253: a placed word is fetched and run -/
theorem test_step_placed : ((nextOf (step (State.reset.withFetchWord 32 0x01C82FFD))).map fun t => (t.globals.get 2#6, t.ip)) =
    some (0xFFFFFFFD#32, 0x1004#32) := by decide +kernel

/-- R104, R252 -/
theorem test_step_illegal : ((nextOf (step (State.reset.withFetchWord 32 0x50000000))).map fun t => (t.run, t.ip)) =
    some (.faulted (.illegalInstruction 0x1000#32 0x50000000#32), 0x1000#32) := by decide +kernel

/-- R39: after a start that gives no register a value -/
theorem test_step_unwritten : ((nextOf (step ((State.reset.setGlobals RegFile.unwritten).withFetchWord 32 0x30403042))).map fun t => t.run) =
    some (.faulted (.unwrittenRead (.reg (.global 1#6)))) := by decide +kernel

/-- the interface on two words of the table -/
theorem test_table_word : decodeTableWord 32 0x16000000 = some .nop ∧ decodeTableWord 32 0x50000000 = none := by decide +kernel

/-! ## Witnesses: for each statement with hypotheses, states and operands that meet them, at the ends of the
ranges. Reset has four enabled slices, every register 0 and every queue empty. -/

/-- The run state after a step. -/
def runAfter (s : State) : Option RunState := (nextOf (step s)).map fun t => t.run

/-- The task running with the word `w` as its program. -/
def placed (w : Word) : State := State.reset.placeProgram w

/-- Slices 0 and 2 of 0 to 3 enabled; `S0` is 1, 2, 3, 4. -/
def stateHalf : State := stateS [1#32, 2#32, 3#32, 4#32] 0b0011#32 0b0101#32

/-- No slice enabled. -/
def stateNone : State := stateS [1#32, 2#32] 0b11#32 0#32

/-- 32 slices, the last one alone enabled. -/
def stateLast : State := State.reset.setSlices (updateEvery (fun i sl => sl.setEn (i == 31)) (List.replicate 32 Slice.reset))

/-- Reset with the registers of every set unwritten. -/
def stateUnwritten : State :=
  (State.reset.setGlobals RegFile.unwritten).setSlices
    (updateEvery (fun _ sl => { sl with regs := RegFile.unwritten, tWritten := false }) State.reset.slices)

/-- A queued load to register 3 and a queued store, `p` whether they are performed, in the GMAU and the SMAUs. -/
def stateQueued (p : Bool) : State :=
  (State.reset.setGmau [.load 3#6 4#32 (if p then some 9#32 else none), .store 8#32 7#32 p]).setSlices
    (updateEvery (fun _ sl => sl.setQueue [.load 3#6 4#32 (if p then some 9#32 else none), .store 8#32 7#32 p])
      State.reset.slices)

/-- The image is the word at `0x1000`, the words at `0x1000` and `0x1004` are admitted; `G1` and `S1` of every
slice are `0x1004` but for those of Slice `k`, which are `a`, as is `G4`. -/
def stateAddr (k : Nat) (a : Word) : State :=
  { State.reset with
    image := [0#32]
    memAdmit := [{ base := 0x1000, words := 2 }]
    globals := (RegFile.zeros.set 1#6 0x1004#32).set 4#6 a
    slices := updateEvery (fun i sl => sl.setReg 1#6 (if i = k then a else 0x1004#32)) State.reset.slices }

/-- Each queue may hold one request; those of Slice `k` and of the GMAU hold one. -/
def stateFull (k : Nat) : State :=
  let s := stateAddr 4 0x1004#32
  { s with
    params := { Params.default with mauDepth := some 1 }
    gmau := [.store 0x1004#32 0#32 false]
    slices := updateEvery (fun i sl => if i = k then sl.setQueue [.store 0x1004#32 0#32 false] else sl) s.slices }

/-- An `OPCODE_MAP` with the bits of a word in the opposite order, the codes of `AND` and of the last of its group
exchanged, and the parameters of `AND` in the opposite order with the set-select bit inverted. -/
def mapExample : OpcodeMap :=
  { layout := some (List.range 32).reverse, codes := [(0x05F#9, 0x040#9), (0x040#9, 0x05F#9)]
    params := [(0x040#9, { order := (List.range 23).reverse, flip := 0x400000#23, field := 0#23, values := [] })], branches := [] }

/-- Three set-select bits for `AND`, in `w[22:20]`. -/
def selectAnd : ParamLayout :=
  { order := List.range 23, flip := 0#23, field := 0x700000#23
    values := [(0x700000#23, 0x400000#23), (0x400000#23, 0x700000#23)] }

/-- Two set-select bits for `TST`, `w[22]` for `Ra` and `w[21]` for `Rb`, before the negation in `w[20]` and the
condition in `w[19:17]`: six flags. With a one-operand condition the bit for `Rb` is unused and 0. -/
def selectTst : ParamLayout :=
  { order := List.range 17 ++ [21, 17, 18, 19, 20, 22], flip := 0#23, field := 0x5E0000#23
    values := [0x040000#23, 0x080000#23, 0x0C0000#23, 0x100000#23, 0x140000#23].flatMap fun c =>
      [(0x420000#23 ||| c, 0x400000#23 ||| c), (0x400000#23 ||| c, 0x420000#23 ||| c)] }

/-- An `OPCODE_MAP` with a set-select bit for each register of `AND` and of `TST`, at the top of the flags, and a
`BR` with a 12-bit operand form of its own. -/
def mapSelect : OpcodeMap :=
  { OpcodeMap.default with
    params := [(0x040#9, selectAnd), (0x026#9, selectTst)]
    branches := [(.br, 0x7FF000#23)] }

/-- A machine with that map. -/
def stateSelect : State := { State.reset with params := { Params.default with opcodeMap := mapSelect } }

/-- A machine with functions of its own for every field of `NUM` that the list names. -/
def withNum (ns : List NumField) (s : State) : State := { s with params := { s.params with numOwn := ns } }

/-- A launch record for four slices. -/
def launchExample : Launch :=
  { imageBase := 0x1000#32, image := [0x15800000#32], entry := 0x1000#32
    memAdmit := [{ base := 0, words := 2 }, { base := 0x1000, words := 1 }, { base := 0xFFFFFFFC, words := 1 }]
    memInit := [(0#32, 5#32), (4#32, 0#32), (0xFFFFFFFC#32, 0x01020304#32)], sInit := [(3, 63#6, 1#32)], gInit := [(0#6, 2#32)]
    tInit := [(0, true)], enInit := 0xF#32 }

/-! ### Encoding and the step -/

/-- R6: a legal map other than the default; two that give two fields one bit, and two mnemonics one code. -/
theorem test_opcode_map :
    mapExample.legal = true ∧ decodeBy mapExample (encodeBy mapExample (.and .global 1#6 2#6 3#6)) = .ok (.and .global 1#6 2#6 3#6) ∧
    encodeBy mapExample (.and .global 1#6 2#6 3#6) ≠ encode (.and .global 1#6 2#6 3#6) ∧
    ({ mapExample with layout := some [0, 0] } : OpcodeMap).legal = false ∧
    ({ mapExample with codes := [(0x05F#9, 0x040#9)] } : OpcodeMap).legal = false := by decide +kernel

/-- R6, R110, R26: all-Slice and all-Global have their words, a mix of sets has none. -/
theorem test_select_bits :
    mapSelect.legal = true ∧ decodeBy mapSelect 0x20003042#32 = .ok (.and .slice 3#6 1#6 2#6) ∧
    decodeBy mapSelect 0x20703042#32 = .ok (.and .global 3#6 1#6 2#6) ∧
    encodeBy mapSelect (.and .global 3#6 1#6 2#6) = 0x20703042#32 ∧
    ([0x20103042#32, 0x20203042#32, 0x20303042#32, 0x20403042#32, 0x20503042#32, 0x20603042#32].all fun w =>
      decodeBy mapSelect w == .error .reservedBit) = true := by decide +kernel

/-- R6, R110, R96: the same for `TST`, with both registers and with one; its words are decoded and encoded. -/
theorem test_select_bits_tst :
    ([(0x13080042#32, Instr.tst .slice false .slt 1#6 2#6), (0x13680042#32, .tst .global false .slt 1#6 2#6),
      (0x13780042#32, .tst .global true .slt 1#6 2#6), (0x13000040#32, .tst .slice false .zro 1#6 0#6),
      (0x13400040#32, .tst .global false .zro 1#6 0#6)].all fun p =>
      decodeBy mapSelect p.1 == .ok p.2 && encodeBy mapSelect p.2 == p.1) = true ∧
    ([0x13480042#32, 0x13280042#32, 0x13580042#32, 0x13200040#32, 0x13600040#32].all fun w =>
      decodeBy mapSelect w == .error .reservedBit) = true := by decide +kernel

/-- R6, R98: a branch with an operand form of its own. -/
theorem test_branch_own :
    decodeBy mapSelect 0x14000FFB#32 = .ok (.br 0xFFB#23) ∧ decodeBy mapSelect 0x147FFFFB#32 = .error .reservedBit ∧
    decodeBy mapSelect 0x14800002#32 = .ok (.ben 2#23) ∧
    (nextOf (exec (.br 0xFFB#23) stateSelect)).map State.ip = some (Config.branchWord .br 0xFFB#23 0x1000#32 ++ 0#2) :=
  ⟨by decide +kernel, by decide +kernel, by decide +kernel, rfl⟩

/-- R6: with a function of its own the machine writes that function's value, with the operands in their order. -/
theorem test_num_own :
    resultS (.lsr .slice 1#6 0#6 2#6) (withNum [.lsr] (stateS [5#32] 0#32 1#32)) = some [Config.numBody .lsr 16 [5#32, 0#32]] ∧
    resultS (.lsl .slice 1#6 0#6 2#6) (withNum [.lsr] (stateS [5#32] 0#32 1#32)) = some [5#32] := ⟨rfl, by decide +kernel⟩

theorem witness_DecodeOfEncode :
    mapExample.legal = true ∧ mapExample.encodes (.br 0x7FFFFF#23) = true ∧
    mapSelect.legal = true ∧ mapSelect.encodes (.br 0xFFF#23) = true ∧ mapSelect.encodes (.br 0x1000#23) = false ∧
    (Instr.st .slice .global 63#6 0#6).wellFormed = true ∧ (Instr.tst .global true .cns 63#6 0#6).wellFormed = true ∧
    (Instr.sampr .global 62#6 63#6 0#6).wellFormed = true ∧ (Instr.br 0x7FFFFF#23).wellFormed = true ∧
    (Instr.round .global 63#6 63#6).wellFormed = true ∧ (Instr.baryp 0x400000#23).wellFormed = true := by decide +kernel

theorem witness_EncodeOfDecode :
    mapExample.legal = true ∧ decodeBy mapExample 0#32 = .ok (.mov .slice .slice 0#6 0#6) ∧
    decode 0x01E3FFFF#32 = .ok (.mvi .global .fractionFixed 63#6 0xFFF#12) ∧
    decode 0x3AC3FFC0#32 = .ok (.round .global 63#6 63#6) ∧ decode 0x43FFFFFF#32 = .ok (.baryp 0x7FFFFF#23) := by decide +kernel

/-- The ends of each unassigned range, the lowest and the highest bit that a format marks `0`, the other reserved
words. -/
theorem witness_ReservedWordsAreIllegal :
    (∀ n ∈ [0x00C, 0x01F, 0x02D, 0x03F, 0x054, 0x05F, 0x076, 0x07F, 0x088, 0x1FF],
      ((BitVec.ofNat 32 (n * 2 ^ 23)).extractLsb' 23 9).toNat = n ∧
      decode (BitVec.ofNat 32 (n * 2 ^ 23)) ≠ .ok .nop) ∧
    (∀ n ∈ [5, 7], ((BitVec.ofNat 32 (3 * 2 ^ 23 + n * 2 ^ 19)).extractLsb' 23 9 = 0x003#9 ∧
      ((BitVec.ofNat 32 (3 * 2 ^ 23 + n * 2 ^ 19)).extractLsb' 19 3).toNat = n)) ∧
    (∀ n ∈ [0x00000001, 0x00100000, 0x00A00000, 0x01840000, 0x02040000, 0x05C00000, 0x13801000 + 0x400000, 0x13001000,
        0x1083F000, 0x11400000, 0x20040000, 0x3AA00000, 0x3A800001],
      (BitVec.ofNat 32 n).extractLsb' 0 23 &&& zeroBits ((BitVec.ofNat 32 n).extractLsb' 23 9) ≠ 0#23 ∧
      decode (BitVec.ofNat 32 n) = .error .reservedBit) ∧
    (1#6).toNat % 2 = 1 ∧ (63#6).toNat % 2 = 1 ∧ (63#6 ≠ 0#6) := by decide +kernel

/-- With and without a turn of the core in `env`. -/
theorem witness_StepRunsDecodedInstruction :
    (placed 0x16000000#32).run = .running ∧ CoreMoves (placed 0x16000000#32) [] ∧
    CoreMoves ((placed 0x16000000#32).setEnv []) [] ∧ ¬ CoreMoves ((stateQueued false).setEnv []) [] ∧
    (placed 0x16000000#32).image[0]? = some 0x16000000#32 ∧
    (placed 0x16000000#32).ip.toNat = (placed 0x16000000#32).imageBase.toNat + 4 * 0 ∧
    (placed 0x16000000#32).decode 0x16000000#32 = .ok .nop ∧
    CoreMoves ((placed 0x16000000#32).setEnv [.core, .host .stop]) [.host .stop] ∧
    (nextOf (step (placed 0x16000000#32))).map State.ip = some 0x1004#32 ∧
    (nextOf (step ((placed 0x16000000#32).setEnv []))).map State.ip = some 0x1004#32 ∧
    (nextOf (step ((placed 0x16000000#32).setEnv [.core, .host .stop]))).map State.env = some [.host .stop] := by
  decide +kernel

/-- Below, at the start, and one word past the end of the image; an empty image; an illegal word. -/
theorem witness_FetchAndDecodeFaults :
    ((placed 0#32).setIp 0xFFC#32).ip.toNat < ((placed 0#32).setIp 0xFFC#32).imageBase.toNat ∧
    runAfter ((placed 0#32).setIp 0xFFC#32) = some (.faulted (.fetchFault 0xFFC#32)) ∧
    ((placed 0#32).setIp 0x1004#32).imageBase.toNat + 4 * ((placed 0#32).setIp 0x1004#32).image.length ≤
      ((placed 0#32).setIp 0x1004#32).ip.toNat ∧
    runAfter ((placed 0#32).setIp 0x1004#32) = some (.faulted (.fetchFault 0x1004#32)) ∧
    runAfter State.reset = some (.faulted (.fetchFault 0x1000#32)) ∧
    (placed 0x50000000#32).image[0]? = some 0x50000000#32 ∧
    (placed 0x50000000#32).decode 0x50000000#32 = .error .unassignedGroup ∧
    CoreMoves ((placed 0x50000000#32).setEnv [.core, .core]) [.core] ∧ CoreMoves State.reset [] ∧
    nextOf (step ((placed 0x50000000#32).setEnv [.core, .core])) =
      some (((placed 0x50000000#32).setEnv [.core]).setRun (.faulted (.illegalInstruction 0x1000#32 0x50000000#32))) ∧
    runAfter (placed 0x50000000#32) = some (.faulted (.illegalInstruction 0x1000#32 0x50000000#32)) := by decide +kernel

theorem witness_FaultChangesOnlyRunState :
    CoreMoves State.reset [] ∧ State.reset.run = .running ∧
    nextOf (step State.reset) = some (State.reset.setRun (.faulted (.fetchFault 0x1000#32))) ∧
    CoreMoves (State.reset.setEnv [.core, .host .stop]) [.host .stop] ∧
    nextOf (step (State.reset.setEnv [.core, .host .stop])) =
      some ((State.reset.setEnv [.host .stop]).setRun (.faulted (.fetchFault 0x1000#32))) ∧
    nextOf (step ((State.reset.setRun .idle).setEnv [.core])) = some (State.reset.setRun .idle) ∧
    CoreMoves (State.reset.setRun .idle) [] ∧ CoreMoves (State.reset.setRun (.faulted .pendingAtCompletion)) [] ∧
    faultOf (step (State.reset.setRun (.faulted .pendingAtCompletion))) = some .pendingAtCompletion := by decide +kernel

/-- Every line of R263 occurs. -/
theorem witness_RunStateMovesAreListed :
    runAfter ((State.reset.setRun .idle).setEnv [.host (.start launchExample)]) = some .running ∧
    runAfter ((State.reset.setRun .completed).setEnv [.host (.start launchExample)]) = some .running ∧
    runAfter ((State.reset.setRun .stopped).setEnv [.host (.start launchExample)]) = some .running ∧
    runAfter ((State.reset.setRun (.faulted .pendingAtCompletion)).setEnv [.host (.start launchExample)]) = some .running ∧
    runAfter (placed 0x15800000#32) = some .completed ∧
    runAfter ((placed 0x15800000#32).setEnv [.core]) = some .completed ∧
    runAfter ((placed 0x15800000#32).setEnv [.mau .gmau 0]) = some .running ∧
    runAfter State.reset = some (.faulted (.fetchFault 0x1000#32)) ∧
    runAfter (State.reset.setEnv [.host .suspend]) = some .suspended ∧
    runAfter ((State.reset.setRun .suspended).setEnv [.host .resume]) = some .running ∧
    runAfter (State.reset.setEnv [.host .stop]) = some .stopped ∧
    runAfter ((State.reset.setRun .suspended).setEnv [.host .stop]) = some .stopped := by decide +kernel

theorem witness_SignalChangesOnlyBySigOrStart :
    (nextOf (step (placed 0x15800000#32))).map State.signal = some true ∧
    (nextOf (step (((State.reset.setRun .completed).setSignal true).setEnv [.host (.start launchExample)]))).map
      State.signal = some false ∧
    (nextOf (step (placed 0x16000000#32))).map State.signal = some false := by decide +kernel

theorem witness_StepKeepsParametersAndImage :
    (nextOf (step (placed 0x16000000#32))).map State.image = some [0x16000000#32] ∧
    (nextOf (step ((State.reset.setRun .idle).setEnv [.host (.start launchExample)]))).map State.image =
      some [0x15800000#32] := by decide +kernel

/-! ### Rules about all instructions -/

theorem witness_FlagsTouchedOnlyByNamedInstructions :
    (nextOf (exec (.mskl 0#6) stateHalf)).map State.tMask = some 0#32 ∧
    (nextOf (exec (.tst .slice true .zro 1#6 0#6) stateHalf)).map State.tMask = some 0b0010#32 ∧
    (stateS [1#32, 2#32, 3#32, 4#32] 0b1111#32 0b0101#32) =
      stateHalf.setSlices (stateS [1#32, 2#32, 3#32, 4#32] 0b1111#32 0b0101#32).slices ∧
    resultS (.mov .slice .slice 1#6 0#6) (stateS [1#32, 2#32, 3#32, 4#32] 0b1111#32 0b0101#32) =
      resultS (.mov .slice .slice 1#6 0#6) stateHalf := by decide +kernel

theorem witness_DisabledSliceIsUntouched :
    resultS (.mov .slice .slice 1#6 0#6) stateHalf = some [1#32, 0#32, 3#32, 0#32] ∧
    (nextOf (exec (.ld .slice 1#6 2#6) stateHalf)).map (fun t => t.slices.map fun sl => sl.queue.length) =
      some [1, 0, 1, 0] ∧
    (nextOf (exec (.enm 0#6) stateHalf)).map State.execMask = some 0#32 := by decide +kernel

/-- At the last address, where `ip` wraps, and a held `COMMIT`. -/
theorem witness_InstructionPointerAdvances :
    (nextOf (exec .nop (State.reset.setIp 0xFFFFFFFC#32))).map State.ip = some 0#32 ∧
    (nextOf (exec .commit State.reset)).map State.ip = some 0x1004#32 ∧
    (nextOf (exec .discard (stateQueued false))).map State.ip = some 0x1004#32 := by decide +kernel

theorem witness_InstructionsLeaveMachineAlone :
    (nextOf (exec (.st .global .global 1#6 2#6) State.reset)).map (fun t => (t.mem, t.gmau)) =
      some ([], [.store 0#32 0#32 false]) ∧
    (∀ u ∈ (stateQueued true).concernedUnits, ∀ r ∈ (stateQueued true).queueOf u, r.performed = true) ∧
    (nextOf (exec .commit (stateQueued true))).map (fun t => (t.mem, t.gmau)) = some ([], []) := by decide +kernel

/-- Registers pending in every slice, or unwritten in every slice: Slice 0 is named. -/
theorem witness_RegisterChecksInOrder :
    operands200 (.add .slice 3#6 1#6 2#6) = some (.slice, [3#6, 1#6, 2#6], [1#6, 2#6]) ∧
    operands200 (.macq .global 63#6 0#6 0#6) = some (.global, [63#6, 0#6, 0#6], [63#6, 0#6, 0#6]) ∧
    operands200 (.round .slice 3#6 1#6) = some (.slice, [3#6, 1#6], [1#6]) ∧
    RegsReady State.reset .slice [3#6, 1#6, 2#6] [1#6, 2#6] ∧
    (∃ r ∈ concernedRegs (stateQueued false) .slice [3#6, 1#6, 2#6], (stateQueued false).isPending r = true) ∧
    faultOf (exec (.add .slice 3#6 1#6 2#6) (stateQueued false)) = some (.pendingAccess (.slice 0 3#6)) ∧
    (∀ r ∈ concernedRegs stateUnwritten .slice [3#6, 1#6, 2#6], stateUnwritten.isPending r = false) ∧
    (∃ r ∈ concernedRegs stateUnwritten .slice [1#6, 2#6], stateUnwritten.holdsValue (.reg r) = false) ∧
    faultOf (exec (.add .slice 3#6 1#6 2#6) stateUnwritten) = some (.unwrittenRead (.reg (.slice 0 1#6))) := by
  decide +kernel

/-- Every fault an instruction may raise is raised. -/
theorem witness_FaultsComeFromListedInstructions :
    faultOf (exec (.st .global .slice 1#6 2#6) (placed 0#32)) = some (.illegalInstruction 0x1000#32 0#32) ∧
    faultOf (exec (.enm 3#6) (stateQueued false)) = some (.pendingAccess (.global 3#6)) ∧
    faultOf (exec .ent stateUnwritten) = some (.unwrittenRead (.tFlag 0)) ∧
    faultOf (exec (.mvge .toGlobal 61#6 0#6) State.reset) = some (.globalIndexRange 64) ∧
    faultOf (exec (.ld .slice 2#6 1#6) (stateAddr 3 0x1005#32)) = some (.misalignedAccess 0x1005#32) ∧
    faultOf (exec (.st .slice .global 1#6 2#6) (stateAddr 0 0x1000#32)) = some (.codeWrite 0x1000#32) ∧
    faultOf (exec (.ld .global 2#6 4#6) (stateAddr 0 0x1008#32)) = some (.accessFault 0x1008#32) ∧
    faultOf (exec (.ld .slice 2#6 1#6) (stateFull 3)) = some (.queueOverflow (.smau 3)) ∧
    faultOf (exec .sig (stateQueued true)) = some .pendingAtCompletion := by decide +kernel

/-! ### Moves -/

/-- All slices enabled, none, and the last of 32 alone. -/
theorem witness_MovResults :
    RegsReady State.reset .slice [1#6, 2#6] [2#6] ∧ RegsReady State.reset .global [63#6, 0#6] [0#6] ∧
    ListReady State.reset (State.reset.enabledIds.flatMap fun i => [.slice i 1#6, .global 2#6])
      (State.reset.enabledIds.map fun _ => .reg (.global 2#6)) ∧
    stateNone.enabledIds = [] ∧
    (stateLast.slices[31]?.map fun sl => sl.en) = some true ∧ (∀ j, j < 31 → stateLast.enabledAt j = false) ∧
    ListReady stateLast (stateLast.enabledIds.flatMap fun j => [.global 1#6, .slice j 2#6])
      [.reg (.slice 31 2#6)] ∧
    ListReady State.reset (State.reset.enabledIds.flatMap fun j => [.global 1#6, .slice j 2#6])
      [.reg (.slice 0 2#6)] := by decide +kernel

/-- In each form, a pending register and one without a value. -/
theorem witness_MovResults_fault :
    (∀ g ∈ [RegSet.slice, RegSet.global],
      ¬ RegsReady (stateQueued false) g [3#6, 2#6] [2#6] ∧ ¬ RegsReady stateUnwritten g [1#6, 2#6] [2#6]) ∧
    ¬ ListReady (stateQueued false) ((stateQueued false).enabledIds.flatMap fun i => [.slice i 1#6, .global 3#6])
      ((stateQueued false).enabledIds.map fun _ => .reg (.global 3#6)) ∧
    ¬ ListReady (stateQueued false) ((stateQueued false).enabledIds.flatMap fun j => [.global 3#6, .slice j 2#6])
      (((stateQueued false).enabledIds.take 1).map fun j => .reg (.slice j 2#6)) ∧
    ¬ ListReady stateUnwritten (stateUnwritten.enabledIds.flatMap fun j => [.global 1#6, .slice j 2#6])
      ((stateUnwritten.enabledIds.take 1).map fun j => .reg (.slice j 2#6)) ∧
    faultOf (exec (.mov .global .slice 1#6 2#6) stateUnwritten) = some (.unwrittenRead (.reg (.slice 0 2#6))) ∧
    (nextOf (exec (.mov .global .slice 3#6 2#6) ((stateQueued false).setSlices []))).map State.ip = some 0x1004#32 := by
  decide +kernel

/-- The last number, `G63`, for Slice 3 of four, and for the second enabled slice. -/
theorem witness_IndexedMovesFromGlobal :
    (∀ k ∈ State.reset.enabledIds, (60#6).toNat + k ≤ 63) ∧
    ListReady State.reset (State.reset.enabledIds.flatMap fun k => [.slice k 1#6, .global (BitVec.ofNat 6 (60 + k))])
      (State.reset.enabledIds.map fun k => .reg (.global (BitVec.ofNat 6 (60 + k)))) ∧
    (∀ k ∈ stateHalf.enabledIds, (62#6).toNat + ((List.range k).filter stateHalf.enabledAt).length ≤ 63) ∧
    ListReady stateHalf
      (stateHalf.enabledIds.flatMap fun k =>
        [.slice k 1#6, .global (BitVec.ofNat 6 (62 + ((List.range k).filter stateHalf.enabledAt).length))])
      (stateHalf.enabledIds.map fun k =>
        .reg (.global (BitVec.ofNat 6 (62 + ((List.range k).filter stateHalf.enabledAt).length)))) := by decide +kernel

theorem witness_IndexedMovesToGlobal :
    (∀ k ∈ State.reset.enabledIds, (60#6).toNat + k ≤ 63) ∧
    ListReady State.reset (State.reset.enabledIds.flatMap fun k => [.global (BitVec.ofNat 6 (60 + k)), .slice k 1#6])
      (State.reset.enabledIds.map fun k => .reg (.slice k 1#6)) ∧
    (∀ k ∈ stateHalf.enabledIds, (62#6).toNat + ((List.range k).filter stateHalf.enabledAt).length ≤ 63) ∧
    ListReady stateHalf
      (stateHalf.enabledIds.flatMap fun k =>
        [.global (BitVec.ofNat 6 (62 + ((List.range k).filter stateHalf.enabledAt).length)), .slice k 1#6])
      (stateHalf.enabledIds.map fun k => .reg (.slice k 1#6)) := by decide +kernel

/-- A pending destination, and a source without a value; `G64` is no register and is not checked. -/
theorem witness_IndexedMoves_fault :
    ¬ ListReady (stateQueued false) ((stateQueued false).enabledIds.flatMap fun k => .slice k 3#6 :: globalRefs ((63#6).toNat + k))
      ((stateQueued false).enabledIds.flatMap fun k => (globalRefs ((63#6).toNat + k)).map ReadRef.reg) ∧
    ¬ ListReady stateUnwritten (stateUnwritten.enabledIds.flatMap fun k => globalRefs ((0#6).toNat + k) ++ [.slice k 1#6])
      (stateUnwritten.enabledIds.map fun k => .reg (.slice k 1#6)) ∧
    faultOf (exec (.mvg .fromGlobal 3#6 63#6) (stateQueued false)) = some (.pendingAccess (.slice 0 3#6)) ∧
    faultOf (exec (.mvge .toGlobal 0#6 1#6) stateUnwritten) = some (.unwrittenRead (.reg (.slice 0 1#6))) := by decide +kernel

/-- Slice 3 is the first out of range for `MVG` from `G61`; the second enabled slice for `MVGE` from `G63`. -/
theorem witness_IndexedMovesOutOfRange :
    ListReady State.reset (State.reset.enabledIds.flatMap fun k => .slice k 1#6 :: globalRefs (61 + k))
      (State.reset.enabledIds.flatMap fun k => (globalRefs (61 + k)).map ReadRef.reg) ∧
    ListReady State.reset (State.reset.enabledIds.flatMap fun k => globalRefs (61 + k) ++ [.slice k 1#6])
      (State.reset.enabledIds.map fun k => .reg (.slice k 1#6)) ∧
    State.reset.enabledAt 3 = true ∧ 63 < 61 + 3 ∧ (∀ j, j < 3 → State.reset.enabledAt j = true → 61 + j ≤ 63) ∧
    ListReady stateHalf
      (stateHalf.enabledIds.flatMap fun k =>
        .slice k 1#6 :: globalRefs (63 + ((List.range k).filter stateHalf.enabledAt).length))
      (stateHalf.enabledIds.flatMap fun k =>
        (globalRefs (63 + ((List.range k).filter stateHalf.enabledAt).length)).map ReadRef.reg) ∧
    stateHalf.enabledAt 2 = true ∧ 63 < 63 + ((List.range 2).filter stateHalf.enabledAt).length ∧
    (∀ j, j < 2 → stateHalf.enabledAt j = true → 63 + ((List.range j).filter stateHalf.enabledAt).length ≤ 63) := by
  decide +kernel

/-- The ends of the range of `QFRAC`. -/
theorem witness_MviResults :
    LegalQfrac State.reset ∧ RegsReady State.reset .slice [1#6] [] ∧ RegsReady State.reset .global [63#6] [] ∧
    LegalQfrac { State.reset with params := { Params.default with qfrac := 10 } } ∧
    LegalQfrac { State.reset with params := { Params.default with qfrac := 20 } } ∧
    ∀ g ∈ [RegSet.slice, RegSet.global], ¬ RegsReady (stateQueued false) g [3#6] [] := by decide +kernel

theorem witness_RelpcResult :
    RegsReady State.reset .slice [1#6] [] ∧ RegsReady State.reset .global [63#6] [] ∧
    RegsReady stateNone .slice [1#6] [] ∧
    ∀ g ∈ [RegSet.slice, RegSet.global], ¬ RegsReady (stateQueued false) g [3#6] [] := by decide +kernel

/-! ### Memory -/

/-- A pending register and one without a value, in each form of `LD` and `ST`. -/
theorem witness_LdStChecks_fault :
    (∀ g ∈ [RegSet.slice, RegSet.global],
      ¬ RegsReady (stateQueued false) g [3#6, 1#6] [1#6] ∧ ¬ RegsReady stateUnwritten g [2#6, 1#6] [1#6] ∧
      ¬ ListReady (stateQueued false) ((stateQueued false).enabledIds.flatMap fun i => [.slice i 1#6, regRef g i 3#6])
        ((stateQueued false).enabledIds.flatMap fun i => [.reg (.slice i 1#6), .reg (regRef g i 3#6)])) ∧
    ¬ RegsReady stateUnwritten .global [1#6, 2#6] [1#6, 2#6] ∧
    faultOf (exec (.ld .slice 3#6 1#6) (stateQueued false)) = some (.pendingAccess (.slice 0 3#6)) ∧
    faultOf (exec (.st .global .global 1#6 2#6) stateUnwritten) = some (.unwrittenRead (.reg (.global 1#6))) := by
  decide +kernel

theorem witness_LdQueuesLoads :
    RegsReady (stateAddr 3 0x1000#32) .slice [2#6, 1#6] [1#6] ∧
    (∀ i ∈ (stateAddr 3 0x1000#32).enabledIds,
      LoadAddress (stateAddr 3 0x1000#32) (((stateAddr 3 0x1000#32).sliceRegs i).get 1#6)) ∧
    QueueRoom (stateAddr 3 0x1000#32) ((stateAddr 3 0x1000#32).enabledIds.map .smau) ∧
    RegsReady (stateAddr 3 0x1000#32) .global [2#6, 4#6] [4#6] ∧
    LoadAddress (stateAddr 3 0x1000#32) ((stateAddr 3 0x1000#32).globals.get 4#6) ∧
    QueueRoom (stateAddr 3 0x1000#32) [.gmau] ∧
    RegsReady stateNone .slice [1#6, 2#6] [2#6] ∧ LoadAddress State.reset 0xFFFFFFFC#32 := by decide +kernel

theorem witness_StQueuesStores :
    (∀ gs ∈ [RegSet.slice, RegSet.global],
      ListReady (stateAddr 3 0x1004#32) ((stateAddr 3 0x1004#32).enabledIds.flatMap fun i => [.slice i 1#6, regRef gs i 2#6])
        ((stateAddr 3 0x1004#32).enabledIds.flatMap fun i => [.reg (.slice i 1#6), .reg (regRef gs i 2#6)])) ∧
    (∀ i ∈ (stateAddr 3 0x1004#32).enabledIds,
      StoreAddress (stateAddr 3 0x1004#32) (((stateAddr 3 0x1004#32).sliceRegs i).get 1#6)) ∧
    QueueRoom (stateAddr 3 0x1004#32) ((stateAddr 3 0x1004#32).enabledIds.map .smau) ∧
    RegsReady (stateAddr 3 0x1004#32) .global [4#6, 2#6] [4#6, 2#6] ∧
    StoreAddress (stateAddr 3 0x1004#32) ((stateAddr 3 0x1004#32).globals.get 4#6) ∧
    QueueRoom (stateAddr 3 0x1004#32) [.gmau] := by decide +kernel

/-- Addresses that fail: not aligned, just outside `MEM_ADMIT`, in the image. -/
def badAddrs : List Word := [0x1005#32, 0x1007#32, 0x1008#32, 0xFFC#32, 0x1000#32]

/-- Slice 2 is the first whose address fails, with each fault; its queue is the first that is full. -/
theorem witness_AddressFaultsInOrder_slices :
    (badAddrs.all fun a => decide (RegsReady (stateAddr 2 a) .slice [2#6, 1#6] [1#6])) = true ∧
    (badAddrs.all fun a => decide (∀ j ∈ (stateAddr 2 a).enabledIds, j < 2 →
      StoreAddress (stateAddr 2 a) (((stateAddr 2 a).sliceRegs j).get 1#6))) = true ∧
    (badAddrs.all fun a => [RegSet.slice, RegSet.global].all fun gs => decide
      (ListReady (stateAddr 2 a) ((stateAddr 2 a).enabledIds.flatMap fun i => [.slice i 1#6, regRef gs i 2#6])
        ((stateAddr 2 a).enabledIds.flatMap fun i => [.reg (.slice i 1#6), .reg (regRef gs i 2#6)]))) = true ∧
    (stateAddr 2 0x1007#32).slices[2]?.map (fun sl => (sl.en, (sl.regs.get 1#6).toNat % 4)) = some (true, 3) ∧
    ((stateAddr 2 0x1008#32).admits 0x1008#32 = false ∧ (stateAddr 2 0xFFC#32).admits 0xFFC#32 = false) ∧
    (LoadAddress (stateAddr 2 0x1000#32) 0x1000#32 ∧ (stateAddr 2 0x1000#32).inImage 0x1000#32 = true) ∧
    RegsReady (stateFull 2) .slice [2#6, 1#6] [1#6] ∧
    (∀ j ∈ (stateFull 2).enabledIds, StoreAddress (stateFull 2) (((stateFull 2).sliceRegs j).get 1#6)) ∧
    (stateFull 2).params.mauDepth = some 1 ∧ ((stateFull 2).queueOf (.smau 2)).length = 1 ∧
    (∀ j ∈ (stateFull 2).enabledIds, j < 2 → ((stateFull 2).queueOf (.smau j)).length < 1) := by decide +kernel

theorem witness_AddressFaultsInOrder_global :
    (badAddrs.all fun a => decide (RegsReady (stateAddr 4 a) .global [2#6, 4#6] [4#6])) = true ∧
    (badAddrs.all fun a => decide (RegsReady (stateAddr 4 a) .global [4#6, 2#6] [4#6, 2#6])) = true ∧
    (badAddrs.all fun a => decide ((stateAddr 4 a).globals.get 4#6 = a)) = true ∧
    ((stateAddr 4 0x1008#32).admits 0x1008#32 = false ∧ (stateAddr 4 0xFFC#32).admits 0xFFC#32 = false) ∧
    (LoadAddress (stateAddr 4 0x1000#32) 0x1000#32 ∧ (stateAddr 4 0x1000#32).inImage 0x1000#32 = true) ∧
    RegsReady (stateFull 4) .global [2#6, 4#6] [4#6] ∧ RegsReady (stateFull 4) .global [4#6, 2#6] [4#6, 2#6] ∧
    StoreAddress (stateFull 4) ((stateFull 4).globals.get 4#6) ∧
    (stateFull 4).params.mauDepth = some 1 ∧ (stateFull 4).gmau.length = 1 := by decide +kernel

/-- Nothing queued, and performed loads and stores in every unit. -/
theorem witness_CommitDelivers :
    (∀ s ∈ [State.reset, stateQueued true, stateHalf],
      (∀ u ∈ s.concernedUnits, ∀ r ∈ s.queueOf u, r.performed = true) ∧
      (destsOf s.gmau).Nodup ∧ ∀ sl ∈ s.slices, (destsOf sl.queue).Nodup) ∧
    (nextOf (exec .commit (stateQueued true))).map (fun t => (t.globals.get 3#6, t.ip)) = some (9#32, 0x1004#32) := by
  decide +kernel

theorem witness_HeldCommitPerformsOneRequest :
    (∀ s ∈ [stateQueued false, State.reset.setGmau [.store 8#32 7#32 false]], s.mem.wf = true ∧
      ∃ u ∈ s.concernedUnits, ∃ r ∈ s.queueOf u, r.performed = false) ∧
    (nextOf (exec .commit (State.reset.setGmau [.store 8#32 7#32 false]))).map
      (fun t => (t.mem, t.ip)) = some ([(8, 7#8)], 0x1000#32) := by decide +kernel

theorem witness_DiscardClearsQueues :
    State.reset.gmau = [] ∧ (∀ i ∈ State.reset.enabledIds, State.reset.queueOf (.smau i) = []) := by decide +kernel

/-- The oldest request, and under `any` the second too. -/
theorem witness_UnitPerformsRequest :
    (stateQueued false).mem.wf = true ∧
    ((stateQueued false).setEnv [.mau (.smau 3) 0]).env = .mau (.smau 3) 0 :: [] ∧
    ((stateQueued false).queueOf (.smau 3))[0]? = some (.load 3#6 4#32 none) ∧
    ((stateQueued false).queueOf .gmau)[1]? = some (.store 8#32 7#32 false) ∧
    (Request.load 3#6 4#32 none).performed = false ∧ (Request.store 8#32 7#32 false).performed = false ∧
    (∀ r' ∈ ((stateQueued false).queueOf (.smau 3)).take 0, r'.performed = true) ∧
    (stateQueued false).params.mauOrder ≠ .fifo ∧
    (stateQueued false).env = [] ∧ Request.store 8#32 7#32 false ∈ (stateQueued false).queueOf (.smau 3) := by
  decide +kernel

/-- R292, R65: the SMAU of a disabled slice has its move in the plan that an empty list gets. -/
theorem test_plan_disabled_slice :
    ((stateQueued false).setSlices (updateEvery (fun _ sl => sl.setEn false) (stateQueued false).slices)).scheduled.env =
      ((stateQueued false).setSlices (updateEvery (fun _ sl => sl.setEn false) (stateQueued false).slices)).plan ∧
    Move.mau (.smau 3) 1 ∈
      ((stateQueued false).setSlices (updateEvery (fun _ sl => sl.setEn false) (stateQueued false).slices)).plan :=
  ⟨rfl, mem_plan (by decide +kernel) (by decide +kernel)⟩

/-- A number past the end, a performed request, and under `fifo` one with an older one unperformed. -/
theorem witness_UnitOrderIsRespected :
    ((stateQueued false).queueOf .gmau)[2]? = none ∧
    ((stateQueued true).queueOf .gmau)[1]? = some (.store 8#32 7#32 true) ∧
    (∃ r' ∈ ((stateQueued false).queueOf .gmau).take 1, r'.performed = false) ∧
    ({ stateQueued false with params := { Params.default with mauOrder := .fifo } } : State).params.mauOrder = .fifo := by
  decide +kernel

/-! ### Control flow and conditional execution -/

/-- The first and the last slice without a `T` flag, in both modes. -/
theorem witness_EntResults :
    State.reset.params.entMode = .replace ∧ (∀ i ∈ State.reset.allIds, State.reset.holdsValue (.tFlag i) = true) ∧
    (∀ i ∈ stateHalf.enabledIds, stateHalf.holdsValue (.tFlag i) = true) ∧
    (0 ∈ stateUnwritten.allIds ∧ stateUnwritten.holdsValue (.tFlag 0) = false) ∧
    (0 ∈ stateUnwritten.enabledIds) ∧
    faultOf (exec .ent { stateUnwritten with params := { Params.default with entMode := .narrow } }) =
      some (.unwrittenRead (.tFlag 0)) ∧
    (nextOf (exec .ent { stateHalf with params := { Params.default with entMode := .narrow } })).map State.execMask =
      some 0b0001#32 ∧
    (nextOf (exec .ent stateHalf)).map State.execMask = some 0b0011#32 := by decide +kernel

/-- An instruction with one global operand, ready, pending, and unwritten. -/
theorem witness_EnmSetsExecutionMask :
    RegsReady State.reset .global [63#6] [63#6] ∧ ¬ RegsReady (stateQueued false) .global [3#6] [3#6] ∧
    ¬ RegsReady stateUnwritten .global [0#6] [0#6] := by decide +kernel

theorem witness_TmstStoresFlagMask :
    ListReady State.reset [.global 63#6] (State.reset.allIds.map ReadRef.tFlag) ∧
    ¬ ListReady (stateQueued false) [.global 3#6] ((stateQueued false).allIds.map ReadRef.tFlag) ∧
    ¬ ListReady stateUnwritten [.global 0#6] (stateUnwritten.allIds.map ReadRef.tFlag) := by decide +kernel

theorem witness_EmstStoresExecutionMask :
    RegsReady State.reset .global [63#6] [] ∧ ¬ RegsReady (stateQueued false) .global [3#6] [] ∧
    RegsReady stateLast .global [0#6] [] ∧ stateLast.slices.length ≤ 32 := by decide +kernel

theorem witness_MsklLoadsFlags :
    RegsReady State.reset .global [63#6] [63#6] ∧ ¬ RegsReady (stateQueued false) .global [3#6] [3#6] ∧
    (nextOf (exec (.tst .slice false .zro 1#6 0#6) stateHalf)).map State.tMask = some 0b0111#32 := by decide +kernel

theorem witness_LdtLoadsLogicalBoolean :
    ListReady stateHalf (concernedRegs stateHalf .slice [63#6]) (stateHalf.enabledIds.map ReadRef.tFlag) ∧
    ¬ ListReady (stateQueued false) (concernedRegs (stateQueued false) .slice [3#6])
      ((stateQueued false).enabledIds.map ReadRef.tFlag) ∧
    ¬ ListReady stateUnwritten (concernedRegs stateUnwritten .slice [3#6])
      (stateUnwritten.enabledIds.map ReadRef.tFlag) := by decide +kernel

theorem witness_SelResult :
    ∀ s ∈ [stateHalf, stateNone, stateLast],
      ListReady s (concernedRegs s .slice [1#6, 0#6, 2#6])
        (s.enabledIds.flatMap fun i => [.tFlag i, .reg (.slice i (if s.flagT i then 0#6 else 2#6))]) := by decide +kernel

/-- The register that is not chosen is pending; the `T` flag holds no value. -/
theorem witness_SelResult_fault :
    ∀ s ∈ [stateQueued false, stateUnwritten],
      ¬ ListReady s (concernedRegs s .slice [1#6, 3#6, 2#6])
        (s.enabledIds.flatMap fun i => [.tFlag i, .reg (.slice i (if s.flagT i then 3#6 else 2#6))]) := by decide +kernel

/-- A condition with one operand and one with two, on either set. -/
theorem witness_TstResult :
    ∀ g ∈ [RegSet.slice, RegSet.global], ∀ c ∈ [Cond.zro, Cond.equ, Cond.cns, Cond.sgt],
      ListReady stateHalf
        (stateHalf.enabledIds.flatMap fun i => (if c.takesTwo then [1#6, 2#6] else [1#6]).map (regRef g i))
        (stateHalf.enabledIds.flatMap fun i =>
          (if c.takesTwo then [1#6, 2#6] else [1#6]).map fun n => .reg (regRef g i n)) := by decide +kernel

/-- A pending register and one without a value, for a condition with two operands and one with one. -/
theorem witness_TstResult_fault :
    ∀ s ∈ [stateQueued false, stateUnwritten], ∀ g ∈ [RegSet.slice, RegSet.global], ∀ c ∈ [Cond.equ, Cond.neg],
      ¬ ListReady s
        (s.enabledIds.flatMap fun i => (if c.takesTwo then [3#6, 2#6] else [3#6]).map (regRef g i))
        (s.enabledIds.flatMap fun i =>
          (if c.takesTwo then [3#6, 2#6] else [3#6]).map fun n => .reg (regRef g i n)) := by decide +kernel

theorem witness_BranchResults :
    State.reset.slices.length ≤ 32 ∧ State.reset.enabledAt 3 = true ∧
    stateSelect.params.opcodeMap.ownBranch .br = true ∧ stateSelect.params.opcodeMap.ownBranch .ben = false ∧
    stateSelect.slices.length ≤ 32 ∧
    stateLast.slices.length = 32 ∧ stateLast.enabledAt 31 = true ∧
    (nextOf (exec (.ben 1#23) stateLast)).map State.ip = some 0x1004#32 ∧
    stateNone.slices.length ≤ 32 ∧ stateNone.enabledIds = [] ∧
    (nextOf (exec (.bnen 0x400000#23) stateNone)).map State.ip = some 0xFF001000#32 := by decide +kernel

theorem witness_SigResults :
    State.reset.gmau = [] ∧ (∀ sl ∈ State.reset.slices, sl.queue = []) ∧ State.reset.params.sigHalts = true ∧
    ({ State.reset with params := { Params.default with sigHalts := false } } : State).params.sigHalts = false ∧
    (stateQueued true).gmau ≠ [] ∧ (∃ sl ∈ (stateQueued true).slices, sl.queue ≠ []) := by decide +kernel

/-! ### Logic and mathematics: the registers are ready, the arguments as the clauses ask -/

/-- The default machine has no function of its own; one that has them for both operand forms. -/
theorem witness_NumValue :
    State.reset.params.ownNum .be = false ∧ (withNum [.lsr, .udivi] State.reset).params.ownNum .udivi = true ∧
    RegsReady (withNum [.lsr, .udivi] State.reset) .slice [3#6, 1#6, 2#6] [1#6, 2#6] ∧
    LegalQfrac (withNum [.round] State.reset) := by decide +kernel

theorem witness_AndOrResults :
    (∀ g ∈ [RegSet.slice, RegSet.global], RegsReady State.reset g [3#6, 1#6, 2#6] [1#6, 2#6]) ∧
    ∀ g ∈ [RegSet.slice, RegSet.global], ¬ RegsReady (stateQueued false) g [3#6, 1#6, 2#6] [1#6, 2#6] := by
  decide +kernel

theorem witness_XorNotLnotResults :
    ∀ g ∈ [RegSet.slice, RegSet.global],
      RegsReady State.reset g [63#6, 0#6, 0#6] [0#6, 0#6] ∧ RegsReady State.reset g [63#6, 0#6] [0#6] := by
  decide +kernel

theorem witness_LboolPcntResults :
    (∀ g ∈ [RegSet.slice, RegSet.global], RegsReady State.reset g [3#6, 1#6] [1#6]) ∧
    ∀ g ∈ [RegSet.slice, RegSet.global], ¬ RegsReady stateUnwritten g [3#6, 1#6] [1#6] := by decide +kernel

/-- Bit 31 is the lowest set bit; bit 0 is. -/
theorem witness_BitNumberResults :
    (∀ g ∈ [RegSet.slice, RegSet.global],
      RegsReady State.reset g [3#6, 1#6] [1#6] ∧ RegsReady State.reset g [3#6, 1#6, 2#6] [1#6, 2#6]) ∧
    ((0x80000000#32).getLsbD 31 = true ∧ ∀ j, j < 31 → (0x80000000#32).getLsbD j = false) ∧
    resultG (.ffs .global 3#6 1#6) 0x80000000#32 0#32 0#32 = some 32#32 ∧
    resultG (.ffs .global 3#6 1#6) 1#32 0#32 0#32 = some 1#32 := by decide +kernel

theorem witness_ShiftResults :
    ∀ g ∈ [RegSet.slice, RegSet.global], RegsReady State.reset g [3#6, 3#6, 3#6] [3#6, 3#6] := by decide +kernel

theorem witness_ReversalAndHalfWordResults :
    ∀ g ∈ [RegSet.slice, RegSet.global], RegsReady State.reset g [3#6, 3#6] [3#6] := by decide +kernel

theorem witness_AddSubtractAndSignResults :
    ∀ g ∈ [RegSet.slice, RegSet.global],
      RegsReady State.reset g [3#6, 1#6, 2#6] [1#6, 2#6] ∧ RegsReady State.reset g [3#6, 1#6] [1#6] := by decide +kernel

theorem witness_IntegerMultiplyResults :
    ∀ g ∈ [RegSet.slice, RegSet.global],
      RegsReady State.reset g [3#6, 1#6, 2#6] [1#6, 2#6] ∧
      RegsReady State.reset g [3#6, 1#6, 2#6] [3#6, 1#6, 2#6] := by decide +kernel

theorem witness_FixedMultiplyResults :
    ∀ g ∈ [RegSet.slice, RegSet.global],
      RegsReady stateHalf g [3#6, 1#6, 2#6] [1#6, 2#6] ∧ RegsReady stateHalf g [3#6, 1#6, 2#6] [3#6, 1#6, 2#6] := by
  decide +kernel

/-- A divisor that is 0 and one that is not. -/
theorem witness_IntegerDivideResults :
    (∀ g ∈ [RegSet.slice, RegSet.global], RegsReady (stateG 7#32 2#32 0#32) g [3#6, 1#6, 2#6] [1#6, 2#6]) ∧
    (stateG 7#32 2#32 0#32).globals.get 2#6 ≠ 0#32 ∧ (stateG 7#32 2#32 0#32).globals.get 3#6 = 0#32 ∧
    resultG (.urem .global 3#6 1#6 2#6) 7#32 2#32 0#32 = some 1#32 := by decide +kernel

/-- A radicand at the ends of its range, at the ends of the range of `QFRAC`. -/
theorem witness_FixedDivideResults :
    LegalQfrac State.reset ∧ LegalQfrac { State.reset with params := { Params.default with qfrac := 20 } } ∧
    (∀ g ∈ [RegSet.slice, RegSet.global],
      RegsReady (stateG 7#32 2#32 0#32) g [3#6, 1#6, 2#6] [1#6, 2#6] ∧
      RegsReady (stateG 7#32 2#32 0#32) g [3#6, 1#6] [1#6]) ∧
    (stateG 7#32 2#32 0#32).globals.get 2#6 ≠ 0#32 ∧ 0 ≤ (0x7FFFFFFF#32).toInt ∧ 0 ≤ (0#32).toInt ∧
    ¬ 0 ≤ (0x80000000#32).toInt := by decide +kernel

theorem witness_RoundingResults :
    LegalQfrac State.reset ∧
    ∀ g ∈ [RegSet.slice, RegSet.global], RegsReady State.reset g [3#6, 1#6] [1#6] := by decide +kernel

/-! ### The host and the invariant -/

/-- A start from each state that allows one; entries at the first and the last address. -/
theorem witness_HostStartSetsWholeState :
    launchExample.ok 4 = true ∧ State.reset.slices.length = 4 ∧
    (RunState.idle.startable && RunState.completed.startable && RunState.stopped.startable &&
      (RunState.faulted .pendingAtCompletion).startable) = true ∧
    (nextOf (step ((State.reset.setRun .idle).setEnv [.host (.start launchExample)]))).map
      (fun t => (t.ip, t.globals.get 0#6, t.globals.holds 1#6, t.mem.readWord .little 0xFFFFFFFC#32)) =
      some (0x1000#32, 2#32, false, 0x01020304#32) := by decide +kernel

theorem witness_HostSuspendResumeStop :
    (State.reset.setEnv [.host .suspend, .host .resume]).env = .host .suspend :: .host .resume :: [] ∧
    State.reset.run = .running ∧ ((State.reset.setRun .suspended).setEnv [.host .resume]).run = .suspended ∧
    (nextOf (step ((stateQueued false).setEnv [.host .stop]))).map (fun t => (t.anyQueued, t.run)) =
      some (false, .stopped) ∧
    (({ launchExample with entry := 2#32 } : Launch).ok 4) = false ∧
    (({ launchExample with memInit := [(0#32, 5#32), (0xFFFFFFFC#32, 1#32)] } : Launch).ok 4) = false ∧
    (({ launchExample with tInit := [(4, true)] } : Launch).ok 4) = false ∧
    (({ launchExample with memInit := (8#32, 1#32) :: launchExample.memInit } : Launch).ok 4) = true := by decide +kernel

/-- The task ends at its `SIG`, and the host reads memory outside the image. -/
theorem witness_CompletedTaskShowsMemory :
    (placed 0x15800000#32).run ≠ .completed ∧ runAfter (placed 0x15800000#32) = some .completed ∧
    (nextOf (step (placed 0x15800000#32))).map (fun t => (t.hostByte 0, t.hostByte 0xFFFFFFFF, t.hostByte 0x1003,
      t.imageWord 0x1004#32)) = some (some 0#8, some 0#8, some 0x15#8, none) := by decide +kernel

theorem witness_StepKeepsInvariant :
    StateInv (placed 0x15800000#32) = true ∧ runAfter (placed 0x15800000#32) = some .completed ∧
    StateInv (stateQueued false) = true ∧
    runAfter ((stateQueued false).setEnv [.mau .gmau 1]) = some .running := by decide +kernel

end Sys2Proof.Machine
end

/-! # The results of the branches (O41) -/

namespace Sys2Proof.Machine

/-! ## What each branch answers -/

theorem exec_br (off : BitVec 23) (s : State) : exec (.br off) s = .next (s.setIp (s.branchTo .br off)) := rfl

theorem exec_ben_of_execMask_ne_zero (off : BitVec 23) {s : State} (h : s.execMask ≠ 0#32) :
    exec (.ben off) s = .next (s.setIp (s.branchTo .ben off)) :=
  congrArg Host.Outcome.next (if_pos h)

theorem exec_ben_of_execMask_eq_zero (off : BitVec 23) {s : State} (h : s.execMask = 0#32) :
    exec (.ben off) s = .next s.advance :=
  congrArg Host.Outcome.next (if_neg (not_not_intro h))

theorem exec_bnen_of_execMask_eq_zero (off : BitVec 23) {s : State} (h : s.execMask = 0#32) :
    exec (.bnen off) s = .next (s.setIp (s.branchTo .bnen off)) :=
  congrArg Host.Outcome.next (if_pos h)

theorem exec_bnen_of_execMask_ne_zero (off : BitVec 23) {s : State} (h : s.execMask ≠ 0#32) :
    exec (.bnen off) s = .next s.advance :=
  congrArg Host.Outcome.next (if_neg h)

/-! ## The execution mask and the target -/

/-- `execMask_eq_zero` for the case that some slice is enabled. -/
theorem execMask_ne_zero {s : State} (h : s.slices.length ≤ 32) :
    s.execMask ≠ 0#32 ↔ ∃ i, s.enabledAt i = true := by
  simp [execMask_eq_zero h]

/-- Shifting the sign-extended offset left by 2 and adding it to `ip` is signed arithmetic modulo 2^32 (R102). -/
theorem branchTarget_eq_ofInt (ip : Word) (off : BitVec 23) :
    branchTarget ip off = BitVec.ofInt 32 (ip.toNat + 4 * off.toInt) := by
  have hshift : off.signExtend 32 <<< 2 = BitVec.ofInt 32 (4 * off.toInt) := by
    rw [BitVec.shiftLeft_eq_mul_twoPow, BitVec.mul_comm, BitVec.ofInt_mul, BitVec.signExtend]
    rfl
  rw [branchTarget, hshift, BitVec.ofInt_add, BitVec.ofInt_natCast, BitVec.ofNat_toNat, BitVec.setWidth_eq]

/-- The model's target is the one of the rules, in format `B23` and in an operand form of the map's own. -/
theorem branchTargetIs_branchTo (s : State) (b : BranchOp) (off : BitVec 23) :
    BranchTargetIs s b off (s.branchTo b off) := by
  unfold BranchTargetIs
  split
  case isTrue hown => exact branchTo_own hown off
  case isFalse hown => rw [branchTo_b23 (Bool.eq_false_iff.mpr hown), branchTarget_eq_ofInt]

/-- Settles O41: whether a branch is taken is whether `ExecMask` is 0, and its target is that of the rules. -/
theorem branchResults : Obligations.BranchResults := by
  intro s off hlen
  refine ⟨⟨_, branchTargetIs_branchTo s .br off, exec_br off s⟩, fun hsome => ?_, fun hnone => ?_⟩
  · have hmask : s.execMask ≠ 0#32 := (execMask_ne_zero hlen).mpr hsome
    exact ⟨⟨_, branchTargetIs_branchTo s .ben off, exec_ben_of_execMask_ne_zero off hmask⟩,
      exec_bnen_of_execMask_ne_zero off hmask⟩
  · have hmask : s.execMask = 0#32 := (execMask_eq_zero hlen).mpr hnone
    exact ⟨exec_ben_of_execMask_eq_zero off hmask,
      _, branchTargetIs_branchTo s .bnen off, exec_bnen_of_execMask_eq_zero off hmask⟩

end Sys2Proof.Machine

/-! # What an instruction, a unit and a step can do to the state (O7, O10 to O15, O56, O59, O60) -/

namespace Sys2Proof.Machine

/-! ## A unit performs a request (R62) -/

/-- `r'` asks for the same access as `r`; whether it is performed, and a load's data, may differ. -/
structure SameRequest (r r' : Request) : Prop where
  dest : r'.dest = r.dest
  admitted : ∀ s, requestAdmitted s r' = requestAdmitted s r

/-- The shape of a state in which unit `u` has performed one request: its queue with that request replaced, memory
written canonically, and nothing else. -/
inductive UnitPerforms (s : State) (u : MauUnit) : State → Prop
  | intro (k : Nat) (r r' : Request) (m : Memory) (queued : (s.queueOf u)[k]? = some r) (same : SameRequest r r')
      (canonical : s.mem.wf = true → m.wf = true) :
      UnitPerforms s u ((s.setQueue u ((s.queueOf u).set k r')).setMem m)

theorem performRequest_performs {s : State} {u : MauUnit} {k : Nat} {r : Request}
    (h : (s.queueOf u)[k]? = some r) : UnitPerforms s u (performRequest s u k r) := by
  cases r with
  | load n a data =>
    have hmem : ∀ q, s.setQueue u q = (s.setQueue u q).setMem s.mem := fun q => by cases u <;> rfl
    rw [performRequest, hmem]
    exact .intro k _ _ _ h ⟨rfl, fun _ => rfl⟩ id
  | store a v done => exact .intro k _ _ _ h ⟨rfl, fun _ => rfl⟩ fun hm => Memory.writeWord_wf hm _ a v

theorem mauPerform_performs (s : State) (u : MauUnit) (k : Nat) :
    mauPerform s u k = s ∨ UnitPerforms s u (mauPerform s u k) := by
  rcases mauPerform_cases s u k with h | ⟨r, hr, -, h⟩
  · exact .inl h
  · exact .inr (h ▸ performRequest_performs hr)

/-- A request that may be performed is performed by its unit's move. -/
theorem mauPerform_of_mayPerform {s : State} {u : MauUnit} {k : Nat}
    (h : mayPerform s.params.mauOrder (s.queueOf u) k = true) : UnitPerforms s u (mauPerform s u k) := by
  obtain ⟨r, hr, -⟩ := mayPerform_unperformed h
  have heq : mauPerform s u k = performRequest s u k r := by simp [mauPerform, h, hr]
  exact heq ▸ performRequest_performs hr

theorem commitReady_eq_true {s : State} :
    s.commitReady = true ↔ ∀ u ∈ s.concernedUnits, ∀ r ∈ s.queueOf u, r.performed = true := by
  simp [State.commitReady]

theorem commitReady_eq_false {s : State} :
    s.commitReady = false ↔ ∃ u ∈ s.concernedUnits, ∃ r ∈ s.queueOf u, r.performed = false := by
  simp [State.commitReady]

/-- A held `COMMIT` sees a request of one of its units performed (R63, log 11). -/
theorem performOne_performs {s : State} (h : s.commitReady = false) :
    ∃ u ∈ s.concernedUnits, ∃ t n, UnitPerforms s u t ∧ performOne s = t.setFrees n := by
  obtain ⟨u, hu, r, hr, hp⟩ := commitReady_eq_false.mp h
  obtain ⟨k, hk⟩ := List.mem_iff_getElem?.mp hr
  obtain ⟨j, -, hj⟩ := exists_mayPerform s.params.mauOrder hk hp
  rcases performOne_cases s with ⟨hnil, -⟩ | ⟨v, i, n, hmem, heq⟩
  · have hmem : (u, j) ∈ s.performable := mem_performableOf.mpr ⟨hu, hj⟩
    simp [hnil] at hmem
  · obtain ⟨hv, hi⟩ := mem_performable hmem
    exact ⟨v, hv, _, n, mauPerform_of_mayPerform hi, heq⟩

/-- What the machine is given from outside its task: the parameters, the image and `MEM_ADMIT` (R40, R56, R57). -/
structure SameSetting (s t : State) : Prop where
  params : t.params = s.params
  imageBase : t.imageBase = s.imageBase
  image : t.image = s.image
  memAdmit : t.memAdmit = s.memAdmit

namespace UnitPerforms

variable {s t : State} {u : MauUnit}

theorem sameSetting (h : UnitPerforms s u t) : SameSetting s t := by
  cases h; cases u <;> exact ⟨rfl, rfl, rfl, rfl⟩

theorem ip_eq (h : UnitPerforms s u t) : t.ip = s.ip := by cases h; cases u <;> rfl

theorem env_eq (h : UnitPerforms s u t) : t.env = s.env := by cases h; cases u <;> rfl

theorem run_eq (h : UnitPerforms s u t) : t.run = s.run := by cases h; cases u <;> rfl

theorem signal_eq (h : UnitPerforms s u t) : t.signal = s.signal := by cases h; cases u <;> rfl

theorem mem_wf (h : UnitPerforms s u t) (hm : s.mem.wf = true) : t.mem.wf = true := by
  obtain ⟨k, r, r', m, -, -, hcanon⟩ := h
  exact hcanon hm

/-- Only the queue of the slice whose unit moved may differ. -/
theorem eachSlice (h : UnitPerforms s u t) :
    EachSlice (fun i sl sl' => OnlyQueue sl sl' ∧ (u ≠ .smau i → sl'.queue = sl.queue)) s t := by
  obtain ⟨k, r, r', m, -, -, -⟩ := h
  cases u with
  | gmau => exact eachSlice_refl rfl fun i sl _ => ⟨⟨rfl, rfl, rfl, rfl⟩, fun _ => rfl⟩
  | smau j =>
    refine ⟨by simp [State.setQueue], fun i sl sl' hsl hsl' => ?_⟩
    rw [State.setMem_slices, setQueue_smau_getElem?, hsl] at hsl'
    cases hsl'
    split
    · rename_i hji
      exact ⟨⟨rfl, rfl, rfl, rfl⟩, fun hne => absurd (hji ▸ rfl) hne⟩
    · exact ⟨⟨rfl, rfl, rfl, rfl⟩, fun _ => rfl⟩

end UnitPerforms

/-! ## Queueing a request (R61) -/

/-- The checks that a request passes before it joins the queue `q` (R54, R56, R57, R36, R66). -/
structure MayQueue (s : State) (q : List Request) (r : Request) : Prop where
  admitted : requestAdmitted s r = true
  fresh : ∀ n, r.dest = some n → n ∉ destsOf q
  room : ∀ depth, s.params.mauDepth = some depth → q.length < depth

theorem pendingIn_eq_false {q : List Request} {n : RegNum} : pendingIn q n = false ↔ n ∉ destsOf q := by
  simp only [pendingIn, destsOf, List.any_eq_false, List.mem_filterMap, not_exists, not_and]
  refine forall₂_congr fun r _ => ?_
  cases r <;> simp [Request.dest]

/-- Two zero bits at the bottom: a multiple of 4 (R54). -/
theorem lowBits_eq_zero {a : Word} : a.extractLsb' 0 2 = 0#2 ↔ a.toNat % 4 = 0 := by
  rw [← BitVec.toNat_inj]
  simp

theorem dataFaults_eq_none {s : State} {as : List Word} :
    dataFaults s as = none ↔ ∀ a ∈ as, LoadAddress s a := by
  simp only [dataFaults, List.findSome?_eq_none_iff, dataFault_eq_none, lowBits_eq_zero]

theorem storeFaults_eq_none {s : State} {as : List Word} :
    storeFaults s as = none ↔ ∀ a ∈ as, StoreAddress s a := by
  simp only [storeFaults, List.findSome?_eq_none_iff, storeFault_eq_none, lowBits_eq_zero]

theorem requestAdmitted_load {s : State} {n : RegNum} {a : Word} {data : Option Word} :
    requestAdmitted s (.load n a data) = true ↔ LoadAddress s a := by
  rw [requestAdmitted, Bool.and_true, Bool.and_eq_true, decide_eq_true_iff]
  rfl

theorem requestAdmitted_store {s : State} {a v : Word} {done : Bool} :
    requestAdmitted s (.store a v done) = true ↔ StoreAddress s a := by
  rw [requestAdmitted, Bool.and_eq_true, Bool.and_eq_true, decide_eq_true_iff, Bool.not_eq_true']
  rfl

theorem smau_mem_formUnits {s : State} {j : Nat} {sl : Slice} (hsl : s.slices[j]? = some sl) (hen : sl.en = true) :
    MauUnit.smau j ∈ formUnits s .slice :=
  List.mem_map.mpr ⟨j, mem_enabledIds.mpr ((enabledAt_of_getElem? hsl).trans hen), rfl⟩

theorem sliceRegs_of_getElem? {s : State} {j : Nat} {sl : Slice} (hsl : s.slices[j]? = some sl) :
    s.sliceRegs j = sl.regs := by simp [State.sliceRegs, hsl]

theorem queueOf_of_getElem? {s : State} {j : Nat} {sl : Slice} (hsl : s.slices[j]? = some sl) :
    s.queueOf (.smau j) = sl.queue := by simp [State.queueOf, hsl]

theorem reg_mem_formAddrs {s : State} {j : Nat} {sl : Slice} (hsl : s.slices[j]? = some sl) (hen : sl.en = true)
    (n : RegNum) : sl.regs.get n ∈ formAddrs s .slice n :=
  List.mem_map.mpr ⟨j, mem_enabledIds.mpr ((enabledAt_of_getElem? hsl).trans hen), by
    simp [State.readReg, sliceRegs_of_getElem? hsl]⟩

section Checks

variable {s : State} {g : RegSet} {n : RegNum} {u : MauUnit} {a : Word}

theorem mayQueue_load {d : RegNum} (haddrs : dataFaults s (formAddrs s g n) = none)
    (hroom : overflowFault s (formUnits s g) = none) (hu : u ∈ formUnits s g) (ha : a ∈ formAddrs s g n)
    (hd : pendingIn (s.queueOf u) d = false) : MayQueue s (s.queueOf u) (.load d a none) where
  admitted := requestAdmitted_load.mpr (dataFaults_eq_none.mp haddrs a ha)
  fresh := fun m hm => by cases hm; exact pendingIn_eq_false.mp hd
  room := fun depth hdepth => overflowFault_eq_none.mp hroom depth hdepth u hu

theorem mayQueue_store {v : Word} (haddrs : storeFaults s (formAddrs s g n) = none)
    (hroom : overflowFault s (formUnits s g) = none) (hu : u ∈ formUnits s g) (ha : a ∈ formAddrs s g n) :
    MayQueue s (s.queueOf u) (.store a v false) where
  admitted := requestAdmitted_store.mpr (storeFaults_eq_none.mp haddrs a ha)
  fresh := fun _ hm => by cases hm
  room := fun depth hdepth => overflowFault_eq_none.mp hroom depth hdepth u hu

end Checks

/-! ## Everything an instruction can do -/

/-- What an instruction that answers a next state has done to the state: one shape for each kind of effect. -/
inductive Effect (s : State) : Instr → State → Prop
  /-- registers of the enabled slices (R27) -/
  | sliceRegs {i : Instr} (f : Nat → Slice → RegFile) (n : Nat) :
      Effect s i ((s.setSlices (updateEnabled (fun j sl => sl.setRegs (f j sl)) s.slices)).setFrees n).advance
  /-- registers of the Global set, or none -/
  | globalRegs {i : Instr} (rf : RegFile) (n : Nat) : Effect s i ((s.setGlobals rf).setFrees n).advance
  /-- enable bits (R31) -/
  | enables {i : Instr} (hi : i = .ent ∨ ∃ rs, i = .enm rs) (f : Nat → Slice → Bool) :
      Effect s i (s.setSlices (updateEvery (fun j sl => sl.setEn (f j sl)) s.slices)).advance
  /-- the `T` flag of every slice (R154) -/
  | everyFlag {rs : RegNum} (f : Nat → Slice → Bool) :
      Effect s (.mskl rs) (s.setSlices (updateEvery (fun j sl => sl.setT (f j sl)) s.slices)).advance
  /-- the `T` flags of the enabled slices (R156) -/
  | enabledFlags {g : RegSet} {negated : Bool} {c : Cond} {a b : RegNum} (f : Nat → Slice → Bool) :
      Effect s (.tst g negated c a b) (s.setSlices (updateEnabled (fun j sl => sl.setT (f j sl)) s.slices)).advance
  /-- one request more for the unit of each enabled slice (R61) -/
  | sliceRequests {i : Instr} (hi : (∃ g d rs, i = .ld g d rs) ∨ ∃ gd gs d rs, i = .st gd gs d rs)
      (f : Slice → Request)
      (checks : ∀ (j : Nat) (sl : Slice), s.slices[j]? = some sl → sl.en = true → MayQueue s sl.queue (f sl)) :
      Effect s i
        (s.setSlices (updateEnabled (fun _ sl => sl.setQueue (sl.queue ++ [f sl])) s.slices)).advance
  /-- one request more for the GMAU (R61) -/
  | globalRequest {i : Instr} (hi : (∃ g d rs, i = .ld g d rs) ∨ ∃ gd gs d rs, i = .st gd gs d rs) (r : Request)
      (checks : MayQueue s s.gmau r) : Effect s i (s.setGmau (s.gmau ++ [r])).advance
  /-- a `COMMIT` that is not held (R131) -/
  | delivers (ready : s.commitReady = true) : Effect s .commit (deliverAll s).advance
  /-- a held `COMMIT` (R63) -/
  | held (unperformed : s.commitReady = false) {u : MauUnit} (hu : u ∈ s.concernedUnits) {t : State}
      (performs : UnitPerforms s u t) (n : Nat) : Effect s .commit (t.setFrees n)
  /-- `DISCARD` (R132) -/
  | discards :
      Effect s .discard ((s.setGmau []).setSlices (updateEnabled (fun _ sl => sl.setQueue []) s.slices)).advance
  /-- a branch, taken or not (R158 to R160) -/
  | branches {i : Instr} {off : BitVec 23} (hi : i = .br off ∨ i = .ben off ∨ i = .bnen off) (a : Word)
      (aligned : s.ip.toNat % 4 = 0 → a.toNat % 4 = 0) : Effect s i (s.setIp a)
  /-- `SIG` that ends the task (R161) -/
  | completes (empty : s.anyQueued = false) : Effect s .sig ((s.setSignal true).setRun .completed)
  /-- `SIG` after which the task goes on (R161) -/
  | signals : Effect s .sig (s.setSignal true).advance

/-! ### The shared runs -/

theorem writeSet_effect (s : State) (i : Instr) (g : RegSet) (d : RegNum) (fl : Nat → Slice → Word) (fg : Word)
    (n : Nat) : Effect s i ((writeSet s g d fl fg).setFrees n).advance := by
  cases g with
  | slice => exact .sliceRegs (fun j sl => sl.regs.set d (fl j sl)) n
  | global => exact .globalRegs (s.globals.set d fg) n

/-- Registers of the Global set written, the free-value counter as it was. -/
theorem setGlobals_effect (s : State) (i : Instr) (rf : RegFile) : Effect s i (s.setGlobals rf).advance :=
  .globalRegs rf s.frees

/-- `writeSet_effect` where the free-value counter stays. -/
theorem writeSet_effect_noFrees (s : State) (i : Instr) (g : RegSet) (d : RegNum) (fl : Nat → Slice → Word)
    (fg : Word) : Effect s i (writeSet s g d fl fg).advance := by
  have hfrees : writeSet s g d fl fg = (writeSet s g d fl fg).setFrees s.frees := by cases g <;> rfl
  rw [hfrees]
  exact writeSet_effect s i g d fl fg s.frees

section Runs

variable {i : Instr} {s t : State} {g : RegSet} {d : RegNum} {srcs : List RegNum}

theorem runRegOp_effect {f : RegFile → Word} (h : runRegOp g d srcs f s = .next t) : Effect s i t := by
  obtain ⟨-, -, rfl⟩ := runRegOp_eq_next.mp h
  exact writeSet_effect_noFrees ..

theorem runRegOpDraw_effect {f : Word → RegFile → Word} (h : runRegOpDraw g d srcs f s = .next t) :
    Effect s i t := by
  obtain ⟨-, -, rfl⟩ := runRegOpDraw_eq_next.mp h
  exact writeSet_effect ..

theorem runOp2_effect {f : Word → Word → Word} {a b : RegNum} (h : runOp2 f g d a b s = .next t) : Effect s i t :=
  runRegOp_effect h

theorem runOp1_effect {f : Word → Word} {a : RegNum} (h : runOp1 f g d a s = .next t) : Effect s i t :=
  runRegOp_effect h

theorem runAccumulate_effect {f : Word → Word → Word → Word} {a b : RegNum}
    (h : runAccumulate f g d a b s = .next t) : Effect s i t := runRegOp_effect h

theorem runOp2Draw_effect {f : Word → Word → Word → Word} {a b : RegNum}
    (h : runOp2Draw f g d a b s = .next t) : Effect s i t := runRegOpDraw_effect h

theorem runOp1Draw_effect {f : Word → Word → Word} {a : RegNum} (h : runOp1Draw f g d a s = .next t) :
    Effect s i t := runRegOpDraw_effect h

/-- A meaning whose effect, once its checks pass, is of a known shape. -/
theorem checked_effect {o : Option Fault} {after : State} (h : checked o after = .next t)
    (heff : Effect s i after) : Effect s i t := by
  obtain ⟨-, rfl⟩ := checked_eq_next.mp h
  exact heff

end Runs

/-! ### One lemma per instruction that is no register-to-register run -/

section Meanings

variable {s t : State}

theorem execMov_effect {i : Instr} {gd gs : RegSet} {d rs : RegNum} (h : execMov gd gs d rs s = .next t) :
    Effect s i t := by
  cases gd <;> cases gs
  case slice.slice => unfold execMov at h; exact runOp1_effect h
  case slice.global => exact checked_effect h (writeSet_effect_noFrees ..)
  case global.slice =>
    refine checked_effect h ?_
    split
    · exact setGlobals_effect ..
    · exact setGlobals_effect s i s.globals
  case global.global => unfold execMov at h; exact runOp1_effect h

theorem moveIndexed_effect {i : Instr} {off : Nat → Nat} {dir : MoveDir} {d rs : RegNum}
    (h : moveIndexed off dir d rs s = .next t) : Effect s i t := by
  cases dir with
  | fromGlobal => exact checked_effect h (writeSet_effect_noFrees ..)
  | toGlobal => exact checked_effect h (setGlobals_effect ..)

theorem execLd_effect {g : RegSet} {d rs : RegNum} (h : execLd g d rs s = .next t) :
    Effect s (.ld g d rs) t := by
  obtain ⟨hchecks, rfl⟩ := checked_eq_next.mp h
  simp only [Option.or_eq_none_iff] at hchecks
  obtain ⟨⟨⟨hpending, -⟩, haddrs⟩, hroom⟩ := hchecks
  have hfree := pendingFault_eq_none.mp hpending
  have hi : (∃ g' d' rs', Instr.ld g d rs = .ld g' d' rs') ∨ ∃ gd gs d' rs', Instr.ld g d rs = .st gd gs d' rs' :=
    .inl ⟨g, d, rs, rfl⟩
  cases g with
  | slice =>
    refine .sliceRequests hi (fun sl => .load d (sl.regs.get rs) none) fun j sl hsl hen => ?_
    have hu := smau_mem_formUnits hsl hen
    have hj : j ∈ s.enabledIds := mem_enabledIds.mpr ((enabledAt_of_getElem? hsl).trans hen)
    have hd : s.isPending (.slice j d) = false := hfree _ (List.mem_flatMap.mpr ⟨j, hj, by simp⟩)
    have := mayQueue_load haddrs hroom hu (reg_mem_formAddrs hsl hen rs) hd
    rwa [queueOf_of_getElem? hsl] at this
  | global =>
    have hd : s.isPending (.global d) = false := hfree _ (by simp [concernedRegs])
    exact .globalRequest hi _ (mayQueue_load (u := .gmau) haddrs hroom (by simp [formUnits]) (by simp [formAddrs]) hd)

/-- A store by the enabled slices, whose data is of either set. -/
theorem sliceStores_effect {i : Instr} (hi : ∃ gd gs d rs, i = .st gd gs d rs) {d : RegNum} {p u : Option Fault}
    {data : Slice → Word} {r : Request}
    (h : checked (((p.or u).or (storeFaults s (formAddrs s .slice d))).or (overflowFault s (formUnits s .slice)))
      (enqueue s .slice (fun sl => .store (sl.regs.get d) (data sl) false) r).advance = .next t) : Effect s i t := by
  obtain ⟨hchecks, rfl⟩ := checked_eq_next.mp h
  simp only [Option.or_eq_none_iff] at hchecks
  obtain ⟨⟨-, haddrs⟩, hroom⟩ := hchecks
  refine .sliceRequests (.inr hi) (fun sl => .store (sl.regs.get d) (data sl) false) fun j sl hsl hen => ?_
  have := mayQueue_store (v := data sl) haddrs hroom (smau_mem_formUnits hsl hen) (reg_mem_formAddrs hsl hen d)
  rwa [queueOf_of_getElem? hsl] at this

theorem execSt_effect {gd gs : RegSet} {d rs : RegNum} (h : execSt gd gs d rs s = .next t) :
    Effect s (.st gd gs d rs) t := by
  cases gd <;> cases gs
  case slice.slice => exact sliceStores_effect ⟨_, _, _, _, rfl⟩ h
  case slice.global => exact sliceStores_effect (data := fun _ => s.globals.get rs) ⟨_, _, _, _, rfl⟩ h
  case global.slice => cases h
  case global.global =>
    obtain ⟨hchecks, rfl⟩ := checked_eq_next.mp h
    simp only [Option.or_eq_none_iff] at hchecks
    obtain ⟨⟨-, haddrs⟩, hroom⟩ := hchecks
    exact .globalRequest (.inr ⟨_, _, _, _, rfl⟩) _
      (mayQueue_store (u := .gmau) haddrs hroom (by simp [formUnits]) (by simp [formAddrs]))

theorem execCommit_effect (h : execCommit s = .next t) : Effect s .commit t := by
  unfold execCommit at h
  split at h
  · rename_i hready
    cases h
    exact .delivers hready
  · rename_i hheld
    cases h
    have hheld := Bool.eq_false_iff.mpr hheld
    obtain ⟨u, hu, t, n, hperf, heq⟩ := performOne_performs hheld
    exact heq ▸ .held hheld hu hperf n

theorem execEnt_effect (h : execEnt s = .next t) : Effect s .ent t := by
  unfold execEnt at h
  split at h
  · exact checked_effect h (.enables (.inl rfl) fun _ sl => sl.t)
  · exact checked_effect h (.enables (.inl rfl) fun _ sl => sl.en && sl.t)

/-- Every branch target is a multiple of 4 (R28): of format `B23` where the branch itself stands at one. -/
theorem branchTo_aligned {s : State} (b : BranchOp) (off : BitVec 23) (hip : s.ip.toNat % 4 = 0) :
    (s.branchTo b off).toNat % 4 = 0 := by
  cases hown : s.params.opcodeMap.ownBranch b
  · rw [branchTo_b23 hown, branchTarget, BitVec.toNat_add, BitVec.toNat_shiftLeft, Nat.shiftLeft_eq]
    omega
  · rw [branchTo_own hown, BitVec.toNat_append, Nat.shiftLeft_eq]
    simp

theorem advance_aligned {ip : Word} (hip : ip.toNat % 4 = 0) : (ip + 4#32).toNat % 4 = 0 := by bv_omega

theorem branch_effect {i : Instr} {off : BitVec 23} (hi : i = .br off ∨ i = .ben off ∨ i = .bnen off) (b : BranchOp)
    (taken : Prop) [Decidable taken] (h : Host.Outcome.next (φ := Fault) (ρ := Refusal)
      (if taken then s.setIp (s.branchTo b off) else s.advance) = .next t) : Effect s i t := by
  cases h
  split
  · exact .branches hi _ (branchTo_aligned b off)
  · exact .branches hi _ advance_aligned

theorem execSig_effect (h : execSig s = .next t) : Effect s .sig t := by
  obtain ⟨hempty, rfl⟩ := checked_eq_next.mp h
  split
  · exact .completes (by simpa using hempty)
  · exact .signals

end Meanings

/-- Everything an instruction can do: the effect of each instruction that answers a next state has one of the shapes
of `Effect`. -/
theorem exec_effect {i : Instr} {s t : State} (h : exec i s = .next t) : Effect s i t := by
  cases i with
  | mov => exact execMov_effect h
  | mvg | mvge => exact moveIndexed_effect h
  | ld => exact execLd_effect h
  | st => exact execSt_effect h
  | commit => exact execCommit_effect h
  | discard => cases h; exact .discards
  | ent => exact execEnt_effect h
  | enm rs => exact checked_effect h (.enables (.inr ⟨rs, rfl⟩) fun j _ => (s.globals.get rs).getLsbD j)
  | mskl rs => exact checked_effect h (.everyFlag fun j _ => (s.globals.get rs).getLsbD j)
  | tst => exact checked_effect h (.enabledFlags _)
  | tmst | emst => exact checked_effect h (setGlobals_effect ..)
  | ldt | sel => exact checked_effect h (writeSet_effect_noFrees ..)
  | br off => cases h; exact .branches (.inl rfl) _ (branchTo_aligned .br off)
  | ben off => exact branch_effect (.inr (.inl rfl)) .ben _ h
  | bnen off => exact branch_effect (.inr (.inr rfl)) .bnen _ h
  | sig => exact execSig_effect h
  | nop => cases h; exact setGlobals_effect s _ s.globals
  | mvi => unfold exec execMvi at h; exact runRegOp_effect h
  | relpc => unfold exec execRelpc at h; exact runRegOp_effect h
  | and | or | xor | be | bs | bc | lsr | lsl | asr | add | sub | umuli | smuli | mulq => exact runOp2_effect h
  | not | lnot | lbool | pcnt | bits | rev | revh | revl | ffs | rthl | rthh | abs | neg | sxt | ufloor | sfloor
  | uceil | sceil | round => exact runOp1_effect h
  | ufmai | sfmai | macq => exact runAccumulate_effect h
  | udivi | sdivi | divq | urem => exact runOp2Draw_effect h
  | rcpq | sqrtq => exact runOp1Draw_effect h
  | mvs | sampr | sampc | tild | tist | pld | pst | tofs | tofl | tril | baryp => cases h

/-! ## What an instruction leaves alone -/

/-- Only `ENT` and `ENM` may change the enable bit (R31). -/
abbrev KeepsEn (i : Instr) (sl sl' : Slice) : Prop :=
  match i with
  | .ent | .enm _ => True
  | _ => sl'.en = sl.en

/-- Only `MSKL`, and `TST` for an enabled slice, may change the `T` flag (R30). -/
abbrev KeepsFlag (i : Instr) (sl sl' : Slice) : Prop :=
  match i with
  | .mskl _ => True
  | .tst _ _ _ _ _ => sl.en = false → sl'.t = sl.t ∧ sl'.tWritten = sl.tWritten
  | _ => sl'.t = sl.t ∧ sl'.tWritten = sl.tWritten

/-- Only the instructions of the units may change the queue (R61). -/
abbrev KeepsQueue (i : Instr) (sl sl' : Slice) : Prop :=
  match i with
  | .ld _ _ _ | .st _ _ _ _ | .commit | .discard => True
  | _ => sl'.queue = sl.queue

/-- What instruction `i` keeps of a slice, and that a disabled slice keeps its registers and its queue (R23, R65). -/
structure SliceKeeps (i : Instr) (sl sl' : Slice) : Prop where
  en : KeepsEn i sl sl'
  flag : KeepsFlag i sl sl'
  queue : KeepsQueue i sl sl'
  disabled : sl.en = false → sl'.regs = sl.regs ∧ sl'.queue = sl.queue

namespace SliceKeeps

/-- A slice of which only the registers changed, and those only if it is enabled. -/
theorem of_onlyRegs (i : Instr) {sl sl' : Slice} (h : OnlyRegs sl sl') (hregs : sl.en = false → sl'.regs = sl.regs) :
    SliceKeeps i sl sl' := by
  obtain ⟨ht, htw, hen, hqueue⟩ := h
  refine ⟨?_, ?_, ?_, fun hdis => ⟨hregs hdis, hqueue⟩⟩
  · unfold KeepsEn; split
    · trivial
    · trivial
    · exact hen
  · unfold KeepsFlag; split
    · trivial
    · exact fun _ => ⟨ht, htw⟩
    · exact ⟨ht, htw⟩
  · unfold KeepsQueue; split
    case h_5 => exact hqueue
    all_goals trivial

/-- A slice that did not change. -/
theorem refl (i : Instr) (sl : Slice) : SliceKeeps i sl sl := of_onlyRegs i ⟨rfl, rfl, rfl, rfl⟩ fun _ => rfl

/-- A slice of which an instruction of the units changed the queue only, and that only if it is enabled. -/
theorem of_onlyQueue {i : Instr} (hi : (∃ g d rs, i = .ld g d rs) ∨ (∃ gd gs d rs, i = .st gd gs d rs) ∨
    i = .commit ∨ i = .discard) {sl sl' : Slice} (h : OnlyQueue sl sl')
    (hqueue : sl.en = false → sl'.queue = sl.queue) : SliceKeeps i sl sl' := by
  obtain ⟨hregs, ht, htw, hen⟩ := h
  rcases hi with ⟨_, _, _, rfl⟩ | ⟨_, _, _, _, rfl⟩ | rfl | rfl <;>
  exact ⟨hen, ⟨ht, htw⟩, trivial, fun hdis => ⟨hregs, hqueue hdis⟩⟩

end SliceKeeps

/-- A disabled slice is no concerned unit of a `COMMIT` (R65). -/
theorem ne_smau_of_disabled {s : State} {u : MauUnit} (hu : u ∈ s.concernedUnits) {j : Nat} {sl : Slice}
    (hsl : s.slices[j]? = some sl) (hen : sl.en = false) : u ≠ .smau j := by
  rintro rfl
  have hj : s.enabledAt j = true := by simpa [State.concernedUnits, mem_enabledIds] using hu
  rw [enabledAt_of_getElem? hsl, hen] at hj
  cases hj

namespace Effect

variable {s t : State} {i : Instr}

theorem sameSetting (h : Effect s i t) : SameSetting s t := by
  cases h with
  | held _ _ hperf =>
    obtain ⟨hparams, hbase, himage, hadmit⟩ := hperf.sameSetting
    exact ⟨hparams, hbase, himage, hadmit⟩
  | _ => exact ⟨rfl, rfl, rfl, rfl⟩

theorem env_eq (h : Effect s i t) : t.env = s.env := by
  cases h with
  | held _ _ hperf => exact hperf.env_eq
  | _ => rfl

/-- Only `SIG` changes `SIGNAL` or `RUN` (R37). -/
theorem signal_run_eq (h : Effect s i t) (hi : i ≠ .sig) : t.signal = s.signal ∧ t.run = s.run := by
  cases h with
  | held _ _ hperf => exact ⟨hperf.signal_eq, hperf.run_eq⟩
  | completes | signals => exact absurd rfl hi
  | _ => exact ⟨rfl, rfl⟩

/-- Only a held `COMMIT` sees memory change. -/
theorem mem_eq (h : Effect s i t) (hi : i = .commit → s.commitReady = true) : t.mem = s.mem := by
  cases h with
  | held hheld => exact absurd (hi rfl) (by simp [hheld])
  | _ => rfl

theorem eachSlice (h : Effect s i t) : EachSlice (fun _ sl sl' => SliceKeeps i sl sl') s t := by
  cases h with
  | @sliceRegs i f n =>
    refine eachSlice_updateEnabled rfl fun j sl _ => ?_
    split
    · rename_i hen
      exact .of_onlyRegs i ⟨rfl, rfl, rfl, rfl⟩ fun hdis => by simp [hen] at hdis
    · exact .refl i sl
  | globalRegs | globalRequest | branches | completes | signals =>
    exact eachSlice_refl rfl fun _ sl _ => .refl _ sl
  | enables hi f =>
    refine eachSlice_updateEvery rfl fun j sl _ => ?_
    rcases hi with rfl | ⟨rs, rfl⟩ <;> exact ⟨trivial, ⟨rfl, rfl⟩, rfl, fun _ => ⟨rfl, rfl⟩⟩
  | everyFlag f => exact eachSlice_updateEvery rfl fun j sl _ => ⟨rfl, trivial, rfl, fun _ => ⟨rfl, rfl⟩⟩
  | enabledFlags f =>
    refine eachSlice_updateEnabled rfl fun j sl _ => ?_
    split
    · rename_i hen
      exact ⟨rfl, fun hdis => by simp [hen] at hdis, rfl, fun _ => ⟨rfl, rfl⟩⟩
    · exact .refl _ sl
  | @sliceRequests i hi f _ =>
    refine eachSlice_updateEnabled rfl fun j sl _ => ?_
    split
    · rename_i hen
      refine .of_onlyQueue (hi.imp_right .inl) ⟨rfl, rfl, rfl, rfl⟩ fun hdis => by simp [hen] at hdis
    · exact .refl i sl
  | delivers =>
    refine eachSlice_updateEnabled rfl fun j sl _ => ?_
    split
    · rename_i hen
      exact ⟨rfl, ⟨rfl, rfl⟩, trivial, fun hdis => by simp [hen] at hdis⟩
    · exact .refl _ sl
  | @held u hheld hu t hperf n =>
    obtain ⟨hlen, hslices⟩ := hperf.eachSlice
    refine ⟨hlen, fun j sl sl' hsl hsl' => ?_⟩
    obtain ⟨honly, hqueue⟩ := hslices j sl sl' hsl hsl'
    exact .of_onlyQueue (.inr (.inr (.inl rfl))) honly fun hen => hqueue (ne_smau_of_disabled hu hsl hen)
  | discards =>
    refine eachSlice_updateEnabled rfl fun j sl _ => ?_
    split
    · rename_i hen
      exact .of_onlyQueue (.inr (.inr (.inr rfl))) ⟨rfl, rfl, rfl, rfl⟩ fun hdis => by simp [hen] at hdis
    · exact .refl _ sl

/-- Every instruction but a branch, `SIG` and `COMMIT` advances `ip` (R29). -/
theorem ip_eq (h : Effect s i t) (hi : match i with
    | .br _ | .ben _ | .bnen _ | .sig | .commit => False
    | _ => True) : t.ip = s.ip + 4#32 := by
  cases h with
  | branches hb => rcases hb with rfl | rfl | rfl <;> exact hi.elim
  | completes | signals | delivers | held => exact hi.elim
  | sliceRegs | globalRegs | enables | everyFlag | enabledFlags | sliceRequests | globalRequest | discards => rfl

theorem ip_of_commit (h : Effect s .commit t) : t.ip = s.ip + 4#32 ∨ (t.ip = s.ip ∧ s.commitReady = false) := by
  cases h with
  | held hheld _ hperf _ => exact .inr ⟨hperf.ip_eq, hheld⟩
  | branches hb => rcases hb with hb | hb | hb <;> cases hb
  | delivers | sliceRegs | globalRegs => exact .inl rfl
  | enables | sliceRequests | globalRequest => exact .inl rfl

/-- Only `LD`, `ST`, `COMMIT` and `DISCARD` touch the GMAU's queue (R61). -/
theorem gmau_eq (h : Effect s i t) (hi : match i with
    | .ld _ _ _ | .st _ _ _ _ | .commit | .discard => False
    | _ => True) : t.gmau = s.gmau := by
  cases h with
  | sliceRequests ha | globalRequest ha => rcases ha with ⟨_, _, _, rfl⟩ | ⟨_, _, _, _, rfl⟩ <;> exact hi.elim
  | delivers | held | discards => exact hi.elim
  | sliceRegs | globalRegs | enables | everyFlag | enabledFlags | branches | completes | signals => rfl

end Effect

/-- Settles O12: every instruction keeps of a slice what `SliceKeeps` says. -/
theorem disabledSliceIsUntouched : Obligations.DisabledSliceIsUntouched := by
  intro i s t h
  obtain ⟨hlen, hkeeps⟩ := (exec_effect h).eachSlice
  refine ⟨hlen, fun j sl sl' hsl hsl' => ?_⟩
  obtain ⟨hen, hflag, -, hdisabled⟩ := hkeeps j sl sl' hsl hsl'
  refine ⟨hen, fun hdis => ⟨(hdisabled hdis).1, (hdisabled hdis).2, ?_⟩⟩
  cases i
  case mskl => trivial
  case tst => exact hflag hdis
  all_goals exact hflag

/-- Settles O13: `ip` after each shape of effect. -/
theorem instructionPointerAdvances : Obligations.InstructionPointerAdvances := by
  intro i s t h
  have heff := exec_effect h
  cases i
  case br | ben | bnen | sig => trivial
  case commit => exact heff.ip_of_commit.imp_right fun ⟨hip, hheld⟩ => ⟨hip, commitReady_eq_false.mp hheld⟩
  all_goals exact heff.ip_eq trivial

/-- Settles O14: the frame of each shape of effect. -/
theorem instructionsLeaveMachineAlone : Obligations.InstructionsLeaveMachineAlone := by
  intro i s t h
  have heff := exec_effect h
  obtain ⟨hparams, hbase, himage, hadmit⟩ := heff.sameSetting
  refine ⟨⟨hparams, hbase, himage, hadmit, heff.env_eq⟩, heff.signal_run_eq, fun hdone a => ?_, ?_⟩
  · rw [heff.mem_eq fun hi => commitReady_eq_true.mpr (hdone hi)]
  · obtain ⟨hlen, hkeeps⟩ := heff.eachSlice
    cases i
    case ld | st | commit | discard => trivial
    all_goals exact ⟨heff.gmau_eq trivial, hlen, fun j sl sl' hsl hsl' => (hkeeps j sl sl' hsl hsl').queue⟩

/-! ## What a step does outside the core's instructions -/

/-- An instruction changes `RUN` only to `Completed` (R37, R161). -/
theorem Effect.run_cases {s t : State} {i : Instr} (h : Effect s i t) : t.run = s.run ∨ t.run = .completed := by
  cases h with
  | completes => exact .inr rfl
  | held _ _ hperf => exact .inl hperf.run_eq
  | _ => exact .inl rfl

/-- What a turn of the running core does: it takes a fault, or an instruction has its effect (R252, R253). -/
theorem runCore_effect {s t : State} (h : runCore s = .next t) :
    (∃ f, t = takeFault f s) ∨ ∃ i, Effect s i t := by
  rcases runCore_eq_next h with ⟨-, ht⟩ | ⟨_, _, -, -, ht⟩ | ⟨_, i, -, -, hexec⟩ | ⟨_, _, f, -, -, -, ht⟩
  · exact .inl ⟨_, ht⟩
  · exact .inl ⟨_, ht⟩
  · exact .inr ⟨i, exec_effect hexec⟩
  · exact .inl ⟨_, ht⟩

theorem step_of_coreMoves {s : State} {rest : List Move} (h : CoreMoves s rest) :
    step s = coreTurn (s.setEnv rest) := by
  refine nextMove_core (h.imp_right fun ⟨henv, hrest, hdone⟩ => ⟨henv, hrest, ?_⟩)
  simpa only [State.allPerformed, List.all_eq_true] using hdone

theorem coreTurn_of_idle {s : State} (h : s.run = .idle ∨ s.run = .suspended ∨ s.run = .completed ∨ s.run = .stopped) :
    coreTurn s = .next s := by
  unfold coreTurn
  rcases h with h | h | h | h <;> rw [h]

/-- Settles O7: a turn of the running core that ends Faulted has taken a fault, for no instruction ends Faulted. -/
theorem faultChangesOnlyRunState : Obligations.FaultChangesOnlyRunState := by
  intro s rest hcore
  rw [step_of_coreMoves hcore]
  refine ⟨fun t f hrun hstep hfault => ?_, coreTurn_of_idle (s := s.setEnv rest), fun f hrun => ?_⟩
  · rcases coreTurn_eq_next hstep with ⟨-, hturn⟩ | ⟨hnot, -⟩
    · rcases runCore_effect hturn with ⟨f', rfl⟩ | ⟨i, heff⟩
      · cases hfault
        rfl
      · rcases heff.run_cases with hsame | hcompleted
        · rw [hfault, State.setEnv_run, hrun] at hsame
          cases hsame
        · rw [hfault] at hcompleted
          cases hcompleted
    · exact absurd hrun hnot
  · unfold coreTurn
    rw [State.setEnv_run, hrun]

/-- Everything one step can do to a state whose next listed move is `next`: nothing, a fault taken, an instruction's
effect, a unit's performing, or a move of the host. -/
inductive StepEffect (next : Option Move) (s : State) : State → Prop
  | nothing : StepEffect next s s
  | faults (f : Fault) : StepEffect next s (takeFault f s)
  | instruction (running : s.run = .running) {i : Instr} {t : State} (h : Effect s i t) : StepEffect next s t
  | performs {u : MauUnit} {t : State} (h : UnitPerforms s u t) : StepEffect next s t
  | host {m : HostMove} (hm : next = some (.host m)) : StepEffect next s (hostMove m s)

theorem coreTurn_stepEffect {next : Option Move} {s t : State} (h : coreTurn s = .next t) : StepEffect next s t := by
  rcases coreTurn_eq_next h with ⟨hrun, hturn⟩ | ⟨-, rfl⟩
  · rcases runCore_effect hturn with ⟨f, rfl⟩ | ⟨i, heff⟩
    · exact .faults f
    · exact .instruction hrun heff
  · exact .nothing

/-- A step has one of these effects on the state with the model's own fields, the list of moves and the counter,
changed (log 10, log 12). -/
theorem step_effect {s t : State} (h : step s = .next t) :
    ∃ l n, StepEffect s.env.head? ((s.setEnv l).setFrees n) t := by
  obtain ⟨l, n, hsched⟩ := scheduled_frame s
  rcases nextMove_eq_next h with ⟨e, -, hcore⟩ | ⟨e, u, k, -, rfl⟩ | ⟨e, m, henv, rfl⟩
  · rw [hsched] at hcore
    exact ⟨e, n, coreTurn_stepEffect hcore⟩
  · rw [hsched]
    refine ⟨e, n, ?_⟩
    rcases mauPerform_performs ((s.setEnv e).setFrees n) u k with hsame | hperf
    · exact hsame ▸ .nothing
    · exact .performs hperf
  · exact ⟨e, s.frees, .host (by rw [henv, List.head?_cons])⟩

theorem hostMove_params (m : HostMove) (s : State) : (hostMove m s).params = s.params := by
  unfold hostMove
  split <;> split <;> rfl

theorem hostMove_slices_length (m : HostMove) (s : State) : (hostMove m s).slices.length = s.slices.length := by
  unfold hostMove
  split <;> split <;> simp [startTask, stopTask]

/-- Only a start changes what the machine is given (R259). -/
theorem hostMove_sameSetting {m : HostMove} {s : State} (hm : ∀ l, m ≠ .start l) :
    SameSetting s (hostMove m s) := by
  unfold hostMove
  split
  · exact absurd rfl (hm _)
  all_goals split <;> exact ⟨rfl, rfl, rfl, rfl⟩

namespace StepEffect

variable {next : Option Move} {s t : State}

theorem params_eq (h : StepEffect next s t) : t.params = s.params := by
  cases h with
  | nothing | faults => rfl
  | instruction _ heff => exact heff.sameSetting.params
  | performs hperf => exact hperf.sameSetting.params
  | host => exact hostMove_params ..

theorem slices_length (h : StepEffect next s t) : t.slices.length = s.slices.length := by
  cases h with
  | nothing | faults => rfl
  | instruction _ heff => exact heff.eachSlice.1
  | performs hperf => exact hperf.eachSlice.1
  | host => exact hostMove_slices_length ..

theorem sameSetting (h : StepEffect next s t) (hstart : ∀ l, next ≠ some (.host (.start l))) : SameSetting s t := by
  cases h with
  | nothing | faults => exact ⟨rfl, rfl, rfl, rfl⟩
  | instruction _ heff => exact heff.sameSetting
  | performs hperf => exact hperf.sameSetting
  | host hm => exact hostMove_sameSetting fun l hl => hstart l (hl ▸ hm)

end StepEffect

/-- Settles O10: each effect of a step keeps the parameters and the number of slices, and only a start changes the
image and `MEM_ADMIT`. -/
theorem stepKeepsParametersAndImage : Obligations.StepKeepsParametersAndImage := by
  intro s t h
  obtain ⟨l, n, heff⟩ := step_effect h
  refine ⟨heff.params_eq, heff.slices_length, fun hstart => ?_⟩
  obtain ⟨-, hbase, himage, hadmit⟩ := heff.sameSetting fun l hl => hstart ⟨l, hl⟩
  exact ⟨hbase, himage, hadmit⟩

/-! ## The invariant -/

/-- `StateInv` clause by clause. -/
structure Invariant (s : State) : Prop where
  mem : s.mem.wf = true
  ip : s.ip.toNat % 4 = 0
  slices : 1 ≤ s.slices.length ∧ s.slices.length ≤ 32
  params : s.params.legal = true
  image : s.imageBase.toNat % 4 = 0 ∧ s.imageBase.toNat + 4 * s.image.length ≤ 2 ^ 32
  memAdmit : ∀ r ∈ s.memAdmit, r.base % 4 = 0 ∧ r.base + 4 * r.words ≤ 2 ^ 32
  gmau : queueOk s s.gmau = true
  smau : ∀ sl ∈ s.slices, queueOk s sl.queue = true
  goodEnd : s.run = .completed → s.goodEnd = true

theorem stateInv_iff {s : State} : StateInv s = true ↔ Invariant s := by
  simp only [StateInv, Bool.and_eq_true, Bool.or_eq_true, Bool.not_eq_true', decide_eq_true_eq, decide_eq_false_iff_not,
    List.all_eq_true, ← imp_iff_not_or]
  constructor
  · rintro ⟨⟨⟨⟨⟨⟨⟨hmem, hip⟩, hslices⟩, hparams⟩, himage⟩, hadmit⟩, hgmau, hsmau⟩, hend⟩
    exact ⟨hmem, hip, hslices, hparams, himage, hadmit, hgmau, hsmau, hend⟩
  · rintro ⟨hmem, hip, hslices, hparams, himage, hadmit, hgmau, hsmau, hend⟩
    exact ⟨⟨⟨⟨⟨⟨⟨hmem, hip⟩, hslices⟩, hparams⟩, himage⟩, hadmit⟩, hgmau, hsmau⟩, hend⟩

theorem goodEnd_eq_true {s : State} :
    s.goodEnd = true ↔ s.run = .completed ∧ s.signal = true ∧ s.anyQueued = false := by
  simp [State.goodEnd, and_assoc]

/-- Settles O59: the reset state meets each clause of the invariant; its slices are all `Slice.reset`. -/
theorem resetMeetsInvariant : Obligations.ResetMeetsInvariant := by
  have hreset : ∀ sl ∈ State.reset.slices, sl = Slice.reset := fun sl h => List.eq_of_mem_replicate h
  refine ⟨stateInv_iff.mpr ⟨rfl, rfl, by decide, by decide, by decide, by decide, rfl, fun sl h => ?_, nofun⟩,
    rfl, rfl, rfl, fun sl h => ?_⟩
  · rw [hreset sl h]
    rfl
  · rw [hreset sl h]
    exact ⟨rfl, rfl⟩

/-! ### Queues -/

/-- Whether a queue is as it should be rests on the setting alone. -/
theorem queueOk_congr {s t : State} (h : SameSetting s t) (q : List Request) : queueOk t q = queueOk s q := by
  simp only [queueOk, requestAdmitted, State.admits, State.inImage, h.params, h.imageBase, h.image, h.memAdmit]

theorem queueOk_iff {s : State} {q : List Request} :
    queueOk s q = true ↔ (∀ r ∈ q, requestAdmitted s r = true) ∧ (destsOf q).Nodup ∧
      ∀ depth, s.params.mauDepth = some depth → q.length ≤ depth := by
  unfold queueOk
  rw [Bool.and_eq_true, Bool.and_eq_true, List.all_eq_true, decide_eq_true_iff, and_assoc]
  cases s.params.mauDepth <;> simp

theorem queueOk_nil (s : State) : queueOk s [] = true :=
  queueOk_iff.mpr ⟨by simp, by simp [destsOf], by simp⟩

theorem queueOk_append {s : State} {q : List Request} {r : Request} (hq : queueOk s q = true) (hr : MayQueue s q r) :
    queueOk s (q ++ [r]) = true := by
  obtain ⟨hadmitted, hnodup, -⟩ := queueOk_iff.mp hq
  refine queueOk_iff.mpr ⟨fun r' hr' => ?_, ?_, fun depth hdepth => ?_⟩
  · rcases List.mem_append.mp hr' with hmem | hlast
    · exact hadmitted r' hmem
    · rw [List.mem_singleton.mp hlast]
      exact hr.admitted
  · have hfresh := hr.fresh
    cases hdest : r.dest with
    | none => simpa [destsOf, hdest] using hnodup
    | some n =>
      have hn : n ∉ destsOf q := hfresh n hdest
      simp only [destsOf, List.filterMap_append, List.filterMap_cons, hdest, List.filterMap_nil]
      exact List.nodup_append.mpr ⟨hnodup, by simp, fun a ha b hb => by
        rw [List.mem_singleton.mp hb]
        exact fun hab => hn (hab ▸ ha)⟩
  · have := hr.room depth hdepth
    rw [List.length_append]
    exact this

/-- A request performed keeps its place and its destination. -/
theorem destsOf_set {q : List Request} {k : Nat} {r r' : Request} (hr : q[k]? = some r) (hsame : SameRequest r r') :
    destsOf (q.set k r') = destsOf q := by
  have hmap : (q.set k r').map Request.dest = q.map Request.dest := by
    obtain ⟨hk, rfl⟩ := List.getElem?_eq_some_iff.mp hr
    rw [List.map_set, hsame.dest, ← List.getElem_map Request.dest (h := by simpa using hk), List.set_getElem_self]
  have hdests : ∀ q : List Request, destsOf q = (q.map Request.dest).filterMap id := fun q => by
    simp [destsOf, List.filterMap_map]
  rw [hdests, hmap, ← hdests]

theorem queueOk_set {s : State} {q : List Request} {k : Nat} {r r' : Request} (hq : queueOk s q = true)
    (hr : q[k]? = some r) (hsame : SameRequest r r') : queueOk s (q.set k r') = true := by
  obtain ⟨hadmitted, hnodup, hdepth⟩ := queueOk_iff.mp hq
  refine queueOk_iff.mpr ⟨fun x hx => ?_, by rwa [destsOf_set hr hsame], by simpa using hdepth⟩
  rcases List.mem_or_eq_of_mem_set hx with hmem | rfl
  · exact hadmitted x hmem
  · rw [hsame.admitted]
    exact hadmitted r (List.mem_of_getElem? hr)

/-- A property of every slice after `for each enabled i`. -/
theorem forall_mem_updateEnabled {P : Slice → Prop} {f : Nat → Slice → Slice} {l : List Slice} (h : ∀ sl ∈ l, P sl)
    (hf : ∀ (j : Nat) (sl : Slice), l[j]? = some sl → sl.en = true → P (f j sl)) : ∀ sl ∈ updateEnabled f l, P sl := by
  intro sl' hsl'
  obtain ⟨j, hj⟩ := List.mem_iff_getElem?.mp hsl'
  rw [updateEnabled_getElem?, Option.map_eq_some_iff] at hj
  obtain ⟨sl, hsl, rfl⟩ := hj
  split
  · rename_i hen
    exact hf j sl hsl hen
  · exact h sl (List.mem_of_getElem? hsl)

/-- A property of every slice after an update of every slice. -/
theorem forall_mem_updateEvery {P : Slice → Prop} {f : Nat → Slice → Slice} {l : List Slice}
    (hf : ∀ (j : Nat) (sl : Slice), l[j]? = some sl → P (f j sl)) : ∀ sl ∈ updateEvery f l, P sl := by
  intro sl' hsl'
  obtain ⟨j, hj⟩ := List.mem_iff_getElem?.mp hsl'
  rw [updateEvery_getElem?, Option.map_eq_some_iff] at hj
  obtain ⟨sl, hsl, rfl⟩ := hj
  exact hf j sl hsl

/-- The queues of `t` are as they should be in the setting of `s`. -/
structure QueuesOk (s t : State) : Prop where
  gmau : queueOk s t.gmau = true
  smau : ∀ sl ∈ t.slices, queueOk s sl.queue = true

theorem UnitPerforms.queuesOk {s t : State} {u : MauUnit} (h : UnitPerforms s u t) (hs : QueuesOk s s) :
    QueuesOk s t := by
  obtain ⟨k, r, r', m, hr, hsame, -⟩ := h
  cases u with
  | gmau => exact ⟨queueOk_set hs.gmau hr hsame, hs.smau⟩
  | smau j =>
    refine ⟨hs.gmau, fun sl' hsl' => ?_⟩
    obtain ⟨i, hi⟩ := List.mem_iff_getElem?.mp hsl'
    rw [State.setMem_slices, setQueue_smau_getElem?, Option.map_eq_some_iff] at hi
    obtain ⟨sl, hsl, rfl⟩ := hi
    have hok := hs.smau sl (List.mem_of_getElem? hsl)
    split
    · rename_i hji
      subst hji
      rw [queueOf_of_getElem? hsl] at hr ⊢
      exact queueOk_set hok hr hsame
    · exact hok

theorem Effect.queuesOk {s t : State} {i : Instr} (h : Effect s i t) (hs : QueuesOk s s) : QueuesOk s t := by
  cases h with
  | sliceRegs | enabledFlags =>
    exact ⟨hs.gmau, forall_mem_updateEnabled hs.smau fun j sl hsl _ => hs.smau sl (List.mem_of_getElem? hsl)⟩
  | globalRegs | branches | completes | signals => exact ⟨hs.gmau, hs.smau⟩
  | enables | everyFlag =>
    exact ⟨hs.gmau, forall_mem_updateEvery fun j sl hsl => hs.smau sl (List.mem_of_getElem? hsl)⟩
  | sliceRequests _ f hchecks =>
    exact ⟨hs.gmau, forall_mem_updateEnabled hs.smau fun j sl hsl hen =>
      queueOk_append (hs.smau sl (List.mem_of_getElem? hsl)) (hchecks j sl hsl hen)⟩
  | globalRequest _ r hchecks => exact ⟨queueOk_append hs.gmau hchecks, hs.smau⟩
  | delivers | discards =>
    exact ⟨queueOk_nil s, forall_mem_updateEnabled hs.smau fun _ _ _ _ => queueOk_nil s⟩
  | held _ _ hperf =>
    obtain ⟨hgmau, hsmau⟩ := hperf.queuesOk hs
    exact ⟨hgmau, hsmau⟩

/-! ### Every effect keeps the invariant -/

theorem Effect.mem_wf {s t : State} {i : Instr} (h : Effect s i t) (hs : s.mem.wf = true) : t.mem.wf = true := by
  cases h with
  | held _ _ hperf => exact hperf.mem_wf hs
  | _ => exact hs

theorem Effect.ip_aligned {s t : State} {i : Instr} (h : Effect s i t) (hs : s.ip.toNat % 4 = 0) :
    t.ip.toNat % 4 = 0 := by
  cases h with
  | held _ _ hperf => exact hperf.ip_eq ▸ hs
  | branches _ a haligned => exact haligned hs
  | completes => exact hs
  | _ => exact advance_aligned hs

/-- An instruction that completes the task is a `SIG` that found every queue empty (R161, R262). -/
theorem Effect.goodEnd {s t : State} {i : Instr} (h : Effect s i t) (hrun : s.run = .running)
    (ht : t.run = .completed) : t.goodEnd = true := by
  cases h with
  | completes hempty => exact goodEnd_eq_true.mpr ⟨rfl, rfl, hempty⟩
  | held _ _ hperf => exact absurd (hperf.run_eq.symm.trans ht) (by simp [hrun])
  | _ => exact absurd (hrun.symm.trans ht) (by simp)

/-- With every queue empty no unit has a request to perform. -/
theorem UnitPerforms.anyQueued {s t : State} {u : MauUnit} (h : UnitPerforms s u t) : s.anyQueued = true := by
  obtain ⟨k, r, r', m, hr, -, -⟩ := h
  have hmem := List.mem_of_getElem? hr
  rw [State.anyQueued, Bool.or_eq_true, Bool.not_eq_true', List.any_eq_true]
  cases u with
  | gmau =>
    left
    simpa [State.queueOf] using List.ne_nil_of_mem hmem
  | smau j =>
    right
    rcases hsl : s.slices[j]? with _ | sl
    · simp [State.queueOf, hsl] at hr
    · rw [queueOf_of_getElem? hsl] at hmem
      exact ⟨sl, List.mem_of_getElem? hsl, by simpa using List.ne_nil_of_mem hmem⟩

namespace Invariant

variable {s t : State}

theorem queuesOk (hs : Invariant s) : QueuesOk s s := ⟨hs.gmau, hs.smau⟩

/-- The model's own fields are no part of the invariant. -/
theorem setEnv_setFrees (hs : Invariant s) (l : List Move) (n : Nat) : Invariant ((s.setEnv l).setFrees n) :=
  ⟨hs.mem, hs.ip, hs.slices, hs.params, hs.image, hs.memAdmit, hs.gmau, hs.smau, hs.goodEnd⟩

/-- What is left to show of a state in the same setting. -/
theorem of_sameSetting (hs : Invariant s) (h : SameSetting s t) (hlen : t.slices.length = s.slices.length)
    (hmem : t.mem.wf = true) (hip : t.ip.toNat % 4 = 0) (hqueues : QueuesOk s t)
    (hend : t.run = .completed → t.goodEnd = true) : Invariant t where
  mem := hmem
  ip := hip
  slices := by rw [hlen]; exact hs.slices
  params := by rw [h.params]; exact hs.params
  image := by rw [h.imageBase, h.image]; exact hs.image
  memAdmit := by rw [h.memAdmit]; exact hs.memAdmit
  gmau := by rw [queueOk_congr h]; exact hqueues.gmau
  smau := fun sl hsl => by rw [queueOk_congr h]; exact hqueues.smau sl hsl
  goodEnd := hend

theorem of_effect {i : Instr} (hs : Invariant s) (hrun : s.run = .running) (h : Effect s i t) : Invariant t :=
  hs.of_sameSetting h.sameSetting h.eachSlice.1 (h.mem_wf hs.mem) (h.ip_aligned hs.ip) (h.queuesOk hs.queuesOk)
    (h.goodEnd hrun)

theorem of_performs {u : MauUnit} (hs : Invariant s) (h : UnitPerforms s u t) : Invariant t := by
  refine hs.of_sameSetting h.sameSetting h.eachSlice.1 (h.mem_wf hs.mem) (h.ip_eq ▸ hs.ip) (h.queuesOk hs.queuesOk)
    fun ht => ?_
  obtain ⟨-, -, hempty⟩ := goodEnd_eq_true.mp (hs.goodEnd (h.run_eq.symm.trans ht))
  rw [h.anyQueued] at hempty
  cases hempty

/-- A change of `RUN` to another state than `Completed`. -/
theorem setRun (hs : Invariant s) {r : RunState} (hr : r ≠ .completed) : Invariant (s.setRun r) :=
  hs.of_sameSetting ⟨rfl, rfl, rfl, rfl⟩ rfl hs.mem hs.ip ⟨hs.gmau, hs.smau⟩ fun h => absurd h hr

theorem stopTask (hs : Invariant s) : Invariant (stopTask s) :=
  hs.of_sameSetting ⟨rfl, rfl, rfl, rfl⟩ (by simp [Machine.stopTask]) hs.mem hs.ip
    ⟨queueOk_nil s, forall_mem_updateEvery fun _ _ _ => queueOk_nil s⟩ fun h => by cases h

end Invariant

/-! ### A start -/

/-- The conditions of R282 that the proofs use, clause by clause. -/
structure LaunchOk (l : Launch) : Prop where
  entry : l.entry.toNat % 4 = 0
  image : l.imageBase.toNat % 4 = 0 ∧ l.imageBase.toNat + 4 * l.image.length ≤ 2 ^ 32
  memAdmit : ∀ r ∈ l.memAdmit, r.base % 4 = 0 ∧ r.base + 4 * r.words ≤ 2 ^ 32
  memInit : ∀ p ∈ l.memInit, p.1.toNat % 4 = 0

theorem launchOk_of_ok {l : Launch} {n : Nat} (h : l.ok n = true) : LaunchOk l := by
  simp only [Launch.ok, Bool.and_eq_true, beq_iff_eq, decide_eq_true_eq, List.all_eq_true] at h
  obtain ⟨⟨⟨⟨⟨⟨⟨⟨⟨⟨⟨hbase, hentry⟩, -⟩, hfits⟩, -⟩, -⟩, hadmit⟩, hinit⟩, -⟩, -⟩, -⟩, -⟩ := h
  exact ⟨hentry, ⟨hbase, hfits⟩, hadmit, hinit⟩

/-- Writing words into canonical memory keeps it canonical. -/
theorem foldl_writeWord_wf (order : ByteOrder) (l : List (Word × Word)) {m : Memory} (hm : m.wf = true) :
    Memory.wf (l.foldl (fun m p => m.writeWord order p.1 p.2) m) = true := by
  induction l generalizing m with
  | nil => exact hm
  | cons p l ih => exact ih (Memory.writeWord_wf hm order p.1 p.2)

theorem mem_startTask_slices {l : Launch} {s : State} {sl : Slice} (h : sl ∈ (startTask l s).slices) :
    ∃ i, sl = launchSlice l i := by
  obtain ⟨i, -, rfl⟩ := List.mem_map.mp h
  exact ⟨i, rfl⟩

theorem startTask_invariant {l : Launch} {s : State} (hs : Invariant s) (hl : LaunchOk l) :
    Invariant (startTask l s) where
  mem := foldl_writeWord_wf _ _ rfl
  ip := hl.entry
  slices := by simpa [startTask] using hs.slices
  params := hs.params
  image := hl.image
  memAdmit := hl.memAdmit
  gmau := queueOk_nil _
  smau := fun sl hsl => by
    obtain ⟨i, rfl⟩ := mem_startTask_slices hsl
    exact queueOk_nil _
  goodEnd := nofun

theorem hostMove_invariant {s : State} (hs : Invariant s) (m : HostMove) : Invariant (hostMove m s) := by
  cases m <;> dsimp only [hostMove] <;> split
  case start.isTrue hok => exact startTask_invariant hs (launchOk_of_ok (Bool.and_eq_true_iff.mp hok).2)
  case suspend.isTrue | resume.isTrue => exact hs.setRun nofun
  case stop.isTrue => exact hs.stopTask
  all_goals exact hs

theorem StepEffect.invariant {next : Option Move} {s t : State} (h : StepEffect next s t) (hs : Invariant s) :
    Invariant t := by
  cases h with
  | nothing => exact hs
  | faults f => exact hs.setRun nofun
  | instruction hrun heff => exact hs.of_effect hrun heff
  | performs hperf => exact hs.of_performs hperf
  | host => exact hostMove_invariant hs _

/-- Settles O60: every effect a step can have keeps the invariant, whatever the list of moves and the counter are. -/
theorem stepKeepsInvariant : Obligations.StepKeepsInvariant := by
  intro s t hs h
  obtain ⟨l, n, heff⟩ := step_effect h
  exact stateInv_iff.mpr (heff.invariant ((stateInv_iff.mp hs).setEnv_setFrees l n))

/-! ## The register checks in order (R253 step 5) -/

/-- In a list on which `f` rises, the first member with a property is one with the least `f`. -/
theorem exists_find?_lowest {α : Type} {f : α → Nat} {p : α → Bool} {l : List α}
    (hrising : l.Pairwise fun x y => f x ≤ f y) (h : ∃ x ∈ l, p x = true) :
    ∃ x ∈ l, p x = true ∧ l.find? p = some x ∧ ∀ y ∈ l, p y = true → f x ≤ f y := by
  obtain ⟨x, hfind⟩ := Option.isSome_iff_exists.mp (List.find?_isSome.mpr h)
  refine ⟨x, List.mem_of_find?_eq_some hfind, List.find?_some hfind, hfind, fun y hy hpy => ?_⟩
  obtain ⟨-, before, after, rfl, hbefore⟩ := List.find?_eq_some_iff_append.mp hfind
  obtain ⟨-, hafter, -⟩ := List.pairwise_append.mp hrising
  rcases List.mem_append.mp hy with hy | hy
  · have := hbefore y hy
    simp [hpy] at this
  · rcases List.mem_cons.mp hy with rfl | hy
    · exact le_rfl
    · exact (List.pairwise_cons.mp hafter).1 y hy

/-- The registers of the concerned slices are listed slice by slice, the lowest first. -/
theorem concernedRegs_rising (s : State) (g : RegSet) (ns : List RegNum) :
    (concernedRegs s g ns).Pairwise fun r r' => (ReadRef.reg r).sliceNo ≤ (ReadRef.reg r').sliceNo := by
  cases g with
  | slice =>
    refine List.pairwise_flatMap.mpr ⟨fun i _ => ?_, (enabledIds_rising s).imp fun hij r hr r' hr' => ?_⟩
    · exact List.pairwise_map.mpr (List.pairwise_of_forall fun _ _ => le_rfl)
    · obtain ⟨_, -, rfl⟩ := List.mem_map.mp hr
      obtain ⟨_, -, rfl⟩ := List.mem_map.mp hr'
      exact hij.le
  | global => exact List.pairwise_map.mpr (List.pairwise_of_forall fun _ _ => le_rfl)

/-- The concerned registers are those of the same numbers, in whatever order and however often. -/
theorem mem_concernedRegs_congr {s : State} {g : RegSet} {ns ns' : List RegNum} (h : ∀ n, n ∈ ns ↔ n ∈ ns')
    (r : RegRef) : r ∈ concernedRegs s g ns ↔ r ∈ concernedRegs s g ns' := by
  cases g <;> simp only [concernedRegs, List.mem_flatMap, List.mem_map, h]

theorem pendingFault_lowest {s : State} {g : RegSet} {ns : List RegNum}
    (h : ∃ r ∈ concernedRegs s g ns, s.isPending r = true) :
    ∃ r ∈ concernedRegs s g ns, s.isPending r = true ∧
      pendingFault s (concernedRegs s g ns) = some (.pendingAccess r) ∧
      ∀ r' ∈ concernedRegs s g ns, s.isPending r' = true → (ReadRef.reg r).sliceNo ≤ (ReadRef.reg r').sliceNo := by
  obtain ⟨r, hr, hp, hfind, hlow⟩ := exists_find?_lowest (concernedRegs_rising s g ns) h
  exact ⟨r, hr, hp, by rw [pendingFault, hfind]; rfl, hlow⟩

theorem unwrittenFault_lowest {s : State} {g : RegSet} {ns : List RegNum}
    (h : ∃ r ∈ concernedRegs s g ns, s.holdsValue (.reg r) = false) :
    ∃ r ∈ concernedRegs s g ns, s.holdsValue (.reg r) = false ∧
      unwrittenFault s ((concernedRegs s g ns).map .reg) = some (.unwrittenRead (.reg r)) ∧
      ∀ r' ∈ concernedRegs s g ns, s.holdsValue (.reg r') = false →
        (ReadRef.reg r).sliceNo ≤ (ReadRef.reg r').sliceNo := by
  simp only [← Bool.not_eq_true'] at h ⊢
  obtain ⟨r, hr, hp, hfind, hlow⟩ := exists_find?_lowest (concernedRegs_rising s g ns) h
  refine ⟨r, hr, hp, ?_, hlow⟩
  have hmap : ((concernedRegs s g ns).map ReadRef.reg).find? (fun r => !s.holdsValue r) = some (.reg r) := by
    rw [List.find?_map]
    exact congrArg (Option.map ReadRef.reg) hfind
  rw [unwrittenFault, hmap]
  rfl

/-- `r` is the answer of a register-to-register run of R200 that names `named` and reads `reads`: its effect after the
pending check of the named and the unwritten check of the read registers. -/
def RegisterRun (s : State) (g : RegSet) (named reads : List RegNum) (r : Result) : Prop :=
  ∃ (all : List RegNum) (after : State), (∀ n, n ∈ all ↔ n ∈ named) ∧
    r = checked ((pendingFault s (concernedRegs s g all)).or
      (unwrittenFault s ((concernedRegs s g reads).map ReadRef.reg))) after

section Runs

variable (s : State) (g : RegSet) (d a b : RegNum)

theorem runOp2_registerRun (f : Word → Word → Word) : RegisterRun s g [d, a, b] [a, b] (runOp2 f g d a b s) :=
  ⟨_, _, fun _ => Iff.rfl, rfl⟩

theorem runOp1_registerRun (f : Word → Word) : RegisterRun s g [d, a] [a] (runOp1 f g d a s) :=
  ⟨_, _, fun _ => Iff.rfl, rfl⟩

theorem runAccumulate_registerRun (f : Word → Word → Word → Word) :
    RegisterRun s g [d, a, b] [d, a, b] (runAccumulate f g d a b s) := ⟨[d, d, a, b], _, by simp, rfl⟩

theorem runOp2Draw_registerRun (f : Word → Word → Word → Word) :
    RegisterRun s g [d, a, b] [a, b] (runOp2Draw f g d a b s) := ⟨_, _, fun _ => Iff.rfl, rfl⟩

theorem runOp1Draw_registerRun (f : Word → Word → Word) : RegisterRun s g [d, a] [a] (runOp1Draw f g d a s) :=
  ⟨_, _, fun _ => Iff.rfl, rfl⟩

end Runs

/-- Every logic and mathematics instruction runs by R200. -/
theorem exec_registerRun {i : Instr} {g : RegSet} {named reads : List RegNum}
    (h : operands200 i = some (g, named, reads)) (s : State) : RegisterRun s g named reads (exec i s) := by
  cases i <;> cases h
  case and | or | xor | be | bs | bc | lsr | lsl | asr | add | sub | umuli | smuli | mulq =>
    exact runOp2_registerRun ..
  case not | lnot | lbool | pcnt | bits | rev | revh | revl | ffs | rthl | rthh | abs | neg | sxt | ufloor | sfloor |
      uceil | sceil | round => exact runOp1_registerRun ..
  case ufmai | sfmai | macq => exact runAccumulate_registerRun ..
  case udivi | sdivi | divq | urem => exact runOp2Draw_registerRun ..
  case rcpq | sqrtq => exact runOp1Draw_registerRun ..

/-- Settles O15: the checks of a run of R200 report the first failing register of a list that rises slice by slice. -/
theorem registerChecksInOrder : Obligations.RegisterChecksInOrder := by
  intro i s g named reads hop
  obtain ⟨all, after, hall, hexec⟩ := exec_registerRun hop s
  have hmem : ∀ r, r ∈ concernedRegs s g named ↔ r ∈ concernedRegs s g all :=
    mem_concernedRegs_congr fun n => (hall n).symm
  simp only [RegsReady, ListReady, hmem, hexec]
  refine ⟨?_, ?_, fun hpending => ?_, fun hfree hunwritten => ?_⟩
  · simp only [checked_eq_next, registerChecks_eq_none, exists_and_left, exists_eq, and_true]
  · rcases hp : pendingFault s (concernedRegs s g all) with _ | f
    · rcases hu : unwrittenFault s ((concernedRegs s g reads).map ReadRef.reg) with _ | f
      · exact .inl ⟨after, rfl⟩
      · obtain ⟨_, hr, -, rfl⟩ := unwrittenFault_eq_some hu
        obtain ⟨r, -, rfl⟩ := List.mem_map.mp hr
        exact .inr (.inr ⟨r, rfl⟩)
    · obtain ⟨r, -, -, rfl⟩ := pendingFault_eq_some hp
      exact .inr (.inl ⟨r, rfl⟩)
  · obtain ⟨r, hr, hp, hfault, hlow⟩ := pendingFault_lowest hpending
    exact ⟨r, hr, hp, by rw [hfault]; rfl, hlow⟩
  · obtain ⟨r, hr, hp, hfault, hlow⟩ := unwrittenFault_lowest hunwritten
    exact ⟨r, hr, hp, by rw [pendingFault_eq_none.mpr hfree, hfault]; rfl, hlow⟩

/-! ## What a start sets (R38, R259) -/

theorem step_of_host {s : State} {m : HostMove} {rest : List Move} (h : s.env = .host m :: rest) :
    step s = .next (hostMove m (s.setEnv rest)) := by
  unfold step nextMove
  rw [scheduled_cons h, h]
  rfl

theorem hostMove_start_of_ok {l : Launch} {s : State} (hrun : s.run.startable = true)
    (hok : l.ok s.slices.length = true) : hostMove (.start l) s = startTask l s :=
  if_pos (Bool.and_eq_true_iff.mpr ⟨hrun, hok⟩)

section Registers

variable {l : List (RegNum × Word)} {n : RegNum}

theorem foldl_set_of_not_mem (h : ∀ v, (n, v) ∉ l) (rf : RegFile) :
    (l.foldl (fun rf p => rf.set p.1 p.2) rf).get n = rf.get n ∧
    (l.foldl (fun rf p => rf.set p.1 p.2) rf).holds n = rf.holds n := by
  induction l generalizing rf with
  | nil => exact ⟨rfl, rfl⟩
  | cons p l ih =>
    obtain ⟨hget, hholds⟩ := ih (fun v hv => h v (List.mem_cons_of_mem p hv)) (rf.set p.1 p.2)
    have hne : n ≠ p.1 := fun hn => h p.2 (by simp [hn])
    exact ⟨hget.trans (rf.get_set_other p.2 hne), hholds.trans (rf.holds_set_other p.2 hne)⟩

theorem foldl_set_of_mem {v : Word} (hmem : (n, v) ∈ l) (honly : ∀ v', (n, v') ∈ l → v' = v) (rf : RegFile) :
    (l.foldl (fun rf p => rf.set p.1 p.2) rf).get n = v ∧
    (l.foldl (fun rf p => rf.set p.1 p.2) rf).holds n = true := by
  induction l generalizing rf with
  | nil => cases hmem
  | cons p l ih =>
    have honly' : ∀ v', (n, v') ∈ l → v' = v := fun v' hv' => honly v' (List.mem_cons_of_mem p hv')
    by_cases hlater : (n, v) ∈ l
    · exact ih hlater honly' (rf.set p.1 p.2)
    · have hp : (n, v) = p := (List.mem_cons.mp hmem).resolve_right hlater
      obtain ⟨hget, hholds⟩ :=
        foldl_set_of_not_mem (fun v' hv' => hlater (honly' v' hv' ▸ hv')) (rf.set p.1 p.2)
      rw [List.foldl_cons, hget, hholds, ← hp]
      exact ⟨rf.get_set_same n v, rf.holds_set_same n v⟩

/-- A register that no entry names holds no value after the start (R38). -/
theorem launchRegs_of_not_mem (h : ∀ v, (n, v) ∉ l) : (launchRegs l).holds n = false :=
  (foldl_set_of_not_mem h RegFile.unwritten).2.trans (by simp [RegFile.holds, RegFile.unwritten])

/-- A register to which the record gives one value holds it after the start. -/
theorem launchRegs_of_mem {v : Word} (hmem : (n, v) ∈ l) (honly : ∀ v', (n, v') ∈ l → v' = v) :
    (launchRegs l).get n = v ∧ (launchRegs l).holds n = true := foldl_set_of_mem hmem honly _

end Registers

theorem mem_sInitOf {l : List (Nat × RegNum × Word)} {i : Nat} {n : RegNum} {v : Word} :
    (n, v) ∈ sInitOf l i ↔ (i, n, v) ∈ l := by simp [sInitOf]

theorem tInitOf_of_not_mem {l : List (Nat × Bool)} {i : Nat} (h : ∀ b, (i, b) ∉ l) : tInitOf l i = none := by
  have hfind : l.find? (fun p => p.1 == i) = none :=
    List.find?_eq_none.mpr fun p hp hi => h p.2 (by rwa [← beq_iff_eq.mp hi])
  rw [tInitOf, hfind]
  rfl

theorem tInitOf_of_mem {l : List (Nat × Bool)} {i : Nat} {b : Bool} (hmem : (i, b) ∈ l)
    (honly : ∀ b', (i, b') ∈ l → b' = b) : tInitOf l i = some b := by
  obtain ⟨⟨j, c⟩, hfind⟩ := Option.isSome_iff_exists.mp
    (List.find?_isSome.mpr ⟨(i, b), hmem, by simp⟩ : (l.find? fun p => p.1 == i).isSome = true)
  have hj : j = i := by simpa using List.find?_some hfind
  have hc : c = b := honly c (hj ▸ List.mem_of_find?_eq_some hfind)
  rw [tInitOf, hfind, ← hc]
  rfl

/-- The bytes of two words at different multiples of 4 have different addresses. -/
theorem byteAddr_ne_of_aligned {a c : Word} (ha : a.toNat % 4 = 0) (hc : c.toNat % 4 = 0) (hne : a ≠ c) {j k : Nat}
    (hj : j < 4) (hk : k < 4) : byteAddr a j ≠ byteAddr c k := by
  have hlt := a.isLt
  have hlt' := c.isLt
  have hne' : a.toNat ≠ c.toNat := fun h => hne (BitVec.eq_of_toNat_eq h)
  simp only [byteAddr, BitVec.toNat_add, BitVec.toNat_ofNat]
  omega

theorem Memory.readWord_congr {order : ByteOrder} {m m' : Memory} {a : Word}
    (h : ∀ k, k < 4 → m'.readByte (byteAddr a k) = m.readByte (byteAddr a k)) :
    m'.readWord order a = m.readWord order a := by
  simp only [Memory.readWord, h 0 (by decide), h 1 (by decide), h 2 (by decide), h 3 (by decide)]

section MemInit

variable {order : ByteOrder} {l : List (Word × Word)} {m : Memory}

/-- A byte of no word of the list is left alone. -/
theorem foldl_writeWord_readByte (hm : m.wf = true) {c : Nat}
    (h : ∀ a v, (a, v) ∈ l → ∀ k, k < 4 → c ≠ byteAddr a k) :
    Memory.readByte (l.foldl (fun m p => m.writeWord order p.1 p.2) m) c = m.readByte c := by
  induction l generalizing m with
  | nil => rfl
  | cons p l ih =>
    refine (ih (Memory.writeWord_wf hm order p.1 p.2) fun a v hv => h a v (List.mem_cons_of_mem p hv)).trans ?_
    exact Memory.readByte_writeWord_other hm order p.1 p.2 (h p.1 p.2 (by simp))

/-- A word to which the list, whose addresses are multiples of 4, gives one value has it. -/
theorem foldl_writeWord_readWord (hm : m.wf = true) (haligned : ∀ p ∈ l, p.1.toNat % 4 = 0) {a v : Word}
    (hmem : (a, v) ∈ l) (honly : ∀ v', (a, v') ∈ l → v' = v) :
    Memory.readWord order (l.foldl (fun m p => m.writeWord order p.1 p.2) m) a = v := by
  induction l generalizing m with
  | nil => cases hmem
  | cons p l ih =>
    have hm' := Memory.writeWord_wf hm order p.1 p.2
    have honly' : ∀ v', (a, v') ∈ l → v' = v := fun v' hv' => honly v' (List.mem_cons_of_mem p hv')
    have haligned' : ∀ q ∈ l, q.1.toNat % 4 = 0 := fun q hq => haligned q (List.mem_cons_of_mem p hq)
    by_cases hlater : (a, v) ∈ l
    · exact ih hm' haligned' hlater honly'
    · have hp : (a, v) = p := (List.mem_cons.mp hmem).resolve_right hlater
      have hrest : Memory.readWord order (l.foldl (fun m p => m.writeWord order p.1 p.2) (m.writeWord order p.1 p.2)) a
          = (m.writeWord order p.1 p.2).readWord order a := by
        refine Memory.readWord_congr fun j hj => foldl_writeWord_readByte hm' fun c w hw k hk => ?_
        have hne : a ≠ c := fun hac => hlater (by subst hac; exact honly' w hw ▸ hw)
        exact byteAddr_ne_of_aligned (haligned _ hmem) (haligned' _ hw) hne hj hk
      rw [List.foldl_cons, hrest, ← hp]
      exact Memory.readWord_writeWord hm order a v

end MemInit

theorem startTask_slices_getElem? {l : Launch} {s : State} {i : Nat} {sl : Slice}
    (h : (startTask l s).slices[i]? = some sl) : sl = launchSlice l i := by
  obtain ⟨hi, rfl⟩ := List.getElem?_eq_some_iff.mp h
  simp [startTask]

/-- Settles O56: the start is `startTask`, whose registers, flags and memory are read entry by entry from the record. -/
theorem hostStartSetsWholeState : Obligations.HostStartSetsWholeState := by
  intro s l rest henv hrun hok
  refine ⟨startTask l (s.setEnv rest), ?_, rfl, rfl, rfl, rfl, rfl, rfl, rfl, rfl, rfl, by simp [startTask],
    fun i sl hsl => ?_, fun n hn => launchRegs_of_not_mem hn, fun n v hmem honly => launchRegs_of_mem hmem honly,
    fun a v hmem honly => foldl_writeWord_readWord rfl (launchOk_of_ok hok).memInit hmem honly,
    fun b hb => foldl_writeWord_readByte rfl hb⟩
  · rw [step_of_host henv]
    exact congrArg Host.Outcome.next (hostMove_start_of_ok hrun hok)
  · rw [startTask_slices_getElem? hsl]
    refine ⟨rfl, rfl, fun n hn => ?_, fun n v hmem honly => ?_, fun hb => ?_, fun b hmem honly => ?_⟩
    · exact launchRegs_of_not_mem fun v hv => hn v (mem_sInitOf.mp hv)
    · exact launchRegs_of_mem (mem_sInitOf.mpr hmem) fun v' hv' => honly v' (mem_sInitOf.mp hv')
    · simp [launchSlice, tInitOf_of_not_mem hb]
    · simp [launchSlice, tInitOf_of_mem hmem honly]

/-! ## The `T` flags erased

What an instruction does apart from the `T` flags is what it does on the state with the flags erased. -/

/-- The slice with its `T` flag cleared and marked unwritten. -/
def Slice.eraseT (sl : Slice) : Slice := { sl with t := false, tWritten := false }

@[simp] theorem Slice.eraseT_regs (sl : Slice) : sl.eraseT.regs = sl.regs := rfl
@[simp] theorem Slice.eraseT_en (sl : Slice) : sl.eraseT.en = sl.en := rfl
@[simp] theorem Slice.eraseT_queue (sl : Slice) : sl.eraseT.queue = sl.queue := rfl

theorem onlyT_iff_eraseT_eq {sl sl' : Slice} : OnlyT sl sl' ↔ sl'.eraseT = sl.eraseT := by
  simp [OnlyT, Slice.eraseT]

/-- The state with every `T` flag cleared and marked unwritten. -/
def State.eraseT (s : State) : State := s.setSlices (s.slices.map Slice.eraseT)

@[simp] theorem State.eraseT_params (s : State) : s.eraseT.params = s.params := rfl
@[simp] theorem State.eraseT_globals (s : State) : s.eraseT.globals = s.globals := rfl
@[simp] theorem State.eraseT_gmau (s : State) : s.eraseT.gmau = s.gmau := rfl
@[simp] theorem State.eraseT_ip (s : State) : s.eraseT.ip = s.ip := rfl
@[simp] theorem State.eraseT_mem (s : State) : s.eraseT.mem = s.mem := rfl
@[simp] theorem State.eraseT_frees (s : State) : s.eraseT.frees = s.frees := rfl
@[simp] theorem State.eraseT_slices (s : State) : s.eraseT.slices = s.slices.map Slice.eraseT := rfl

/-- Two states differ in `T` flags only when they are one state with the flags erased. -/
theorem sameButT_iff {s s' : State} : SameButT s s' ↔ s.eraseT = s'.eraseT := by
  constructor
  · rintro ⟨hrest, hlen, hslices⟩
    have hmap : s.slices.map Slice.eraseT = s'.slices.map Slice.eraseT := by
      refine List.ext_getElem (by simpa using hlen.symm) fun i hi hi' => ?_
      rw [List.length_map] at hi hi'
      rw [List.getElem_map, List.getElem_map]
      exact (onlyT_iff_eraseT_eq.mp
        (hslices i _ _ (List.getElem?_eq_getElem hi) (List.getElem?_eq_getElem hi'))).symm
    calc s.eraseT = s.setSlices (s'.slices.map Slice.eraseT) := by rw [State.eraseT, hmap]
      _ = (s.setSlices s'.slices).eraseT := rfl
      _ = s'.eraseT := by rw [← hrest]
  · intro h
    have hmap : s.slices.map Slice.eraseT = s'.slices.map Slice.eraseT := congrArg State.slices h
    refine ⟨?_, by simpa using (congrArg List.length hmap).symm, fun i sl sl' hsl hsl' => ?_⟩
    · calc s' = s'.eraseT.setSlices s'.slices := rfl
        _ = s.setSlices s'.slices := by rw [← h]; rfl
    · have hi := congrArg (fun l : List Slice => l[i]?) hmap
      simp only [List.getElem?_map, hsl, hsl', Option.map_some, Option.some.injEq] at hi
      exact onlyT_iff_eraseT_eq.mpr hi.symm

/-- An answer with the `T` flags of its next state erased. -/
def eraseAnswer : Result → Result
  | .next t => .next t.eraseT
  | .fault f => .fault f
  | .refused r => .refused r

/-! ### What does not depend on the flags -/

section Reads

variable (s : State)

@[simp] theorem enabledAt_eraseT (i : Nat) : s.eraseT.enabledAt i = s.enabledAt i := by
  simp only [State.enabledAt, State.eraseT_slices, List.getElem?_map]
  cases s.slices[i]? <;> rfl

@[simp] theorem enabledIds_eraseT : s.eraseT.enabledIds = s.enabledIds := by
  simp only [State.enabledIds, State.eraseT_slices, List.length_map]
  exact List.filter_congr fun i _ => enabledAt_eraseT s i

@[simp] theorem sliceRegs_eraseT (i : Nat) : s.eraseT.sliceRegs i = s.sliceRegs i := by
  simp only [State.sliceRegs, State.eraseT_slices, List.getElem?_map]
  cases s.slices[i]? <;> rfl

@[simp] theorem queueOf_eraseT (u : MauUnit) : s.eraseT.queueOf u = s.queueOf u := by
  cases u with
  | gmau => rfl
  | smau i =>
    simp only [State.queueOf, State.eraseT_slices, List.getElem?_map]
    cases s.slices[i]? <;> rfl

@[simp] theorem execMask_eraseT : s.eraseT.execMask = s.execMask := by
  simp [State.execMask, Function.comp_def]

@[simp] theorem enabledRank_eraseT : s.eraseT.enabledRank = s.enabledRank := by
  funext i
  simp [State.enabledRank, ← List.map_take, List.filter_map, Function.comp_def]

@[simp] theorem lowestEnabled_eraseT : s.eraseT.lowestEnabled = s.lowestEnabled := by
  simp [State.lowestEnabled]

@[simp] theorem anyQueued_eraseT : s.eraseT.anyQueued = s.anyQueued := by
  simp [State.anyQueued, Function.comp_def]

@[simp] theorem concernedUnits_eraseT : s.eraseT.concernedUnits = s.concernedUnits := by
  simp [State.concernedUnits]

@[simp] theorem commitReady_eraseT : s.eraseT.commitReady = s.commitReady := by simp [State.commitReady]

@[simp] theorem performable_eraseT : s.eraseT.performable = s.performable := by
  simp [State.performable, State.performableOf]

@[simp] theorem concernedRegs_eraseT (g : RegSet) (ns : List RegNum) :
    concernedRegs s.eraseT g ns = concernedRegs s g ns := by cases g <;> simp [concernedRegs]

@[simp] theorem perEnabled_eraseT {α : Type} (f : Nat → List α) : perEnabled s.eraseT f = perEnabled s f := by
  simp [perEnabled]

@[simp] theorem formUnits_eraseT (g : RegSet) : formUnits s.eraseT g = formUnits s g := by
  cases g <;> simp [formUnits]

@[simp] theorem formAddrs_eraseT (g : RegSet) (n : RegNum) : formAddrs s.eraseT g n = formAddrs s g n := by
  cases g <;> simp [formAddrs, State.readReg]

@[simp] theorem isPending_eraseT (r : RegRef) : s.eraseT.isPending r = s.isPending r := by
  cases r <;> simp [State.isPending]

@[simp] theorem holdsValue_reg_eraseT (r : RegRef) : s.eraseT.holdsValue (.reg r) = s.holdsValue (.reg r) := by
  cases r <;> simp [State.holdsValue]

@[simp] theorem pendingFault_eraseT (named : List RegRef) : pendingFault s.eraseT named = pendingFault s named := by
  simp [pendingFault]

/-- The unwritten check of registers; a `T` flag is what it may not read here. -/
theorem unwrittenFault_eraseT {reads : List ReadRef} (h : ∀ r ∈ reads, ∃ x, r = .reg x) :
    unwrittenFault s.eraseT reads = unwrittenFault s reads := by
  have hfind : reads.find? (fun r => !s.eraseT.holdsValue r) = reads.find? fun r => !s.holdsValue r := by
    refine List.find?_congr fun r hr => ?_
    obtain ⟨x, rfl⟩ := h r hr
    rw [holdsValue_reg_eraseT]
  rw [unwrittenFault, hfind, unwrittenFault]

@[simp] theorem unwrittenFault_map_reg_eraseT (refs : List RegRef) :
    unwrittenFault s.eraseT (refs.map .reg) = unwrittenFault s (refs.map .reg) :=
  unwrittenFault_eraseT s fun _ hr => by
    obtain ⟨x, -, rfl⟩ := List.mem_map.mp hr
    exact ⟨x, rfl⟩

/-- The unwritten check of registers of each enabled slice. -/
theorem unwrittenFault_perEnabled_eraseT {f : Nat → List ReadRef} (h : ∀ i, ∀ r ∈ f i, ∃ x, r = .reg x) :
    unwrittenFault s.eraseT (perEnabled s f) = unwrittenFault s (perEnabled s f) :=
  unwrittenFault_eraseT s fun r hr => by
    obtain ⟨i, -, hi⟩ := List.mem_flatMap.mp hr
    exact h i r hi

@[simp] theorem dataFaults_eraseT (as : List Word) : dataFaults s.eraseT as = dataFaults s as := rfl

@[simp] theorem storeFaults_eraseT (as : List Word) : storeFaults s.eraseT as = storeFaults s as := rfl

@[simp] theorem overflowFault_eraseT (us : List MauUnit) : overflowFault s.eraseT us = overflowFault s us := by
  simp [overflowFault]

@[simp] theorem globalSourceFault_eraseT (rs : RegNum) :
    globalSourceFault rs s.eraseT = globalSourceFault rs s := by
  rw [globalSourceFault, pendingFault_eraseT, unwrittenFault_eraseT s (by simp), globalSourceFault]

end Reads

/-! ### Updates, up to the flags -/

section Updates

variable {s : State}

theorem updateEnabled_eraseT {l : List Slice} {f f' : Nat → Slice → Slice}
    (h : ∀ i sl, (f' i sl.eraseT).eraseT = (f i sl).eraseT) :
    (updateEnabled f' (l.map Slice.eraseT)).map Slice.eraseT = (updateEnabled f l).map Slice.eraseT := by
  refine List.ext_getElem? fun i => ?_
  simp only [List.getElem?_map, updateEnabled_getElem?, Option.map_map]
  congr 1
  funext sl
  cases hen : sl.en
  · simp [hen, Slice.eraseT]
  · simpa [hen] using h i sl

theorem updateEvery_eraseT {l : List Slice} {f f' : Nat → Slice → Slice}
    (h : ∀ i sl, (f' i sl.eraseT).eraseT = (f i sl).eraseT) :
    (updateEvery f' (l.map Slice.eraseT)).map Slice.eraseT = (updateEvery f l).map Slice.eraseT := by
  refine List.ext_getElem? fun i => ?_
  simp only [List.getElem?_map, updateEvery_getElem?, Option.map_map]
  exact congrArg (Option.map · _) (funext (h i))

theorem setSlices_updateEnabled_eraseT {f f' : Nat → Slice → Slice}
    (h : ∀ i sl, (f' i sl.eraseT).eraseT = (f i sl).eraseT) :
    (s.eraseT.setSlices (updateEnabled f' s.eraseT.slices)).eraseT =
      (s.setSlices (updateEnabled f s.slices)).eraseT := congrArg s.setSlices (updateEnabled_eraseT h)

theorem setSlices_updateEvery_eraseT {f f' : Nat → Slice → Slice}
    (h : ∀ i sl, (f' i sl.eraseT).eraseT = (f i sl).eraseT) :
    (s.eraseT.setSlices (updateEvery f' s.eraseT.slices)).eraseT =
      (s.setSlices (updateEvery f s.slices)).eraseT := congrArg s.setSlices (updateEvery_eraseT h)

theorem eraseT_eraseT (s : State) : s.eraseT.eraseT = s.eraseT := by
  simp [State.eraseT, State.setSlices, Function.comp_def, Slice.eraseT]

theorem advance_eraseT {t t' : State} (h : t'.eraseT = t.eraseT) : t'.advance.eraseT = t.advance.eraseT :=
  congrArg State.advance h

theorem setFrees_eraseT {t t' : State} (h : t'.eraseT = t.eraseT) (n : Nat) :
    (t'.setFrees n).eraseT = (t.setFrees n).eraseT := congrArg (State.setFrees · n) h

theorem setGlobals_eraseT (rf : RegFile) : (s.eraseT.setGlobals rf).eraseT = (s.setGlobals rf).eraseT :=
  congrArg (State.setGlobals · rf) (eraseT_eraseT s)

theorem setIp_eraseT (a : Word) : (s.eraseT.setIp a).eraseT = (s.setIp a).eraseT :=
  congrArg (State.setIp · a) (eraseT_eraseT s)

theorem writeSet_eraseT {g : RegSet} {d : RegNum} {fl fl' : Nat → Slice → Word} {fg : Word}
    (h : ∀ i sl, fl' i sl.eraseT = fl i sl) :
    (writeSet s.eraseT g d fl' fg).eraseT = (writeSet s g d fl fg).eraseT := by
  cases g with
  | slice =>
    refine setSlices_updateEnabled_eraseT fun i sl => ?_
    rw [h]
    rfl
  | global => exact setGlobals_eraseT _

theorem enqueue_eraseT {g : RegSet} {q q' : Slice → Request} {r : Request} (h : ∀ sl, q' sl.eraseT = q sl) :
    (enqueue s.eraseT g q' r).eraseT = (enqueue s g q r).eraseT := by
  cases g with
  | slice =>
    refine setSlices_updateEnabled_eraseT fun i sl => ?_
    rw [h]
    rfl
  | global => exact congrArg (State.setGmau · (s.gmau ++ [r])) (eraseT_eraseT s)

end Updates

/-! ### A unit's move on erased flags -/

section Units

variable (s : State) (u : MauUnit)

theorem setQueue_eraseT (q : List Request) : s.eraseT.setQueue u q = (s.setQueue u q).eraseT := by
  cases u with
  | gmau => rfl
  | smau i =>
    refine congrArg s.setSlices (List.ext_getElem? fun j => ?_)
    rw [List.getElem?_map, setQueue_smau_getElem?, List.getElem?_modify, State.eraseT_slices, List.getElem?_map]
    cases s.slices[j]? with
    | none => rfl
    | some sl => by_cases hij : i = j <;> simp [hij, Slice.eraseT, Slice.setQueue]

theorem performRequest_eraseT (k : Nat) (r : Request) :
    performRequest s.eraseT u k r = (performRequest s u k r).eraseT := by
  cases r <;> simp only [performRequest, setQueue_eraseT, queueOf_eraseT] <;> rfl

theorem mauPerform_eraseT (k : Nat) : mauPerform s.eraseT u k = (mauPerform s u k).eraseT := by
  simp only [mauPerform, queueOf_eraseT, State.eraseT_params, performRequest_eraseT]
  split
  · split <;> rfl
  · rfl

theorem performOne_eraseT : performOne s.eraseT = (performOne s).eraseT := by
  simp only [performOne, performable_eraseT, mauPerform_eraseT, State.eraseT_frees]
  split <;> rfl

end Units

/-! ### Every instruction on erased flags -/

section Meanings

variable {s : State}

theorem checked_eraseT {o o' : Option Fault} {t t' : State} (ho : o' = o) (ht : t'.eraseT = t.eraseT) :
    eraseAnswer (checked o' t') = eraseAnswer (checked o t) := by
  subst ho
  cases o' with
  | none => exact congrArg Host.Outcome.next ht
  | some f => rfl

theorem runRegOp_eraseT (g : RegSet) (d : RegNum) (srcs : List RegNum) (f : RegFile → Word) :
    eraseAnswer (runRegOp g d srcs f s.eraseT) = eraseAnswer (runRegOp g d srcs f s) :=
  checked_eraseT (by simp) (advance_eraseT (writeSet_eraseT fun _ _ => rfl))

theorem runRegOpDraw_eraseT (g : RegSet) (d : RegNum) (srcs : List RegNum) (f : Word → RegFile → Word) :
    eraseAnswer (runRegOpDraw g d srcs f s.eraseT) = eraseAnswer (runRegOpDraw g d srcs f s) := by
  refine checked_eraseT (by simp) (advance_eraseT ?_)
  rw [State.eraseT_slices, List.length_map]
  exact setFrees_eraseT (writeSet_eraseT fun _ _ => rfl) _

theorem runOp2_eraseT (f : Word → Word → Word) (g : RegSet) (d a b : RegNum) :
    eraseAnswer (runOp2 f g d a b s.eraseT) = eraseAnswer (runOp2 f g d a b s) := runRegOp_eraseT ..

theorem runOp1_eraseT (f : Word → Word) (g : RegSet) (d a : RegNum) :
    eraseAnswer (runOp1 f g d a s.eraseT) = eraseAnswer (runOp1 f g d a s) := runRegOp_eraseT ..

theorem runAccumulate_eraseT (f : Word → Word → Word → Word) (g : RegSet) (d a b : RegNum) :
    eraseAnswer (runAccumulate f g d a b s.eraseT) = eraseAnswer (runAccumulate f g d a b s) := runRegOp_eraseT ..

theorem runOp2Draw_eraseT (f : Word → Word → Word → Word) (g : RegSet) (d a b : RegNum) :
    eraseAnswer (runOp2Draw f g d a b s.eraseT) = eraseAnswer (runOp2Draw f g d a b s) := runRegOpDraw_eraseT ..

theorem runOp1Draw_eraseT (f : Word → Word → Word) (g : RegSet) (d a : RegNum) :
    eraseAnswer (runOp1Draw f g d a s.eraseT) = eraseAnswer (runOp1Draw f g d a s) := runRegOpDraw_eraseT ..

theorem execMov_eraseT (gd gs : RegSet) (d rs : RegNum) :
    eraseAnswer (execMov gd gs d rs s.eraseT) = eraseAnswer (execMov gd gs d rs s) := by
  cases gd <;> cases gs
  case slice.slice => unfold execMov; exact runOp1_eraseT ..
  case global.global => unfold execMov; exact runOp1_eraseT ..
  case slice.global =>
    refine checked_eraseT ?_ (advance_eraseT (writeSet_eraseT fun _ _ => rfl))
    rw [perEnabled_eraseT, perEnabled_eraseT, pendingFault_eraseT, unwrittenFault_perEnabled_eraseT s (by simp)]
  case global.slice =>
    refine checked_eraseT ?_ ?_
    · rw [perEnabled_eraseT, pendingFault_eraseT, lowestEnabled_eraseT, unwrittenFault_eraseT s (by simp)]
    · rw [lowestEnabled_eraseT]
      split
      · rw [sliceRegs_eraseT]
        exact advance_eraseT (setGlobals_eraseT _)
      · exact advance_eraseT (eraseT_eraseT s)

theorem moveIndexed_eraseT (off : Nat → Nat) (dir : MoveDir) (d rs : RegNum) :
    eraseAnswer (moveIndexed off dir d rs s.eraseT) = eraseAnswer (moveIndexed off dir d rs s) := by
  cases dir with
  | fromGlobal =>
    refine checked_eraseT ?_ (advance_eraseT (writeSet_eraseT fun _ _ => rfl))
    rw [perEnabled_eraseT, perEnabled_eraseT, pendingFault_eraseT, enabledIds_eraseT,
      unwrittenFault_perEnabled_eraseT s fun i r hr => by
        obtain ⟨x, -, rfl⟩ := List.mem_map.mp hr
        exact ⟨x, rfl⟩]
  | toGlobal =>
    refine checked_eraseT ?_ ?_
    · rw [perEnabled_eraseT, perEnabled_eraseT, pendingFault_eraseT, enabledIds_eraseT,
        unwrittenFault_perEnabled_eraseT s (by simp)]
    · simp only [enabledIds_eraseT, sliceRegs_eraseT]
      exact advance_eraseT (setGlobals_eraseT _)

theorem execLd_eraseT (g : RegSet) (d rs : RegNum) :
    eraseAnswer (execLd g d rs s.eraseT) = eraseAnswer (execLd g d rs s) :=
  checked_eraseT (by simp) (advance_eraseT (enqueue_eraseT fun _ => rfl))

theorem execSt_eraseT (gd gs : RegSet) (d rs : RegNum) :
    eraseAnswer (execSt gd gs d rs s.eraseT) = eraseAnswer (execSt gd gs d rs s) := by
  cases gd <;> cases gs
  case slice.slice => exact checked_eraseT (by simp) (advance_eraseT (enqueue_eraseT fun _ => rfl))
  case global.global => exact checked_eraseT (by simp) (advance_eraseT (enqueue_eraseT fun _ => rfl))
  case global.slice => rfl
  case slice.global =>
    refine checked_eraseT ?_ (advance_eraseT (enqueue_eraseT fun _ => rfl))
    rw [perEnabled_eraseT, perEnabled_eraseT, pendingFault_eraseT, unwrittenFault_perEnabled_eraseT s (by simp),
      formAddrs_eraseT, formUnits_eraseT, storeFaults_eraseT, overflowFault_eraseT]

theorem execCommit_eraseT : eraseAnswer (execCommit s.eraseT) = eraseAnswer (execCommit s) := by
  unfold execCommit
  rw [commitReady_eraseT]
  split
  · have hslices := setSlices_updateEnabled_eraseT (s := s)
      (f := fun _ sl => (sl.setRegs (deliver sl.queue sl.regs)).setQueue [])
      (f' := fun _ sl => (sl.setRegs (deliver sl.queue sl.regs)).setQueue []) fun _ _ => rfl
    exact congrArg (fun t : State => Host.Outcome.next
      ((t.setGlobals (deliver s.gmau s.globals)).setGmau []).advance) hslices
  · rw [performOne_eraseT]
    exact congrArg Host.Outcome.next (eraseT_eraseT _)

theorem execDiscard_eraseT : eraseAnswer (execDiscard s.eraseT) = eraseAnswer (execDiscard s) := by
  have hslices := setSlices_updateEnabled_eraseT (s := s) (f := fun _ sl => sl.setQueue [])
    (f' := fun _ sl => sl.setQueue []) fun _ _ => rfl
  exact congrArg (fun t : State => Host.Outcome.next (t.setGmau []).advance) hslices

theorem execTst_eraseT (g : RegSet) (negated : Bool) (c : Cond) (a b : RegNum) :
    eraseAnswer (execTst g negated c a b s.eraseT) = eraseAnswer (execTst g negated c a b s) := by
  refine checked_eraseT ?_ (advance_eraseT (setSlices_updateEnabled_eraseT fun _ _ => rfl))
  rw [perEnabled_eraseT, perEnabled_eraseT, pendingFault_eraseT,
    unwrittenFault_perEnabled_eraseT s fun i r hr => by
      obtain ⟨n, -, rfl⟩ := List.mem_map.mp hr
      exact ⟨_, rfl⟩]

theorem branch_eraseT {taken taken' : Prop} [Decidable taken] [Decidable taken'] (h : taken' ↔ taken) (b : BranchOp)
    (off : BitVec 23) :
    (if taken' then s.eraseT.setIp (s.eraseT.branchTo b off) else s.eraseT.advance).eraseT =
      (if taken then s.setIp (s.branchTo b off) else s.advance).eraseT := by
  simp only [h]
  split
  · exact setIp_eraseT _
  · exact advance_eraseT (eraseT_eraseT s)

theorem execSig_eraseT : eraseAnswer (execSig s.eraseT) = eraseAnswer (execSig s) := by
  refine checked_eraseT (by rw [anyQueued_eraseT]) ?_
  rw [State.eraseT_params]
  split
  · exact congrArg (fun t : State => (t.setSignal true).setRun .completed) (eraseT_eraseT s)
  · exact congrArg (fun t : State => (t.setSignal true).advance) (eraseT_eraseT s)

end Meanings

/-- An instruction other than `ENT`, `TMST`, `LDT` and `SEL` answers the same, up to the flags, on erased flags. -/
theorem exec_eraseT {i : Instr} (s : State) (hi : match i with
    | .ent | .tmst _ | .ldt _ | .sel _ _ _ => False
    | _ => True) : eraseAnswer (exec i s.eraseT) = eraseAnswer (exec i s) := by
  cases i with
  | ent | tmst | ldt | sel => exact hi.elim
  | mov => exact execMov_eraseT ..
  | mvg => exact moveIndexed_eraseT ..
  | mvge =>
    unfold exec execMvge
    rw [enabledRank_eraseT]
    exact moveIndexed_eraseT ..
  | ld => exact execLd_eraseT ..
  | st => exact execSt_eraseT ..
  | commit => exact execCommit_eraseT
  | discard => exact execDiscard_eraseT
  | enm rs =>
    exact checked_eraseT (globalSourceFault_eraseT s rs)
      (advance_eraseT (setSlices_updateEvery_eraseT fun _ _ => rfl))
  | mskl rs =>
    exact checked_eraseT (globalSourceFault_eraseT s rs)
      (advance_eraseT (setSlices_updateEvery_eraseT fun _ _ => rfl))
  | emst d =>
    unfold exec execEmst
    rw [execMask_eraseT]
    exact checked_eraseT (pendingFault_eraseT s _) (advance_eraseT (setGlobals_eraseT _))
  | tst => exact execTst_eraseT ..
  | br off => exact congrArg Host.Outcome.next (setIp_eraseT _)
  | ben off => exact congrArg Host.Outcome.next (branch_eraseT (by rw [execMask_eraseT]) .ben off)
  | bnen off => exact congrArg Host.Outcome.next (branch_eraseT (by rw [execMask_eraseT]) .bnen off)
  | sig => exact execSig_eraseT
  | nop => exact congrArg Host.Outcome.next (advance_eraseT (eraseT_eraseT s))
  | mvi => unfold exec execMvi; exact runRegOp_eraseT ..
  | relpc => unfold exec execRelpc; exact runRegOp_eraseT ..
  | and | or | xor | be | bs | bc | lsr | lsl | asr | add | sub | umuli | smuli | mulq => exact runOp2_eraseT ..
  | not | lnot | lbool | pcnt | bits | rev | revh | revl | ffs | rthl | rthh | abs | neg | sxt | ufloor | sfloor
  | uceil | sceil | round => exact runOp1_eraseT ..
  | ufmai | sfmai | macq => exact runAccumulate_eraseT ..
  | udivi | sdivi | divq | urem => exact runOp2Draw_eraseT ..
  | rcpq | sqrtq => exact runOp1Draw_eraseT ..
  | mvs | sampr | sampc | tild | tist | pld | pst | tofs | tofl | tril | baryp => rfl

/-- The same answer, next states differing in `T` flags only. -/
def SameAnswerButT (r r' : Result) : Prop :=
  match r, r' with
  | .next t, .next t' => SameButT t t'
  | .fault f, .fault f' => f = f'
  | .refused e, .refused e' => e = e'
  | _, _ => False

theorem sameAnswerButT_of_eraseAnswer_eq {r r' : Result} (h : eraseAnswer r = eraseAnswer r') :
    SameAnswerButT r r' := by
  cases r <;> cases r' <;> simp only [eraseAnswer] at h
  case next.next => exact sameButT_iff.mpr (by injection h)
  case fault.fault => injection h
  case refused.refused => injection h
  all_goals cases h

/-- Settles O11: every instruction keeps the flags that `SliceKeeps` says, and two states with different flags are one
state with the flags erased, on which the other instructions answer as on both. -/
theorem flagsTouchedOnlyByNamedInstructions : Obligations.FlagsTouchedOnlyByNamedInstructions := by
  refine ⟨fun i s t h => ?_, fun i s s' hsame hi => ?_⟩
  · obtain ⟨hlen, hkeeps⟩ := (exec_effect h).eachSlice
    exact ⟨hlen, fun j sl sl' hsl hsl' => (hkeeps j sl sl' hsl hsl').flag⟩
  · refine sameAnswerButT_of_eraseAnswer_eq ?_
    calc eraseAnswer (exec i s) = eraseAnswer (exec i s.eraseT) := (exec_eraseT s hi).symm
      _ = eraseAnswer (exec i s'.eraseT) := by rw [sameButT_iff.mp hsame]
      _ = eraseAnswer (exec i s') := exec_eraseT s' hi

end Sys2Proof.Machine

/-! # Memory and the units (O5, O6, O24 to O31, O58) -/

namespace Sys2Proof.Machine

/-! ## The move of a unit (R62) -/

theorem mayPerform_eq_true {order : MauOrder} {q : List Request} {k : Nat} :
    mayPerform order q k = true ↔
      (∃ r, q[k]? = some r ∧ r.performed = false) ∧ (order = .fifo → ∀ r ∈ q.take k, r.performed = true) := by
  unfold mayPerform
  split
  · rename_i hnone
    simp [hnone]
  · rename_i r hr
    cases order <;> simp [hr]

theorem mauPerform_of_not_mayPerform {s : State} {u : MauUnit} {k : Nat}
    (h : mayPerform s.params.mauOrder (s.queueOf u) k ≠ true) : mauPerform s u k = s := if_neg h

/-- A request that may be performed is performed by its unit's move. -/
theorem mauPerform_eq_performRequest {s : State} {u : MauUnit} {k : Nat} {r : Request}
    (h : mayPerform s.params.mauOrder (s.queueOf u) k = true) (hr : (s.queueOf u)[k]? = some r) :
    mauPerform s u k = performRequest s u k r := by
  rw [mauPerform, if_pos h, hr]

theorem step_of_mau {s : State} {u : MauUnit} {k : Nat} {rest : List Move} (h : s.env = .mau u k :: rest) :
    step s = .next (mauPerform (s.setEnv rest) u k) := by
  unfold step nextMove
  rw [scheduled_cons h, h]
  rfl

theorem eachSlice_setQueue (s : State) (u : MauUnit) (q : List Request) :
    EachSlice (fun _ sl sl' => OnlyQueue sl sl') s (s.setQueue u q) := by
  cases u with
  | gmau => exact eachSlice_refl rfl fun _ _ _ => ⟨rfl, rfl, rfl, rfl⟩
  | smau i =>
    refine ⟨by simp [State.setQueue], fun j sl sl' hsl hsl' => ?_⟩
    rw [setQueue_smau_getElem?, hsl] at hsl'
    cases hsl'
    split <;> exact ⟨rfl, rfl, rfl, rfl⟩

/-- The model's way to perform a request is the one of the rules (R55, R62). -/
theorem performRequest_performsRequest {s : State} (hm : s.mem.wf = true) {u : MauUnit} {k : Nat} {r : Request}
    (hr : (s.queueOf u)[k]? = some r) : PerformsRequest s (performRequest s u k r) u k r := by
  obtain ⟨hparams, hglobals, hip, hrun, hsignal, himage, hbase, hadmit, -, -⟩ := performRequest_frame s u k r
  obtain ⟨-, -, -, hothers⟩ := performRequest_queueOf hr
  have hself := fun q => queueOf_setQueue_self (List.ne_nil_of_mem (List.mem_of_getElem? hr)) q
  refine ⟨⟨hparams, hbase, himage, hadmit, hsignal, hrun⟩, hip, hglobals, ?_, hothers, ?_⟩
  · cases r with
    | load n a data => exact eachSlice_setQueue s u _
    | store a v done => exact eachSlice_setQueue s u _
  · cases r with
    | load n a data => exact ⟨hself _, fun b => by cases u <;> rfl⟩
    | store a v done =>
      refine ⟨?_, Memory.readWord_writeWord hm _ a v, fun b hb => Memory.readByte_writeWord_other hm _ a v hb⟩
      refine Eq.trans ?_ (hself ((s.queueOf u).set k (.store a v true)))
      cases u <;> rfl

/-- Settles O31: such a request may not be performed, and the unit's move is then no change. -/
theorem unitOrderIsRespected : Obligations.UnitOrderIsRespected := by
  intro s u k rest henv hcannot
  have hnot : mayPerform s.params.mauOrder (s.queueOf u) k ≠ true := by
    rw [ne_eq, mayPerform_eq_true]
    rintro ⟨⟨r, hr, hunperformed⟩, hfifo⟩
    rcases hcannot with hnone | ⟨r', hr', hdone⟩ | ⟨horder, r', hr', hwaits⟩
    · simp [hnone] at hr
    · cases hr.symm.trans hr'
      simp [hdone] at hunperformed
    · simp [hfifo horder r' hr'] at hwaits
  rw [step_of_mau henv]
  exact congrArg Host.Outcome.next (mauPerform_of_not_mayPerform (s := s.setEnv rest) hnot)

/-! ## What becomes of a queue -/

/-- Every request of `q` is at its place in `q'`, and is performed there if it was in `q`. -/
def KeepsRequests (q q' : List Request) : Prop :=
  ∀ (j : Nat) (r : Request), q[j]? = some r → ∃ r', q'[j]? = some r' ∧ (r.performed = true → r'.performed = true)

/-- The requests before position `k` are all there and performed. -/
def PerformedBelow (q : List Request) (k : Nat) : Prop := ∀ j, j < k → ∃ r, q[j]? = some r ∧ r.performed = true

namespace KeepsRequests

theorem refl (q : List Request) : KeepsRequests q q := fun _ r hr => ⟨r, hr, id⟩

theorem trans {q q' q'' : List Request} (h : KeepsRequests q q') (h' : KeepsRequests q' q'') :
    KeepsRequests q q'' := fun j r hr => by
  obtain ⟨r', hr', hkept⟩ := h j r hr
  obtain ⟨r'', hr'', hkept'⟩ := h' j r' hr'
  exact ⟨r'', hr'', hkept' ∘ hkept⟩

theorem append (q l : List Request) : KeepsRequests q (q ++ l) := fun j r hr =>
  ⟨r, by rw [List.getElem?_append_left (List.getElem?_eq_some_iff.mp hr).1, hr], id⟩

theorem set_performed (q : List Request) (k : Nat) {r : Request} (h : r.performed = true) :
    KeepsRequests q (q.set k r) := fun j r' hr' => by
  by_cases hkj : k = j
  · subst hkj
    exact ⟨r, List.getElem?_set_self (List.getElem?_eq_some_iff.mp hr').1, fun _ => h⟩
  · exact ⟨r', by rw [List.getElem?_set_ne hkj, hr'], id⟩

theorem performedBelow {q q' : List Request} (h : KeepsRequests q q') {k : Nat} (hk : PerformedBelow q k) :
    PerformedBelow q' k := fun j hj => by
  obtain ⟨r, hr, hdone⟩ := hk j hj
  obtain ⟨r', hr', hkept⟩ := h j r hr
  exact ⟨r', hr', hkept hdone⟩

end KeepsRequests

theorem PerformedBelow.succ {q : List Request} {k : Nat} (h : PerformedBelow q k) {r : Request} (hr : q[k]? = some r)
    (hdone : r.performed = true) : PerformedBelow q (k + 1) := fun j hj => by
  rcases Nat.lt_succ_iff_lt_or_eq.mp hj with hlt | rfl
  · exact h j hlt
  · exact ⟨r, hr, hdone⟩

/-- With every older request performed, the unit order lets request `k` be next (R62). -/
theorem PerformedBelow.mayPerform {q : List Request} {k : Nat} (h : PerformedBelow q k) {r : Request}
    (hr : q[k]? = some r) (hwaits : r.performed = false) (order : MauOrder) : mayPerform order q k = true := by
  refine mayPerform_eq_true.mpr ⟨⟨r, hr, hwaits⟩, fun _ r' hr' => ?_⟩
  obtain ⟨j, hj⟩ := List.mem_iff_getElem?.mp hr'
  rw [List.getElem?_take, Option.ite_none_right_eq_some] at hj
  obtain ⟨r'', hr'', hdone⟩ := h j hj.1
  cases hr''.symm.trans hj.2
  exact hdone

/-- The queue of every unit is emptied, or keeps its requests. -/
def QueuesEvolve (s t : State) : Prop := ∀ u, t.queueOf u = [] ∨ KeepsRequests (s.queueOf u) (t.queueOf u)

namespace QueuesEvolve

theorem refl (s : State) : QueuesEvolve s s := fun _ => .inr (.refl _)

theorem of_eachSlice {s t : State} (hgmau : t.gmau = [] ∨ KeepsRequests s.gmau t.gmau)
    (hslices : EachSlice (fun _ sl sl' => sl'.queue = [] ∨ KeepsRequests sl.queue sl'.queue) s t) :
    QueuesEvolve s t := fun u => by
  cases u with
  | gmau => exact hgmau
  | smau i =>
    rcases hsl' : t.slices[i]? with _ | sl'
    · exact .inl (by simp [State.queueOf, hsl'])
    · have hi : i < s.slices.length := hslices.1 ▸ (List.getElem?_eq_some_iff.mp hsl').1
      have hsl : s.slices[i]? = some s.slices[i] := List.getElem?_eq_getElem hi
      rw [queueOf_of_getElem? hsl', queueOf_of_getElem? hsl]
      exact hslices.2 i _ _ hsl hsl'

/-- No queue of a slice is touched. -/
theorem of_sameQueues {s t : State} (hgmau : t.gmau = [] ∨ KeepsRequests s.gmau t.gmau)
    (hslices : EachSlice (fun _ sl sl' => sl'.queue = sl.queue) s t) : QueuesEvolve s t :=
  of_eachSlice hgmau ⟨hslices.1, fun i sl sl' hsl hsl' => .inr (hslices.2 i sl sl' hsl hsl' ▸ .refl _)⟩

end QueuesEvolve

theorem mauPerform_queuesEvolve (s : State) (u : MauUnit) (k : Nat) : QueuesEvolve s (mauPerform s u k) := by
  rcases mauPerform_cases s u k with hsame | ⟨r, hr, -, hperf⟩
  · exact hsame.symm ▸ .refl s
  · obtain ⟨r', hdone, hself, hothers⟩ := performRequest_queueOf hr
    intro v
    rw [hperf]
    by_cases hv : v = u
    · rw [hv, hself]
      exact .inr (.set_performed _ k hdone)
    · rw [hothers v hv]
      exact .inr (.refl _)

theorem performOne_queuesEvolve (s : State) : QueuesEvolve s (performOne s) := by
  rcases performOne_cases s with ⟨-, hsame⟩ | ⟨u, k, n, -, hperf⟩
  · exact hsame.symm ▸ .refl s
  · rw [hperf]
    exact mauPerform_queuesEvolve s u k

theorem execCommit_queuesEvolve {s t : State} (h : execCommit s = .next t) : QueuesEvolve s t := by
  unfold execCommit at h
  split at h <;> cases h
  · refine .of_eachSlice (.inl rfl) (eachSlice_updateEnabled rfl fun _ sl _ => ?_)
    split
    · exact .inl rfl
    · exact .inr (.refl _)
  · exact performOne_queuesEvolve s

/-- Every instruction but `COMMIT`: a request joins, a queue is emptied, or no queue is touched. -/
theorem Effect.queuesEvolve {s t : State} {i : Instr} (h : Effect s i t) (hi : i ≠ .commit) : QueuesEvolve s t := by
  cases h with
  | sliceRegs | enabledFlags =>
    refine .of_sameQueues (.inr (.refl _)) (eachSlice_updateEnabled rfl fun _ sl _ => ?_)
    split <;> rfl
  | enables | everyFlag => exact .of_sameQueues (.inr (.refl _)) (eachSlice_updateEvery rfl fun _ _ _ => rfl)
  | globalRegs | branches | completes | signals => exact .refl s
  | sliceRequests =>
    refine .of_eachSlice (.inr (.refl _)) (eachSlice_updateEnabled rfl fun _ sl _ => ?_)
    split
    · exact .inr (.append _ _)
    · exact .inr (.refl _)
  | globalRequest => exact .of_sameQueues (.inr (.append _ _)) (eachSlice_refl rfl fun _ _ _ => rfl)
  | discards =>
    refine .of_eachSlice (.inl rfl) (eachSlice_updateEnabled rfl fun _ sl _ => ?_)
    split
    · exact .inl rfl
    · exact .inr (.refl _)
  | delivers | held => exact absurd rfl hi

theorem exec_queuesEvolve {i : Instr} {s t : State} (h : exec i s = .next t) : QueuesEvolve s t := by
  by_cases hi : i = .commit
  · subst hi
    exact execCommit_queuesEvolve h
  · exact (exec_effect h).queuesEvolve hi

theorem hostMove_queuesEvolve (m : HostMove) (s : State) : QueuesEvolve s (hostMove m s) := by
  cases m <;> dsimp only [hostMove] <;> split
  case start.isTrue =>
    refine .of_eachSlice (.inl rfl) ⟨by simp [startTask], fun i sl sl' _ hsl' => .inl ?_⟩
    rw [startTask_slices_getElem? hsl']
    rfl
  case stop.isTrue => exact .of_eachSlice (.inl rfl) (eachSlice_updateEvery rfl fun _ _ _ => .inl rfl)
  all_goals exact .refl s

theorem coreTurn_queuesEvolve {s t : State} (h : coreTurn s = .next t) : QueuesEvolve s t := by
  rcases coreTurn_eq_next h with ⟨-, hturn⟩ | ⟨-, rfl⟩
  · rcases runCore_eq_next hturn with ⟨-, rfl⟩ | ⟨_, _, -, -, rfl⟩ | ⟨_, _, -, -, hexec⟩ | ⟨_, _, _, -, -, -, rfl⟩
    · exact .refl s
    · exact .refl s
    · exact exec_queuesEvolve hexec
    · exact .refl s
  · exact .refl t

theorem takeMove_queuesEvolve {m : Move} {s t : State} (h : takeMove m s = .next t) : QueuesEvolve s t := by
  cases m with
  | core => exact coreTurn_queuesEvolve h
  | mau u k => cases h; exact mauPerform_queuesEvolve s u k
  | host m => cases h; exact hostMove_queuesEvolve m s

/-! ## What becomes of the list of moves (log 10) -/

theorem hostMove_env (m : HostMove) (s : State) : (hostMove m s).env = s.env := by
  cases m <;> dsimp only [hostMove] <;> split <;> rfl

theorem StepEffect.env_eq {next : Option Move} {s t : State} (h : StepEffect next s t) : t.env = s.env := by
  cases h with
  | nothing | faults => rfl
  | instruction _ heff => exact heff.env_eq
  | performs hperf => exact hperf.env_eq
  | host => exact hostMove_env ..

theorem takeMove_env {m : Move} {s t : State} (h : takeMove m s = .next t) : t.env = s.env := by
  cases m with
  | core => exact (coreTurn_stepEffect (next := none) h).env_eq
  | mau u k =>
    cases h
    rcases mauPerform_performs s u k with hsame | hperf
    · rw [hsame]
    · exact hperf.env_eq
  | host m => cases h; exact hostMove_env m s

theorem runCore_ne_fault (s : State) (f : Fault) : runCore s ≠ .fault f := by
  unfold runCore
  split
  · nofun
  · split
    · nofun
    · rename_i i _
      cases exec i s <;> nofun

/-- Only the core's turn in a faulted task answers a fault (R252, log 13). -/
theorem coreTurn_fault {s : State} {f : Fault} (h : coreTurn s = .fault f) : s.run = .faulted f := by
  unfold coreTurn at h
  split at h
  case h_1 => exact absurd h (runCore_ne_fault s f)
  case h_2 hrun => cases h; exact hrun
  all_goals cases h

theorem takeMove_fault {m : Move} {s : State} {f : Fault} (h : takeMove m s = .fault f) : s.run = .faulted f := by
  cases m with
  | core => exact coreTurn_fault h
  | mau | host => cases h

theorem step_of_scheduled {s : State} {m : Move} {rest : List Move} (h : s.scheduled.env = m :: rest) :
    step s = takeMove m (s.scheduled.setEnv rest) := by
  unfold step nextMove
  rw [h]

/-- Scheduling is no matter of the queues. -/
theorem queueOf_scheduled_setEnv (s : State) (l : List Move) (u : MauUnit) :
    (s.scheduled.setEnv l).queueOf u = s.queueOf u := by
  obtain ⟨l', n, hsched⟩ := scheduled_frame s
  rw [hsched]
  cases u <;> rfl

/-! ## Progress (R292) -/

theorem steps_add {n m : Nat} {s t : State} (h : steps n s = .next t) : steps (n + m) s = steps m t := by
  induction n generalizing s with
  | zero => cases h; rw [Nat.zero_add]
  | succ n ih =>
    rw [Nat.succ_add, steps]
    rw [steps] at h
    cases hstep : step s <;> rw [hstep] at h
    case next => exact ih h
    all_goals cases h

/-- Nothing more is to be expected of the requests of unit `u`: its queue is empty, the task is faulted, or the run
ends with the next step. -/
def Halted (u : MauUnit) (t : State) : Prop :=
  t.queueOf u = [] ∨ (∃ f, t.run = .faulted f) ∨ ∃ x, step t = .refused x

/-- Finitely many steps lead from `s` to a state with `P`, unless to one where unit `u` is halted. -/
def Reaches (u : MauUnit) (P : State → Prop) (s : State) : Prop :=
  ∃ n t, steps n s = .next t ∧ (Halted u t ∨ P t)

namespace Reaches

variable {u : MauUnit} {P Q : State → Prop} {s t : State}

theorem here (h : P s) : Reaches u P s := ⟨0, s, rfl, .inr h⟩

theorem of_halted (h : Halted u s) : Reaches u P s := ⟨0, s, rfl, .inl h⟩

theorem of_step (hstep : step s = .next t) (h : Reaches u P t) : Reaches u P s := by
  obtain ⟨n, t', hsteps, hend⟩ := h
  refine ⟨n + 1, t', ?_, hend⟩
  rw [steps, hstep]
  exact hsteps

theorem trans (h : Reaches u P s) (h' : ∀ t, P t → Reaches u Q t) : Reaches u Q s := by
  obtain ⟨n, t, hsteps, hhalted | ht⟩ := h
  · exact ⟨n, t, hsteps, .inl hhalted⟩
  · obtain ⟨m, t', hsteps', hend⟩ := h' t ht
    exact ⟨n + m, t', (steps_add hsteps).trans hsteps', hend⟩

theorem mono (h : Reaches u P s) (hPQ : ∀ t, P t → Q t) : Reaches u Q s := h.trans fun t ht => here (hPQ t ht)

end Reaches

/-- A step takes the first move of the scheduled list and keeps the requests of unit `u`, unless the unit is halted. -/
theorem step_takes_move (u : MauUnit) {s : State} {m : Move} {rest : List Move} (h : s.scheduled.env = m :: rest) :
    Halted u s ∨ ∃ t, step s = .next t ∧ t.env = rest ∧
      (t.queueOf u = [] ∨ KeepsRequests (s.queueOf u) (t.queueOf u)) := by
  have hstep := step_of_scheduled h
  rcases hmove : takeMove m (s.scheduled.setEnv rest) with t | f | x
  · have hqueue := takeMove_queuesEvolve hmove u
    rw [queueOf_scheduled_setEnv] at hqueue
    exact .inr ⟨t, hstep.trans hmove, takeMove_env hmove, hqueue⟩
  · have hrun : s.run = .faulted f := by
      obtain ⟨l, n, hsched⟩ := scheduled_frame s
      have := takeMove_fault hmove
      rwa [hsched] at this
    exact .inl (.inr (.inl ⟨f, hrun⟩))
  · exact .inl (.inr (.inr ⟨x, hstep.trans hmove⟩))

/-- `step_takes_move` as the first step of a run. -/
theorem reaches_of_move {u : MauUnit} {P : State → Prop} {s : State} {m : Move} {rest : List Move}
    (h : s.scheduled.env = m :: rest)
    (hnext : ∀ t, step s = .next t → t.env = rest → KeepsRequests (s.queueOf u) (t.queueOf u) → Reaches u P t) :
    Reaches u P s := by
  rcases step_takes_move u h with hhalted | ⟨t, hstep, henv, hempty | hkeeps⟩
  · exact .of_halted hhalted
  · exact .of_step hstep (.of_halted (.inl hempty))
  · exact .of_step hstep (hnext t hstep henv hkeeps)

/-- The list of moves runs out. -/
theorem reaches_env_nil (u : MauUnit) (s : State) :
    Reaches u (fun t => t.env = [] ∧ KeepsRequests (s.queueOf u) (t.queueOf u)) s := by
  generalize henv : s.env = l
  induction l generalizing s with
  | nil => exact .here ⟨henv, .refl _⟩
  | cons m rest ih =>
    have hsched : s.scheduled.env = m :: rest := by rw [scheduled_cons henv, henv]
    refine reaches_of_move hsched fun t _ hrest hkeeps => ?_
    exact (ih t hrest).mono fun t' ⟨hnil, hkeeps'⟩ => ⟨hnil, hkeeps.trans hkeeps'⟩

/-- The unit's move for a request that the unit order lets be next leaves it performed. -/
theorem step_performs {s t : State} {u : MauUnit} {k : Nat} {rest : List Move}
    (h : s.scheduled.env = .mau u k :: rest) (hstep : step s = .next t) (hbelow : PerformedBelow (s.queueOf u) k)
    {r : Request} (hr : (s.queueOf u)[k]? = some r) (hkeeps : KeepsRequests (s.queueOf u) (t.queueOf u)) :
    PerformedBelow (t.queueOf u) (k + 1) := by
  cases hwaits : r.performed with
  | true => exact hkeeps.performedBelow (hbelow.succ hr hwaits)
  | false =>
    rw [step_of_scheduled h] at hstep
    injection hstep with hstep
    have hqueue := queueOf_scheduled_setEnv s rest u
    rw [← hqueue] at hr hbelow
    rw [mauPerform_eq_performRequest (hbelow.mayPerform hr hwaits _) hr] at hstep
    obtain ⟨r', hdone, hself, -⟩ := performRequest_queueOf hr
    rw [← hqueue] at hkeeps
    refine (hkeeps.performedBelow hbelow).succ ?_ hdone
    rw [← hstep, hself]
    exact List.getElem?_set_self (List.getElem?_eq_some_iff.mp hr).1

/-- A request whose move is listed, and that the unit order lets be next, is performed. -/
theorem reaches_performed_of_mem {u : MauUnit} {k : Nat} {s : State} (hmem : .mau u k ∈ s.scheduled.env)
    (hbelow : PerformedBelow (s.queueOf u) k) (hk : k < (s.queueOf u).length) :
    Reaches u (fun t => KeepsRequests (s.queueOf u) (t.queueOf u) ∧ PerformedBelow (t.queueOf u) (k + 1)) s := by
  generalize henv : s.scheduled.env = l at hmem
  induction l generalizing s with
  | nil => cases hmem
  | cons m rest ih =>
    refine reaches_of_move henv fun t hstep hrest hkeeps => ?_
    have hr : (s.queueOf u)[k]? = some (s.queueOf u)[k] := List.getElem?_eq_getElem hk
    rcases List.mem_cons.mp hmem with rfl | hlater
    · exact .here ⟨hkeeps, step_performs henv hstep hbelow hr hkeeps⟩
    · obtain ⟨m', rest', hcons⟩ := List.exists_cons_of_ne_nil (List.ne_nil_of_mem hlater)
      have hsched : t.scheduled.env = rest := by rw [scheduled_cons (hrest.trans hcons), hrest]
      obtain ⟨r', hr', -⟩ := hkeeps k _ hr
      refine (ih (hkeeps.performedBelow hbelow) (List.getElem?_eq_some_iff.mp hr').1 hsched hlater).mono ?_
      exact fun t' ⟨hkeeps', hdone⟩ => ⟨hkeeps.trans hkeeps', hdone⟩

/-- With the list of moves empty, the plan names the oldest unperformed request (log 36). -/
theorem mau_mem_scheduled {s : State} {u : MauUnit} {k : Nat} {r : Request} (henv : s.env = [])
    (hr : (s.queueOf u)[k]? = some r) (hwaits : r.performed = false)
    (hmay : mayPerform s.params.mauOrder (s.queueOf u) k = true) : .mau u k ∈ s.scheduled.env := by
  have hmem := List.mem_of_getElem? hr
  rcases scheduled_cases s with ⟨-, hne | hdone⟩ | ⟨-, -, hsched⟩
  · exact absurd henv hne
  · simp [allPerformed_iff.mp hdone u r hmem] at hwaits
  · rw [hsched]
    exact mem_plan (mem_allUnits_of_mem hmem) hmay

/-- With the older requests performed, request `k` is performed in the end. -/
theorem reaches_performed_next {u : MauUnit} {k : Nat} {s : State} (hbelow : PerformedBelow (s.queueOf u) k)
    (hk : k < (s.queueOf u).length) :
    Reaches u (fun t => KeepsRequests (s.queueOf u) (t.queueOf u) ∧ PerformedBelow (t.queueOf u) (k + 1)) s := by
  refine (reaches_env_nil u s).trans fun t ⟨henv, hkeeps⟩ => ?_
  obtain ⟨r, hr, -⟩ := hkeeps k _ (List.getElem?_eq_getElem hk)
  have hbelow' := hkeeps.performedBelow hbelow
  cases hwaits : r.performed with
  | true => exact .here ⟨hkeeps, hbelow'.succ hr hwaits⟩
  | false =>
    have hmem := mau_mem_scheduled henv hr hwaits (hbelow'.mayPerform hr hwaits _)
    refine (reaches_performed_of_mem hmem hbelow' (List.getElem?_eq_some_iff.mp hr).1).mono ?_
    exact fun t' ⟨hkeeps', hdone⟩ => ⟨hkeeps.trans hkeeps', hdone⟩

/-- The requests of a queue are all performed in the end, the oldest first. -/
theorem reaches_performedBelow (u : MauUnit) (s : State) {k : Nat} (hk : k ≤ (s.queueOf u).length) :
    Reaches u (fun t => KeepsRequests (s.queueOf u) (t.queueOf u) ∧ PerformedBelow (t.queueOf u) k) s := by
  induction k with
  | zero => exact .here ⟨.refl _, fun j hj => absurd hj (Nat.not_lt_zero j)⟩
  | succ k ih =>
    refine (ih (Nat.le_of_succ_le hk)).trans fun t ⟨hkeeps, hbelow⟩ => ?_
    obtain ⟨r, hr, -⟩ := hkeeps k _ (List.getElem?_eq_getElem hk)
    refine (reaches_performed_next hbelow (List.getElem?_eq_some_iff.mp hr).1).mono ?_
    exact fun t' ⟨hkeeps', hdone⟩ => ⟨hkeeps.trans hkeeps', hdone⟩

/-- Settles O30: the unit's move is `performRequest`; every request is reached, the older ones first, by running the
list of moves out and then a plan, which names each request that may be performed. -/
theorem unitPerformsRequest : Obligations.UnitPerformsRequest := by
  refine ⟨fun s u k r rest hm henv hr hwaits hfifo => ?_, fun s u k r hr _ => ?_, fun s henv ⟨u, r, hr, hwaits⟩ => ?_⟩
  · have hmay : mayPerform s.params.mauOrder (s.queueOf u) k = true :=
      mayPerform_eq_true.mpr ⟨⟨r, hr, hwaits⟩, hfifo⟩
    have hperf := mauPerform_eq_performRequest (s := s.setEnv rest) hmay hr
    obtain ⟨-, -, -, -, -, -, -, -, hrest, -⟩ := performRequest_frame (s.setEnv rest) u k r
    exact ⟨_, by rw [step_of_mau henv, hperf], performRequest_performsRequest (s := s.setEnv rest) hm hr, hrest⟩
  · obtain ⟨n, t, hsteps, hend⟩ := reaches_performedBelow u s (List.getElem?_eq_some_iff.mp hr).1
    refine ⟨n, t, hsteps, ?_⟩
    rcases hend with (hempty | hfaulted | hrefused) | ⟨-, hbelow⟩
    · exact .inl hempty
    · exact .inr (.inr (.inl hfaulted))
    · exact .inr (.inr (.inr hrefused))
    · exact .inr (.inl (hbelow k (Nat.lt_succ_self k)))
  · have hnot : s.allPerformed = false := by
      rw [← Bool.not_eq_true, allPerformed_iff]
      exact fun hdone => by simp [hdone u r hr] at hwaits
    rcases scheduled_cases s with ⟨-, hne | hdone⟩ | ⟨-, -, hsched⟩
    · exact absurd henv hne
    · simp [hnot] at hdone
    · refine ⟨s.plan, s.frees + s.plan.length, plan_ne_nil hnot, ?_, fun m hm => plan_moves hm,
        fun v k r' hr' hwaits' hfifo => ?_⟩
      · rw [← hsched]
        exact (nextMove_scheduled s).symm
      · exact mem_plan (mem_allUnits_of_mem (List.mem_of_getElem? hr'))
          (mayPerform_eq_true.mpr ⟨⟨r', hr', hwaits'⟩, hfifo⟩)

/-! ## `COMMIT` and `DISCARD` (R63, R65) -/

/-- While a `COMMIT` is held, some request that it waits for may be performed. -/
theorem performable_ne_nil {s : State} (h : s.commitReady = false) : s.performable ≠ [] := by
  obtain ⟨u, hu, r, hr, hwaits⟩ := commitReady_eq_false.mp h
  obtain ⟨k, hk⟩ := List.mem_iff_getElem?.mp hr
  obtain ⟨j, -, hj⟩ := exists_mayPerform s.params.mauOrder hk hwaits
  exact List.ne_nil_of_mem (mem_performableOf.mpr ⟨hu, hj⟩)

/-- Settles O28: a held `COMMIT` is `performOne`, which picks a request that may be performed. -/
theorem heldCommitPerformsOneRequest : Obligations.HeldCommitPerformsOneRequest := by
  intro s hm hwaiting
  have hheld : s.commitReady = false := commitReady_eq_false.mpr hwaiting
  have hexec : exec .commit s = .next (performOne s) := if_neg (by simp [hheld])
  rcases performOne_cases s with ⟨hnil, -⟩ | ⟨u, k, n, hmem, hperf⟩
  · exact absurd hnil (performable_ne_nil hheld)
  · obtain ⟨hu, hmay⟩ := mem_performable hmem
    obtain ⟨⟨r, hr, hwaits⟩, hfifo⟩ := mayPerform_eq_true.mp hmay
    refine ⟨_, u, k, r, hexec, hu, hr, hwaits, ?_, hfifo⟩
    rw [hperf, mauPerform_eq_performRequest hmay hr]
    exact performRequest_performsRequest hm hr

theorem exists_slice_of_mem_enabledIds {s : State} {i : Nat} (h : i ∈ s.enabledIds) :
    ∃ sl, s.slices[i]? = some sl ∧ sl.en = true := by
  have henabled := mem_enabledIds.mp h
  have hsl := List.getElem?_eq_getElem (lt_of_enabledAt henabled)
  exact ⟨_, hsl, (enabledAt_of_getElem? hsl).symm.trans henabled⟩

/-- The concerned units have emptied their queues (R63, R65). -/
theorem isPending_of_emptied {s t : State} (hgmau : t.gmau = [])
    (hslices : EachSlice (fun _ sl sl' => sl.en = true → sl'.queue = []) s t) (n : RegNum) :
    t.isPending (.global n) = false ∧ ∀ i ∈ s.enabledIds, t.isPending (.slice i n) = false := by
  refine ⟨by rw [State.isPending, hgmau]; rfl, fun i hi => ?_⟩
  obtain ⟨hlen, hempty⟩ := hslices
  obtain ⟨sl, hsl, hen⟩ := exists_slice_of_mem_enabledIds hi
  have hsl' := List.getElem?_eq_getElem (hlen.symm ▸ (List.getElem?_eq_some_iff.mp hsl).1)
  rw [State.isPending, queueOf_of_getElem? hsl', hempty i _ _ hsl hsl' hen]
  rfl

/-- Delivery writes no register but the destinations of the queued loads. -/
theorem deliver_of_not_mem {q : List Request} {n : RegNum} (h : n ∉ destsOf q) (rf : RegFile) :
    (deliver q rf).get n = rf.get n ∧ (deliver q rf).holds n = rf.holds n := by
  induction q generalizing rf with
  | nil => exact ⟨rfl, rfl⟩
  | cons r q ih =>
    cases r with
    | store a v done => exact ih h rf
    | load m a data =>
      obtain ⟨hne, hrest⟩ : n ≠ m ∧ n ∉ destsOf q := by simpa [destsOf, Request.dest] using h
      cases data with
      | none => exact ih hrest rf
      | some v =>
        obtain ⟨hget, hholds⟩ := ih hrest (rf.set m v)
        exact ⟨hget.trans (rf.get_set_other v hne), hholds.trans (rf.holds_set_other v hne)⟩

/-- With one load for each destination, delivery gives each its data, in whatever order. -/
theorem deliver_of_mem {q : List Request} (hnodup : (destsOf q).Nodup) {n : RegNum} {a v : Word}
    (h : Request.load n a (some v) ∈ q) (rf : RegFile) :
    (deliver q rf).get n = v ∧ (deliver q rf).holds n = true := by
  induction q generalizing rf with
  | nil => cases h
  | cons r q ih =>
    cases List.mem_cons.mp h with
    | inl hhead =>
      subst hhead
      have hfresh : n ∉ destsOf q := (List.nodup_cons.mp hnodup).1
      obtain ⟨hget, hholds⟩ := deliver_of_not_mem hfresh (rf.set n v)
      exact ⟨hget.trans (rf.get_set_same n v), hholds.trans (rf.holds_set_same n v)⟩
    | inr hlater =>
      have hrest : (destsOf q).Nodup := hnodup.sublist ((List.sublist_cons_self r q).filterMap _)
      cases r with
      | store => exact ih hrest hlater rf
      | load m b data => cases data <;> exact ih hrest hlater _

theorem deliver_delivered {q : List Request} (h : (destsOf q).Nodup) (rf : RegFile) : Delivered q rf (deliver q rf) :=
  ⟨fun _ _ _ hmem => deliver_of_mem h hmem rf, fun _ hn => deliver_of_not_mem hn rf⟩

/-- Settles O27: with its hold lifted, `COMMIT` is `deliverAll`. -/
theorem commitDelivers : Obligations.CommitDelivers := by
  intro s hperformed hgmau hslices
  have hexec : exec .commit s = .next (deliverAll s).advance := if_pos (commitReady_eq_true.mpr hperformed)
  refine ⟨_, hexec, rfl, ⟨rfl, rfl, rfl, rfl, rfl, rfl, rfl, fun _ => rfl⟩, rfl, deliver_delivered hgmau _, ?_, ?_⟩
  · refine eachSlice_updateEnabled rfl fun i sl hsl => ?_
    split
    · exact ⟨rfl, rfl, rfl, rfl, deliver_delivered (hslices sl (List.mem_of_getElem? hsl)) _⟩
    · rfl
  · exact isPending_of_emptied rfl (eachSlice_updateEnabled rfl fun _ _ _ hen => by rw [if_pos hen]; rfl)

/-- Where every enabled slice's queue is empty, emptying them changes no slice. -/
theorem updateEnabled_setQueue_nil {s : State} (h : ∀ i ∈ s.enabledIds, s.queueOf (.smau i) = []) :
    updateEnabled (fun _ sl => sl.setQueue []) s.slices = s.slices := by
  refine List.ext_getElem? fun i => ?_
  rw [updateEnabled_getElem?]
  cases hsl : s.slices[i]? with
  | none => rfl
  | some sl =>
    rw [Option.map_some]
    split
    · rename_i hen
      have hempty := h i (mem_enabledIds.mpr ((enabledAt_of_getElem? hsl).trans hen))
      rw [queueOf_of_getElem? hsl] at hempty
      rw [← hempty]
      rfl
    · rfl

/-- Settles O29: the queues of the concerned units are set to `[]`, which is no change where they are empty. -/
theorem discardClearsQueues : Obligations.DiscardClearsQueues := by
  refine ⟨by decide, by decide, fun s => ⟨_, rfl, rfl, ⟨rfl, rfl, rfl, rfl, rfl, rfl, rfl, fun _ => rfl⟩, rfl, rfl,
    eachSlice_updateEnabled rfl fun i sl _ => ?_, ?_, fun hgmau hempty => ?_⟩⟩
  · split <;> exact ⟨⟨rfl, rfl, rfl, rfl⟩, rfl⟩
  · exact isPending_of_emptied rfl (eachSlice_updateEnabled rfl fun _ _ _ hen => by rw [if_pos hen]; rfl)
  · calc ((s.setGmau []).setSlices (updateEnabled (fun _ sl => sl.setQueue []) s.slices)).advance
        = ((s.setGmau s.gmau).setSlices s.slices).advance := by rw [updateEnabled_setQueue_nil hempty, hgmau]
      _ = s.setIp (s.ip + 4#32) := rfl

/-! ## `LD` and `ST`: the checks (R253 steps 5, 7 and 8) -/

/-- With the register checks passed, a memory instruction's answer rests on its addresses and its queues. -/
theorem checked_of_listReady {s after : State} {named : List RegRef} {reads : List ReadRef} {addrs room : Option Fault}
    (h : ListReady s named reads) :
    checked ((((pendingFault s named).or (unwrittenFault s reads)).or addrs).or room) after =
      checked (addrs.or room) after := by
  rw [registerChecks_eq_none.mpr h, Option.none_or]

theorem overflowFault_of_queueRoom {s : State} {us : List MauUnit} (h : QueueRoom s us) : overflowFault s us = none :=
  overflowFault_eq_none.mpr fun depth hdepth u hu => h u hu depth hdepth

/-- The checks of a load after those of its registers pass. -/
theorem loadChecks_eq_none {s : State} {as : List Word} {us : List MauUnit} (haddrs : ∀ a ∈ as, LoadAddress s a)
    (hroom : QueueRoom s us) : (dataFaults s as).or (overflowFault s us) = none := by
  rw [dataFaults_eq_none.mpr haddrs, overflowFault_of_queueRoom hroom, Option.none_or]

/-- The checks of a store after those of its registers pass. -/
theorem storeChecks_eq_none {s : State} {as : List Word} {us : List MauUnit} (haddrs : ∀ a ∈ as, StoreAddress s a)
    (hroom : QueueRoom s us) : (storeFaults s as).or (overflowFault s us) = none := by
  rw [storeFaults_eq_none.mpr haddrs, overflowFault_of_queueRoom hroom, Option.none_or]

theorem faultsUnless_of_memoryChecks {i : Instr} {s after : State} {named : List RegRef} {reads : List ReadRef}
    {addrs room : Option Fault}
    (h : exec i s = checked ((((pendingFault s named).or (unwrittenFault s reads)).or addrs).or room) after) :
    FaultsUnless i s named reads := faultsUnless_of_checked (h.trans (congrArg (checked · after) Option.or_assoc))

/-- What `LD` answers once its register checks pass. -/
theorem exec_ld_of_ready {s : State} {g : RegSet} {d rs : RegNum} (h : RegsReady s g [d, rs] [rs]) :
    exec (.ld g d rs) s = checked ((dataFaults s (formAddrs s g rs)).or (overflowFault s (formUnits s g)))
      (enqueue s g (fun sl => .load d (sl.regs.get rs) none) (.load d (s.globals.get rs) none)).advance :=
  checked_of_listReady h

/-- The data that a slice form of `ST` captures (R61, R130). -/
def storeData (s : State) (gs : RegSet) (rs : RegNum) (sl : Slice) : Word :=
  match gs with
  | .slice => sl.regs.get rs
  | .global => s.globals.get rs

theorem storeData_eq_readReg {s : State} {gs : RegSet} {rs : RegNum} {i : Nat} {sl : Slice}
    (hsl : s.slices[i]? = some sl) : storeData s gs rs sl = s.readReg gs i rs := by
  cases gs with
  | slice => rw [State.readReg, sliceRegs_of_getElem? hsl, storeData]
  | global => rfl

/-- The slice forms of `ST` are one instruction over the set of the data register. -/
theorem exec_st_slice (s : State) (gs : RegSet) (d rs : RegNum) :
    exec (.st .slice gs d rs) s = checked
      ((((pendingFault s (s.enabledIds.flatMap fun i => [.slice i d, regRef gs i rs])).or
        (unwrittenFault s (s.enabledIds.flatMap fun i => [.reg (.slice i d), .reg (regRef gs i rs)]))).or
        (storeFaults s (formAddrs s .slice d))).or (overflowFault s (formUnits s .slice)))
      (enqueue s .slice (fun sl => .store (sl.regs.get d) (storeData s gs rs sl) false)
        (.store 0#32 0#32 false)).advance := by
  cases gs with
  | slice =>
    have hreads : (concernedRegs s .slice [d, rs]).map ReadRef.reg =
        s.enabledIds.flatMap fun i => [.reg (.slice i d), .reg (regRef .slice i rs)] := List.map_flatMap ..
    rw [← hreads]
    rfl
  | global => rfl

theorem exec_st_slice_of_ready {s : State} {gs : RegSet} {d rs : RegNum}
    (h : ListReady s (s.enabledIds.flatMap fun i => [.slice i d, regRef gs i rs])
      (s.enabledIds.flatMap fun i => [.reg (.slice i d), .reg (regRef gs i rs)])) :
    exec (.st .slice gs d rs) s =
      checked ((storeFaults s (formAddrs s .slice d)).or (overflowFault s (formUnits s .slice)))
        (enqueue s .slice (fun sl => .store (sl.regs.get d) (storeData s gs rs sl) false)
          (.store 0#32 0#32 false)).advance :=
  (exec_st_slice s gs d rs).trans (checked_of_listReady h)

theorem exec_st_global_of_ready {s : State} {d rs : RegNum} (h : RegsReady s .global [d, rs] [d, rs]) :
    exec (.st .global .global d rs) s =
      checked ((storeFaults s (formAddrs s .global d)).or (overflowFault s (formUnits s .global)))
        (enqueue s .global (fun _ => .store 0#32 0#32 false)
          (.store (s.globals.get d) (s.globals.get rs) false)).advance := checked_of_listReady h

/-! ## `LD` and `ST`: a request joins each queue (R61) -/

theorem forall_mem_formAddrs_slice {s : State} {n : RegNum} {P : Word → Prop}
    (h : ∀ i ∈ s.enabledIds, P ((s.sliceRegs i).get n)) : ∀ a ∈ formAddrs s .slice n, P a :=
  List.forall_mem_map.mpr h

theorem forall_mem_formAddrs_global {s : State} {n : RegNum} {P : Word → Prop} (h : P (s.globals.get n)) :
    ∀ a ∈ formAddrs s .global n, P a := List.forall_mem_singleton.mpr h

/-- A slice form queues one request for each enabled slice's SMAU and changes nothing else of a slice. -/
theorem enqueue_eachSlice {s : State} {f : Slice → Request} {r : Request} {F : Nat → Slice → Request}
    (h : ∀ i sl, s.slices[i]? = some sl → f sl = F i sl) :
    EachSlice (fun i sl sl' => OnlyQueue sl sl' ∧
      sl'.queue = if sl.en then sl.queue ++ [F i sl] else sl.queue) s (enqueue s .slice f r).advance := by
  refine eachSlice_updateEnabled rfl fun i sl hsl => ?_
  rw [← h i sl hsl]
  split <;> exact ⟨⟨rfl, rfl, rfl, rfl⟩, rfl⟩

theorem queueOf_enqueue {s : State} {f : Slice → Request} {r : Request} {i : Nat} {sl : Slice}
    (hsl : s.slices[i]? = some sl) (hen : sl.en = true) :
    (enqueue s .slice f r).advance.queueOf (.smau i) = sl.queue ++ [f sl] := by
  refine queueOf_of_getElem? (sl := sl.setQueue (sl.queue ++ [f sl])) ((updateEnabled_getElem? _ _ i).trans ?_)
  rw [hsl, Option.map_some, if_pos hen]

/-- Queueing is no matter of the machine outside the queues (R61). -/
theorem enqueue_sameMachine (s : State) (g : RegSet) (f : Slice → Request) (r : Request) :
    SameMachine s (enqueue s g f r).advance := by
  cases g <;> exact ⟨rfl, rfl, rfl, rfl, rfl, rfl, rfl, fun _ => rfl⟩

/-- The destination of a queued load is pending (R36). -/
theorem pendingIn_append_load (q : List Request) (d : RegNum) (a : Word) (data : Option Word) :
    pendingIn (q ++ [.load d a data]) d = true := by simp [pendingIn]

/-- Settles O24: the checks pass and `LD` enqueues. -/
theorem ldQueuesLoads : Obligations.LdQueuesLoads := by
  refine fun s d rs => ⟨fun hready haddrs hroom => ?_, fun hready haddr hroom => ?_,
    fun g => faultsUnless_of_memoryChecks rfl⟩
  · refine ⟨_, (exec_ld_of_ready hready).trans (checked_eq_next.mpr
      ⟨loadChecks_eq_none (forall_mem_formAddrs_slice haddrs) hroom, rfl⟩), rfl, enqueue_sameMachine ..,
      rfl, rfl, enqueue_eachSlice fun _ _ _ => rfl, fun i hi => ?_⟩
    obtain ⟨sl, hsl, hen⟩ := exists_slice_of_mem_enabledIds hi
    rw [State.isPending, queueOf_enqueue hsl hen]
    exact pendingIn_append_load sl.queue d _ none
  · exact ⟨_, (exec_ld_of_ready hready).trans (checked_eq_next.mpr
      ⟨loadChecks_eq_none (forall_mem_formAddrs_global haddr) hroom, rfl⟩), rfl, enqueue_sameMachine ..,
      rfl, rfl, rfl, pendingIn_append_load _ d _ none⟩

/-- Settles O25: the checks pass and `ST` enqueues. -/
theorem stQueuesStores : Obligations.StQueuesStores := by
  refine fun s d rs => ⟨fun gs hready haddrs hroom => ?_, fun hready haddr hroom => ?_,
    fun gs => faultsUnless_of_memoryChecks (exec_st_slice s gs d rs), faultsUnless_of_memoryChecks rfl⟩
  · exact ⟨_, (exec_st_slice_of_ready hready).trans (checked_eq_next.mpr
      ⟨storeChecks_eq_none (forall_mem_formAddrs_slice haddrs) hroom, rfl⟩), rfl, enqueue_sameMachine .., rfl, rfl,
      enqueue_eachSlice fun i sl hsl => by rw [storeData_eq_readReg hsl]⟩
  · exact ⟨_, (exec_st_global_of_ready hready).trans (checked_eq_next.mpr
      ⟨storeChecks_eq_none (forall_mem_formAddrs_global haddr) hroom, rfl⟩), rfl, enqueue_sameMachine ..,
      rfl, rfl, rfl⟩

/-! ## The address and queue faults, in order (R253 steps 7 and 8) -/

theorem dataFault_of_misaligned {s : State} {a : Word} (h : a.toNat % 4 ≠ 0) :
    dataFault s a = some (.misalignedAccess a) := if_neg fun hlow => h (lowBits_eq_zero.mp hlow)

theorem dataFault_of_not_admitted {s : State} {a : Word} (h : a.toNat % 4 = 0) (hadmit : s.admits a = false) :
    dataFault s a = some (.accessFault a) := by
  rw [dataFault, if_pos (lowBits_eq_zero.mpr h), hadmit]
  rfl

theorem dataFault_of_loadAddress {s : State} {a : Word} (h : LoadAddress s a) : dataFault s a = none :=
  dataFault_eq_none.mpr ⟨lowBits_eq_zero.mpr h.1, h.2⟩

theorem storeFault_of_dataFault {s : State} {a : Word} {f : Fault} (h : dataFault s a = some f) :
    storeFault s a = some f := by rw [storeFault, h, Option.some_or]

theorem storeFault_of_inImage {s : State} {a : Word} (h : LoadAddress s a) (himage : s.inImage a = true) :
    storeFault s a = some (.codeWrite a) := by
  rw [storeFault, dataFault_of_loadAddress h, Option.none_or, if_pos himage]

theorem storeFault_of_storeAddress {s : State} {a : Word} (h : StoreAddress s a) : storeFault s a = none := by
  obtain ⟨hload, himage⟩ := h
  rw [storeFault, dataFault_of_loadAddress hload, himage]
  rfl

/-- In a rising list the answer is that of the least member that has one. -/
theorem findSome?_of_lowest {α : Type} {f : Nat → Option α} {x : Nat} {a : α} {l : List Nat}
    (hrising : l.Pairwise (· < ·)) (hx : x ∈ l) (ha : f x = some a) (hlow : ∀ y ∈ l, y < x → f y = none) :
    l.findSome? f = some a := by
  obtain ⟨before, after, rfl⟩ := List.append_of_mem hx
  obtain ⟨-, -, hbefore⟩ := List.pairwise_append.mp hrising
  exact List.findSome?_eq_some_iff.mpr ⟨before, x, after, rfl, ha, fun y hy =>
    hlow y (List.mem_append_left _ hy) (hbefore y hy x List.mem_cons_self)⟩

/-- A slice form reports the failing address of the lowest enabled slice. -/
theorem findSome?_formAddrs {s : State} {fault : Word → Option Fault} {n : RegNum} {k : Nat} {sl : Slice} {f : Fault}
    (hsl : s.slices[k]? = some sl) (hen : sl.en = true) (hf : fault (sl.regs.get n) = some f)
    (hlow : ∀ j ∈ s.enabledIds, j < k → fault ((s.sliceRegs j).get n) = none) :
    (formAddrs s .slice n).findSome? fault = some f := by
  have hk : k ∈ s.enabledIds := mem_enabledIds.mpr ((enabledAt_of_getElem? hsl).trans hen)
  rw [formAddrs, List.findSome?_map]
  refine findSome?_of_lowest (enabledIds_rising s) hk ?_ hlow
  rw [Function.comp_apply, State.readReg, sliceRegs_of_getElem? hsl, hf]

theorem findSome?_formAddrs_global {s : State} {fault : Word → Option Fault} {n : RegNum} {f : Fault}
    (hf : fault (s.globals.get n) = some f) : (formAddrs s .global n).findSome? fault = some f := by
  rw [formAddrs, List.findSome?_cons, hf]

/-- A slice form reports the full queue of the lowest enabled slice (R66). -/
theorem overflowFault_slice {s : State} {k depth : Nat} {sl : Slice} (hsl : s.slices[k]? = some sl)
    (hen : sl.en = true) (hdepth : s.params.mauDepth = some depth) (hfull : depth ≤ sl.queue.length)
    (hlow : ∀ j ∈ s.enabledIds, j < k → (s.queueOf (.smau j)).length < depth) :
    overflowFault s (formUnits s .slice) = some (.queueOverflow (.smau k)) := by
  have hk : k ∈ s.enabledIds := mem_enabledIds.mpr ((enabledAt_of_getElem? hsl).trans hen)
  have hfind : s.enabledIds.find? ((fun u => decide (depth ≤ (s.queueOf u).length)) ∘ MauUnit.smau) = some k := by
    refine find?_of_lowest (enabledIds_rising s) hk ?_ fun j hj hlt => ?_
    · rw [Function.comp_apply, queueOf_of_getElem? hsl, decide_eq_true hfull]
    · exact decide_eq_false (Nat.not_le.mpr (hlow j hj hlt))
  simp only [overflowFault, hdepth, formUnits, List.find?_map, hfind, Option.map_some]

theorem overflowFault_gmau {s : State} {depth : Nat} (hdepth : s.params.mauDepth = some depth)
    (hfull : depth ≤ s.gmau.length) : overflowFault s (formUnits s .global) = some (.queueOverflow .gmau) := by
  simp [overflowFault, hdepth, formUnits, State.queueOf, hfull]

/-- The address check's fault, whatever the queues are. -/
theorem checked_of_addressFault {addrs room : Option Fault} {after : State} {f : Fault} (h : addrs = some f) :
    checked (addrs.or room) after = .fault f := by
  rw [h, Option.some_or]
  rfl

/-- The queue check's fault, all addresses being good. -/
theorem checked_of_roomFault {addrs room : Option Fault} {after : State} {f : Fault} (haddrs : addrs = none)
    (hroom : room = some f) : checked (addrs.or room) after = .fault f := by
  rw [haddrs, hroom]
  rfl

/-- Settles O26: after passed register checks the answer is the first failing address check, else the first full
queue. -/
theorem addressFaultsInOrder : Obligations.AddressFaultsInOrder := by
  refine ⟨fun s d rs k sl hsl hen => ⟨fun hready hbefore => ?_, fun gs hready hbefore => ?_⟩,
    fun s d rs => ⟨fun hready => ?_, fun hready => ?_⟩⟩
  · have hlow : ∀ j ∈ s.enabledIds, j < k → dataFault s ((s.sliceRegs j).get rs) = none :=
      fun j hj hlt => dataFault_of_loadAddress (hbefore j hj hlt)
    rw [exec_ld_of_ready hready]
    refine ⟨fun hmis => ?_, fun halign hadmit => ?_, fun haddrs depth hdepth hfull hroom => ?_⟩
    · exact checked_of_addressFault (findSome?_formAddrs hsl hen (dataFault_of_misaligned hmis) hlow)
    · exact checked_of_addressFault (findSome?_formAddrs hsl hen (dataFault_of_not_admitted halign hadmit) hlow)
    · exact checked_of_roomFault (dataFaults_eq_none.mpr (forall_mem_formAddrs_slice haddrs))
        (overflowFault_slice hsl hen hdepth hfull hroom)
  · have hlow : ∀ j ∈ s.enabledIds, j < k → storeFault s ((s.sliceRegs j).get d) = none :=
      fun j hj hlt => storeFault_of_storeAddress (hbefore j hj hlt)
    rw [exec_st_slice_of_ready hready]
    refine ⟨fun hmis => ?_, fun halign hadmit => ?_, fun hload himage => ?_,
      fun haddrs depth hdepth hfull hroom => ?_⟩
    · exact checked_of_addressFault
        (findSome?_formAddrs hsl hen (storeFault_of_dataFault (dataFault_of_misaligned hmis)) hlow)
    · exact checked_of_addressFault
        (findSome?_formAddrs hsl hen (storeFault_of_dataFault (dataFault_of_not_admitted halign hadmit)) hlow)
    · exact checked_of_addressFault (findSome?_formAddrs hsl hen (storeFault_of_inImage hload himage) hlow)
    · exact checked_of_roomFault (storeFaults_eq_none.mpr (forall_mem_formAddrs_slice haddrs))
        (overflowFault_slice hsl hen hdepth hfull hroom)
  · rw [exec_ld_of_ready hready]
    refine ⟨fun hmis => ?_, fun halign hadmit => ?_, fun haddr depth hdepth hfull => ?_⟩
    · exact checked_of_addressFault (findSome?_formAddrs_global (dataFault_of_misaligned hmis))
    · exact checked_of_addressFault (findSome?_formAddrs_global (dataFault_of_not_admitted halign hadmit))
    · exact checked_of_roomFault (dataFaults_eq_none.mpr (forall_mem_formAddrs_global haddr))
        (overflowFault_gmau hdepth hfull)
  · rw [exec_st_global_of_ready hready]
    refine ⟨fun hmis => ?_, fun halign hadmit => ?_, fun hload himage => ?_, fun haddr depth hdepth hfull => ?_⟩
    · exact checked_of_addressFault
        (findSome?_formAddrs_global (storeFault_of_dataFault (dataFault_of_misaligned hmis)))
    · exact checked_of_addressFault
        (findSome?_formAddrs_global (storeFault_of_dataFault (dataFault_of_not_admitted halign hadmit)))
    · exact checked_of_addressFault (findSome?_formAddrs_global (storeFault_of_inImage hload himage))
    · exact checked_of_roomFault (storeFaults_eq_none.mpr (forall_mem_formAddrs_global haddr))
        (overflowFault_gmau hdepth hfull)

/-! ## The fetch (R58) and the turn of the core -/

theorem fetch_of_getElem? {s : State} {k : Nat} {w : Word} (hw : s.image[k]? = some w)
    (hip : s.ip.toNat = s.imageBase.toNat + 4 * k) : s.fetch = some w := by
  have hk : k < s.image.length := (List.getElem?_eq_some_iff.mp hw).1
  have hin : s.inImage s.ip = true := by
    rw [State.inImage, Bool.and_eq_true, decide_eq_true_iff, decide_eq_true_iff]
    omega
  have hindex : (s.ip.toNat - s.imageBase.toNat) / 4 = k := by omega
  rw [State.fetch, State.imageWord, if_pos hin, hindex, hw]

theorem fetch_of_outside {s : State}
    (h : s.ip.toNat < s.imageBase.toNat ∨ s.imageBase.toNat + 4 * s.image.length ≤ s.ip.toNat) : s.fetch = none := by
  have hout : ¬ s.inImage s.ip = true := by
    rw [State.inImage, Bool.and_eq_true, decide_eq_true_iff, decide_eq_true_iff]
    omega
  rw [State.fetch, State.imageWord, if_neg hout]

theorem coreTurn_of_running {s : State} (h : s.run = .running) : coreTurn s = runCore s := by rw [coreTurn, h]

theorem runCore_of_no_fetch {s : State} (h : s.fetch = none) : runCore s = .next (takeFault (.fetchFault s.ip) s) := by
  rw [runCore, h]

theorem runCore_of_illegal {s : State} {w : Word} {e : DecodeError} (h : s.fetch = some w)
    (hdecode : s.decode w = .error e) : runCore s = .next (takeFault (.illegalInstruction s.ip w) s) := by
  simp only [runCore, h, hdecode]

theorem runCore_of_decode {s : State} {w : Word} {i : Instr} (h : s.fetch = some w) (hdecode : s.decode w = .ok i) :
    runCore s = settle s (exec i s) := by
  simp only [runCore, h, hdecode]

/-- The next move being the core's, the step of a running task is `runCore`. -/
theorem step_of_running {s : State} {rest : List Move} (hrun : s.run = .running) (hcore : CoreMoves s rest) :
    step s = runCore (s.setEnv rest) := (step_of_coreMoves hcore).trans (coreTurn_of_running hrun)

/-- Settles O5: fetch, decode, run and settle, in the order of R253. -/
theorem stepRunsDecodedInstruction : Obligations.StepRunsDecodedInstruction := by
  intro s e k w i hrun hcore hw hip hdecode
  rw [step_of_running hrun hcore, runCore_of_decode (s := s.setEnv e) (fetch_of_getElem? hw hip) hdecode]
  cases exec i (s.setEnv e) <;> rfl

/-- Settles O6: the fetch or the decoder finds nothing. -/
theorem fetchAndDecodeFaults : Obligations.FetchAndDecodeFaults := by
  intro s rest hrun hcore
  rw [step_of_running hrun hcore]
  exact ⟨fun hout => runCore_of_no_fetch (fetch_of_outside hout),
    fun k w e hw hip hdecode => runCore_of_illegal (fetch_of_getElem? hw hip) hdecode⟩

/-! ## The end of a good run (R72, R262) -/

/-- No host move completes a task (R258 to R261). -/
theorem hostMove_run {m : HostMove} {s : State} (h : (hostMove m s).run = .completed) : s.run = .completed := by
  cases m <;> dsimp only [hostMove] at h <;> split at h
  case start.isTrue | suspend.isTrue | resume.isTrue | stop.isTrue => cases h
  all_goals exact h

/-- A step that completes the task is a `SIG` that found every queue empty. -/
theorem StepEffect.goodEnd {next : Option Move} {s t : State} (h : StepEffect next s t) (hs : s.run ≠ .completed)
    (ht : t.run = .completed) : t.goodEnd = true := by
  cases h with
  | nothing => exact absurd ht hs
  | faults => cases ht
  | instruction hrun heff => exact heff.goodEnd hrun ht
  | performs hperf => exact absurd (hperf.run_eq.symm.trans ht) hs
  | host => exact absurd (hostMove_run ht) hs

/-- Bits `8k` to `8k + 7` of four bytes side by side are one of the bytes. -/
theorem extractLsb'_bytes (b : Nat → Byte) {k : Nat} (hk : k < 4) :
    (b 3 ++ b 2 ++ b 1 ++ b 0).extractLsb' (8 * k) 8 = b k := by
  apply BitVec.eq_of_getLsbD_eq
  intro i hi
  simp only [BitVec.getLsbD_extractLsb', BitVec.getLsbD_append, hi]
  rcases (by omega : k = 0 ∨ k = 1 ∨ k = 2 ∨ k = 3) with rfl | rfl | rfl | rfl <;> grind

/-- Byte `k` of four bytes joined is the `k`-th of them, in either order. -/
theorem byteOf_joinBytes (order : ByteOrder) (b : Nat → Byte) {k : Nat} (hk : k < 4) :
    byteOf order (joinBytes order (b 0) (b 1) (b 2) (b 3)) k = b k := by
  cases order with
  | little => exact extractLsb'_bytes b hk
  | big =>
    have hbyte := extractLsb'_bytes (fun j => b (3 - j)) (k := 3 - k) (by omega)
    rwa [Nat.sub_sub_self (Nat.le_of_lt_succ hk)] at hbyte

/-- Each byte of a word of memory is the byte at its address (R53). -/
theorem byteOf_readWord (order : ByteOrder) (m : Memory) (a : Word) {k : Nat} (hk : k < 4) :
    byteOf order (m.readWord order a) k = m.readByte (byteAddr a k) :=
  byteOf_joinBytes order (fun k => m.readByte (byteAddr a k)) hk

theorem byteAddr_of_word {a : Nat} (h : a < 2 ^ 32) : byteAddr (BitVec.ofNat 32 (a - a % 4)) (a % 4) = a := by
  simp only [byteAddr, BitVec.toNat_add, BitVec.toNat_ofNat]
  omega

theorem readMem_of_imageWord {s : State} {a : Word} (h : s.imageWord a = none) :
    s.readMem a = s.mem.readWord s.params.byteOrder a := by rw [State.readMem, h]

/-- Settles O58: the step is a `SIG`, and the host reads a word of memory byte by byte. -/
theorem completedTaskShowsMemory : Obligations.CompletedTaskShowsMemory := by
  intro s t hs hstep ht
  obtain ⟨l, n, heff⟩ := step_effect hstep
  refine ⟨heff.goodEnd hs ht, fun a => if_neg hs, fun a ha hout => ?_⟩
  have hword := readMem_of_imageWord (Option.eq_none_iff_forall_ne_some.mpr hout)
  rw [State.hostByte, if_pos ht, hword, byteOf_readWord _ _ _ (Nat.mod_lt a (by decide)), byteAddr_of_word ha]

end Sys2Proof.Machine

/-! # The encoding (O1, O2, O4) -/

namespace Sys2Proof

/-! ## Fields of a word (R81 to R83) -/

/-- A field of `m + n` bits is `x` above `y` when its upper `m` bits are `x` and its lower `n` bits are `y`. -/
theorem field_eq_append_iff (m n : Nat) {k s : Nat} {w : BitVec k} {x : BitVec m} {y : BitVec n} :
    w.extractLsb' s (m + n) = x ++ y ↔ w.extractLsb' (s + n) m = x ∧ w.extractLsb' s n = y := by
  rw [← BitVec.extractLsb'_append_extractLsb'_eq_extractLsb' rfl]
  constructor
  · intro h
    have hhigh := congrArg (BitVec.extractLsb' n m) h
    have hlow := congrArg (BitVec.extractLsb' 0 n) h
    rw [BitVec.extractLsb'_append_eq_left, BitVec.extractLsb'_append_eq_left] at hhigh
    rw [BitVec.extractLsb'_append_eq_right, BitVec.extractLsb'_append_eq_right] at hlow
    exact ⟨hhigh, hlow⟩
  · rintro ⟨rfl, rfl⟩
    rfl

/-! The codes of R91, R101, R110 and R163 name one value each. -/

@[simp] theorem eq_bitOfSet_iff {b : BitVec 1} {g : RegSet} : b = bitOfSet g ↔ setOfBit b = g := by
  revert b; cases g <;> decide

@[simp] theorem eq_bitOfDir_iff {b : BitVec 1} {dir : MoveDir} : b = bitOfDir dir ↔ dirOfBit b = dir := by
  revert b; cases dir <;> decide

@[simp] theorem eq_codeOfImmType_iff {c : BitVec 3} {ty : ImmType} :
    c = codeOfImmType ty ↔ immTypeOfCode c = some ty := by
  revert c; cases ty <;> decide

@[simp] theorem eq_codeOfCond_iff {c : BitVec 3} {cond : Cond} : c = codeOfCond cond ↔ condOfCode c = cond := by
  revert c; cases cond <;> decide

@[simp] theorem eq_ofBool_iff {b : BitVec 1} {n : Bool} : b = BitVec.ofBool n ↔ (b == 1#1) = n := by
  revert b; cases n <;> decide

section Formats

variable {w : Word} {i : Instr} {g gd gs : RegSet} {d a b rs t x y : RegNum}

theorem low_eq_paramsTST_iff {n : Bool} {c : Cond} : w.extractLsb' 0 23 = paramsTST g n c a b ↔
    fieldSet w = g ∧ (w.extractLsb' 21 1 == 1#1) = n ∧ condOfCode (w.extractLsb' 18 3) = c ∧
      w.extractLsb' 12 6 = 0#6 ∧ fieldA w = a ∧ fieldB w = b := by
  simp [paramsTST, field_eq_append_iff 17 6, field_eq_append_iff 11 6, field_eq_append_iff 5 6,
    field_eq_append_iff 2 3, field_eq_append_iff 1 1, fieldSet, fieldA, fieldB, and_assoc]

theorem low_eq_paramsA2M_iff : w.extractLsb' 0 23 = paramsA2M gd gs d rs ↔
    fieldSet w = gd ∧ fieldSet2 w = gs ∧ w.extractLsb' 18 3 = 0#3 ∧ fieldD w = d ∧ fieldA w = rs ∧
      w.extractLsb' 0 6 = 0#6 := by
  simp [paramsA2M, field_eq_append_iff 17 6, field_eq_append_iff 11 6, field_eq_append_iff 5 6,
    field_eq_append_iff 2 3, field_eq_append_iff 1 1, fieldSet, fieldSet2, fieldD, fieldA, and_assoc]

theorem low_eq_paramsI12_iff {ty : ImmType} {imm : BitVec 12} : w.extractLsb' 0 23 = paramsI12 g ty d imm ↔
    fieldSet w = g ∧ immTypeOfCode (w.extractLsb' 19 3) = some ty ∧ w.extractLsb' 18 1 = 0#1 ∧ fieldD w = d ∧
      w.extractLsb' 0 12 = imm := by
  simp [paramsI12, field_eq_append_iff 11 12, field_eq_append_iff 5 6, field_eq_append_iff 4 1,
    field_eq_append_iff 1 3, fieldSet, fieldD, and_assoc]

theorem low_eq_paramsA3U_iff : w.extractLsb' 0 23 = paramsA3U g d a b ↔
    fieldSet w = g ∧ w.extractLsb' 18 4 = 0#4 ∧ fieldD w = d ∧ fieldA w = a ∧ fieldB w = b := by
  simp [paramsA3U, field_eq_append_iff 17 6, field_eq_append_iff 11 6, field_eq_append_iff 5 6,
    field_eq_append_iff 1 4, fieldSet, fieldD, fieldA, fieldB, and_assoc]

/-! ## What each format decodes (R86 to R100) -/

theorem ite_else_error_eq_ok {p : Prop} [Decidable p] {r : Except DecodeError Instr} {e : DecodeError} :
    (if p then r else .error e) = .ok i ↔ p ∧ r = .ok i := by
  split <;> simp [*]

theorem ite_then_error_eq_ok {p : Prop} [Decidable p] {r : Except DecodeError Instr} {e : DecodeError} :
    (if p then .error e else r) = .ok i ↔ ¬p ∧ r = .ok i := by
  split <;> simp [*]

theorem ifZero_eq_ok {zero : Bool} {j : Instr} : ifZero zero j = .ok i ↔ zero = true ∧ j = i := by
  rw [ifZero, ite_else_error_eq_ok, Except.ok.injEq]

theorem decodeZ_eq_ok {j : Instr} : decodeZ w j = .ok i ↔ w.extractLsb' 0 23 = 0#23 ∧ j = i := by
  rw [decodeZ, ifZero_eq_ok, beq_iff_eq]

theorem decodeA3U_eq_ok {mk : RegSet → RegNum → RegNum → RegNum → Instr} :
    decodeA3U w mk = .ok i ↔ ∃ g d a b, w.extractLsb' 0 23 = paramsA3U g d a b ∧ mk g d a b = i := by
  simp [decodeA3U, ifZero_eq_ok, low_eq_paramsA3U_iff, and_assoc]

theorem decodeA2U_eq_ok {mk : RegSet → RegNum → RegNum → Instr} :
    decodeA2U w mk = .ok i ↔ ∃ g d a, w.extractLsb' 0 23 = paramsA2U g d a ∧ mk g d a = i := by
  simp [decodeA2U, ifZero_eq_ok, paramsA2U, field_eq_append_iff 17 6, field_eq_append_iff 11 6,
    field_eq_append_iff 5 6, field_eq_append_iff 1 4, fieldSet, fieldD, fieldA, and_assoc]

theorem decodeA2M_eq_ok {mk : RegSet → RegSet → RegNum → RegNum → Instr} :
    decodeA2M w mk = .ok i ↔ ∃ gd gs d rs, w.extractLsb' 0 23 = paramsA2M gd gs d rs ∧ mk gd gs d rs = i := by
  simp [decodeA2M, ifZero_eq_ok, low_eq_paramsA2M_iff, and_assoc]

theorem decodeA2X_eq_ok {mk : MoveDir → RegNum → RegNum → Instr} :
    decodeA2X w mk = .ok i ↔ ∃ dir d rs, w.extractLsb' 0 23 = paramsA2X dir d rs ∧ mk dir d rs = i := by
  simp [decodeA2X, ifZero_eq_ok, paramsA2X, field_eq_append_iff 17 6, field_eq_append_iff 11 6,
    field_eq_append_iff 5 6, field_eq_append_iff 1 4, fieldD, fieldA, and_assoc]

theorem decodePCI_eq_ok {mk : RegSet → RegNum → BitVec 12 → Instr} :
    decodePCI w mk = .ok i ↔ ∃ g d imm, w.extractLsb' 0 23 = paramsPCI g d imm ∧ mk g d imm = i := by
  simp [decodePCI, ifZero_eq_ok, paramsPCI, field_eq_append_iff 11 12, field_eq_append_iff 5 6,
    field_eq_append_iff 1 4, fieldSet, fieldD, and_assoc]

theorem decodeA1D_eq_ok {mk : RegNum → Instr} :
    decodeA1D w mk = .ok i ↔ ∃ d, w.extractLsb' 0 23 = paramsA1D d ∧ mk d = i := by
  simp [decodeA1D, ifZero_eq_ok, paramsA1D, field_eq_append_iff 11 12, field_eq_append_iff 5 6, fieldD, and_assoc]

theorem decodeA1S_eq_ok {mk : RegNum → Instr} :
    decodeA1S w mk = .ok i ↔ ∃ rs, w.extractLsb' 0 23 = paramsA1S rs ∧ mk rs = i := by
  simp [decodeA1S, ifZero_eq_ok, paramsA1S, field_eq_append_iff 17 6, field_eq_append_iff 11 6, fieldA, and_assoc]

theorem decodeA3S_eq_ok {mk : RegNum → RegNum → RegNum → Instr} :
    decodeA3S w mk = .ok i ↔ ∃ d t f, w.extractLsb' 0 23 = paramsA3S d t f ∧ mk d t f = i := by
  simp [decodeA3S, ifZero_eq_ok, paramsA3S, field_eq_append_iff 17 6, field_eq_append_iff 11 6,
    field_eq_append_iff 5 6, fieldD, fieldA, fieldB, and_assoc]

theorem decodeB23_eq_ok {mk : BitVec 23 → Instr} : decodeB23 w mk = .ok i ↔ mk (w.extractLsb' 0 23) = i := by
  rw [decodeB23, Except.ok.injEq]

theorem decodeX_eq_ok {mk : BitVec 23 → Instr} : decodeX w mk = .ok i ↔ mk (w.extractLsb' 0 23) = i := by
  rw [decodeX, Except.ok.injEq]

theorem decodeTST_eq_ok {mk : RegSet → Bool → Cond → RegNum → RegNum → Instr} :
    decodeTST w mk = .ok i ↔ ∃ g n c a b, w.extractLsb' 0 23 = paramsTST g n c a b ∧
      (c.takesTwo || b == 0#6) = true ∧ mk g n c a b = i := by
  simp [decodeTST, ite_else_error_eq_ok, low_eq_paramsTST_iff, and_assoc]

theorem decodeA3T_eq_ok {mk : RegSet → RegNum → RegNum → RegNum → Instr} :
    decodeA3T w mk = .ok i ↔ ∃ g t x y, w.extractLsb' 0 23 = paramsA3T g t x y ∧
      RegNum.namesPair t = true ∧ mk g t x y = i := by
  simp [decodeA3T, ite_else_error_eq_ok, show paramsA3T = paramsA3U from rfl, low_eq_paramsA3U_iff, and_assoc]

/-- Both set-select bits of a word that names `ST Gd, Ss` (R90). -/
theorem selectBits_eq_two_iff : w.extractLsb' 21 2 = 2#2 ↔ fieldSet w = .global ∧ fieldSet2 w = .slice := by
  rw [fieldSet, fieldSet2, ← eq_bitOfSet_iff, ← eq_bitOfSet_iff]
  exact field_eq_append_iff 1 1 (x := bitOfSet .global) (y := bitOfSet .slice)

theorem decodeA2ST_eq_ok {mk : RegSet → RegSet → RegNum → RegNum → Instr} :
    decodeA2ST w mk = .ok i ↔ ∃ gd gs d rs, w.extractLsb' 0 23 = paramsA2M gd gs d rs ∧
      ¬(gd = .global ∧ gs = .slice) ∧ mk gd gs d rs = i := by
  simp [decodeA2ST, selectBits_eq_two_iff, ite_else_error_eq_ok, ite_then_error_eq_ok, low_eq_paramsA2M_iff, and_assoc]

theorem decodeI12_eq_ok {mk : RegSet → ImmType → RegNum → BitVec 12 → Instr} :
    decodeI12 w mk = .ok i ↔ ∃ g ty d imm, w.extractLsb' 0 23 = paramsI12 g ty d imm ∧ mk g ty d imm = i := by
  simp [decodeI12, ite_else_error_eq_ok, low_eq_paramsI12_iff, and_assoc]
  cases immTypeOfCode (w.extractLsb' 19 3) <;> simp

end Formats

/-! ## The row of an opcode (R85) -/

/-- The decoder of the row of R85 that an opcode's group code and instruction code choose. -/
def decodeRow (op : BitVec 9) (w : Word) : Except DecodeError Instr :=
  match (op.extractLsb' 5 4).toNat with
  | 0 => decodeGroup0 (op.extractLsb' 0 5) w
  | 1 => decodeGroup1 (op.extractLsb' 0 5) w
  | 2 => decodeGroup2 (op.extractLsb' 0 5) w
  | 3 => decodeGroup3 (op.extractLsb' 0 5) w
  | 4 => decodeGroup4 (op.extractLsb' 0 5) w
  | _ => .error .unassignedGroup

/-- An opcode is a group code above an instruction code (R81). -/
theorem opcode_eq_append (op : BitVec 9) : op = op.extractLsb' 5 4 ++ op.extractLsb' 0 5 :=
  BitVec.extractLsb'_eq_self.symm.trans ((field_eq_append_iff 4 5).mpr ⟨rfl, rfl⟩)

theorem decode_eq_decodeRow (w : Word) : decode w = decodeRow (w.extractLsb' 23 9) w := by
  obtain ⟨hgroup, hcode⟩ := (field_eq_append_iff 4 5).mp (opcode_eq_append (w.extractLsb' 23 9))
  rw [decodeRow, ← hgroup, ← hcode]
  rfl

theorem decode_of_opcode {w : Word} {op : BitVec 9} {r : Except DecodeError Instr} (hop : w.extractLsb' 23 9 = op)
    (h : decodeRow op w = r) : decode w = r := by
  rw [decode_eq_decodeRow, hop, h]

/-! ## The word of a well-formed instruction decodes -/

theorem decode_wordOf {op : BitVec 9} {p : BitVec 23} {r : Except DecodeError Instr}
    (h : decodeRow op (wordOf op p) = r) : decode (wordOf op p) = r :=
  decode_of_opcode (wordOf_opcode op p) h

theorem wellFormed_st_iff {gd gs : RegSet} {d rs : RegNum} :
    (Instr.st gd gs d rs).wellFormed = true ↔ ¬(gd = .global ∧ gs = .slice) := by
  cases gd <;> cases gs <;> simp [Instr.wellFormed]

/-- The formats read the fields of their own words. -/
theorem decode_encode {i : Instr} (h : i.wellFormed = true) : decode (encode i) = .ok i := by
  cases i with
  | commit | discard | ent | sig | nop => rfl
  | mov => exact decode_wordOf (decodeA2M_eq_ok.mpr ⟨_, _, _, _, wordOf_params _ _, rfl⟩)
  | mvg | mvge => exact decode_wordOf (decodeA2X_eq_ok.mpr ⟨_, _, _, wordOf_params _ _, rfl⟩)
  | mvi => exact decode_wordOf (decodeI12_eq_ok.mpr ⟨_, _, _, _, wordOf_params _ _, rfl⟩)
  | relpc => exact decode_wordOf (decodePCI_eq_ok.mpr ⟨_, _, _, wordOf_params _ _, rfl⟩)
  | sampr | sampc => exact decode_wordOf (decodeA3T_eq_ok.mpr ⟨_, _, _, _, wordOf_params _ _, h, rfl⟩)
  | st => exact decode_wordOf (decodeA2ST_eq_ok.mpr ⟨_, _, _, _, wordOf_params _ _, wellFormed_st_iff.mp h, rfl⟩)
  | enm | mskl => exact decode_wordOf (decodeA1S_eq_ok.mpr ⟨_, wordOf_params _ _, rfl⟩)
  | tmst | emst | ldt => exact decode_wordOf (decodeA1D_eq_ok.mpr ⟨_, wordOf_params _ _, rfl⟩)
  | tst => exact decode_wordOf (decodeTST_eq_ok.mpr ⟨_, _, _, _, _, wordOf_params _ _, h, rfl⟩)
  | sel => exact decode_wordOf (decodeA3S_eq_ok.mpr ⟨_, _, _, wordOf_params _ _, rfl⟩)
  | br | ben | bnen => exact decode_wordOf (decodeB23_eq_ok.mpr (congrArg _ (wordOf_params _ _)))
  | mvs | tild | tist | pld | pst | tofs | tofl | tril | baryp =>
    exact decode_wordOf (decodeX_eq_ok.mpr (congrArg _ (wordOf_params _ _)))
  | ld | not | lnot | lbool | pcnt | bits | rev | revh | revl | ffs | rthl | rthh | rcpq | sqrtq | abs | neg | sxt
  | ufloor | sfloor | uceil | sceil | round =>
    exact decode_wordOf (decodeA2U_eq_ok.mpr ⟨_, _, _, wordOf_params _ _, rfl⟩)
  | and | or | xor | be | bs | bc | lsr | lsl | asr | add | sub | umuli | smuli | mulq | ufmai | sfmai | macq | udivi
  | sdivi | divq | urem => exact decode_wordOf (decodeA3U_eq_ok.mpr ⟨_, _, _, _, wordOf_params _ _, rfl⟩)

/-! ## A word that decodes is the word of its instruction -/

/-- `i` is well formed, and its word has the opcode `op` and the parameters of `w`. -/
def HasWord (op : BitVec 9) (w : Word) (i : Instr) : Prop :=
  i.wellFormed = true ∧ encode i = wordOf op (w.extractLsb' 0 23)

theorem eq_ofNat_of_toNat_eq {n k : Nat} {c : BitVec n} (h : c.toNat = k) : c = BitVec.ofNat n k := by
  rw [← h, BitVec.ofNat_toNat, BitVec.setWidth_eq]

/-! In each group, `split` gives the row of instruction code `k` the case `h_(k + 1)`, and the codes without a row
the last case. -/

section Groups

variable {c : BitVec 5} {w : Word} {i : Instr}

theorem decodeGroup0_hasWord (h : decodeGroup0 c w = .ok i) : HasWord (0#4 ++ c) w i := by
  unfold decodeGroup0 at h
  split at h
  case h_13 => cases h
  all_goals
    rename_i hc
    obtain rfl := eq_ofNat_of_toNat_eq hc
  case h_1 =>
    obtain ⟨gd, gs, d, rs, hlow, rfl⟩ := decodeA2M_eq_ok.mp h
    exact ⟨rfl, hlow ▸ rfl⟩
  case h_2 | h_3 =>
    obtain ⟨dir, d, rs, hlow, rfl⟩ := decodeA2X_eq_ok.mp h
    exact ⟨rfl, hlow ▸ rfl⟩
  case h_4 =>
    obtain ⟨g, ty, d, imm, hlow, rfl⟩ := decodeI12_eq_ok.mp h
    exact ⟨rfl, hlow ▸ rfl⟩
  case h_5 =>
    obtain ⟨g, d, imm, hlow, rfl⟩ := decodePCI_eq_ok.mp h
    exact ⟨rfl, hlow ▸ rfl⟩
  case h_6 =>
    obtain rfl := decodeX_eq_ok.mp h
    exact ⟨rfl, rfl⟩
  case h_7 =>
    obtain ⟨g, d, a, hlow, rfl⟩ := decodeA2U_eq_ok.mp h
    exact ⟨rfl, hlow ▸ rfl⟩
  case h_8 | h_9 =>
    obtain ⟨g, t, x, y, hlow, ht, rfl⟩ := decodeA3T_eq_ok.mp h
    exact ⟨ht, hlow ▸ rfl⟩
  case h_10 =>
    obtain ⟨gd, gs, d, rs, hlow, hsets, rfl⟩ := decodeA2ST_eq_ok.mp h
    exact ⟨wellFormed_st_iff.mpr hsets, hlow ▸ rfl⟩
  case h_11 | h_12 =>
    obtain ⟨hlow, rfl⟩ := decodeZ_eq_ok.mp h
    exact ⟨rfl, hlow ▸ rfl⟩

theorem decodeGroup1_hasWord (h : decodeGroup1 c w = .ok i) : HasWord (1#4 ++ c) w i := by
  unfold decodeGroup1 at h
  split at h
  case h_14 => cases h
  all_goals
    rename_i hc
    obtain rfl := eq_ofNat_of_toNat_eq hc
  case h_1 | h_12 | h_13 =>
    obtain ⟨hlow, rfl⟩ := decodeZ_eq_ok.mp h
    exact ⟨rfl, hlow ▸ rfl⟩
  case h_2 | h_5 =>
    obtain ⟨rs, hlow, rfl⟩ := decodeA1S_eq_ok.mp h
    exact ⟨rfl, hlow ▸ rfl⟩
  case h_3 | h_4 | h_6 =>
    obtain ⟨d, hlow, rfl⟩ := decodeA1D_eq_ok.mp h
    exact ⟨rfl, hlow ▸ rfl⟩
  case h_7 =>
    obtain ⟨g, n, c, a, b, hlow, hb, rfl⟩ := decodeTST_eq_ok.mp h
    exact ⟨hb, hlow ▸ rfl⟩
  case h_8 =>
    obtain ⟨d, t, f, hlow, rfl⟩ := decodeA3S_eq_ok.mp h
    exact ⟨rfl, hlow ▸ rfl⟩
  case h_9 | h_10 | h_11 =>
    obtain rfl := decodeB23_eq_ok.mp h
    exact ⟨rfl, rfl⟩

theorem decodeGroup2_hasWord (h : decodeGroup2 c w = .ok i) : HasWord (2#4 ++ c) w i := by
  unfold decodeGroup2 at h
  split at h
  case h_21 => cases h
  all_goals
    rename_i hc
    obtain rfl := eq_ofNat_of_toNat_eq hc
  case h_1 | h_2 | h_3 | h_9 | h_10 | h_11 | h_12 | h_13 | h_14 =>
    obtain ⟨g, d, a, b, hlow, rfl⟩ := decodeA3U_eq_ok.mp h
    exact ⟨rfl, hlow ▸ rfl⟩
  all_goals
    obtain ⟨g, d, a, hlow, rfl⟩ := decodeA2U_eq_ok.mp h
    exact ⟨rfl, hlow ▸ rfl⟩

theorem decodeGroup3_hasWord (h : decodeGroup3 c w = .ok i) : HasWord (3#4 ++ c) w i := by
  unfold decodeGroup3 at h
  split at h
  case h_23 => cases h
  all_goals
    rename_i hc
    obtain rfl := eq_ofNat_of_toNat_eq hc
  case h_13 | h_14 | h_15 | h_16 | h_17 | h_18 | h_19 | h_20 | h_21 | h_22 =>
    obtain ⟨g, d, a, hlow, rfl⟩ := decodeA2U_eq_ok.mp h
    exact ⟨rfl, hlow ▸ rfl⟩
  all_goals
    obtain ⟨g, d, a, b, hlow, rfl⟩ := decodeA3U_eq_ok.mp h
    exact ⟨rfl, hlow ▸ rfl⟩

theorem decodeGroup4_hasWord (h : decodeGroup4 c w = .ok i) : HasWord (4#4 ++ c) w i := by
  unfold decodeGroup4 at h
  split at h
  case h_9 => cases h
  all_goals
    rename_i hc
    obtain rfl := eq_ofNat_of_toNat_eq hc
    obtain rfl := decodeX_eq_ok.mp h
    exact ⟨rfl, rfl⟩

end Groups

theorem decodeRow_hasWord {op : BitVec 9} {w : Word} {i : Instr} (h : decodeRow op w = .ok i) : HasWord op w i := by
  rw [opcode_eq_append op]
  unfold decodeRow at h
  split at h
  case h_6 => cases h
  all_goals
    rename_i hgroup
    rw [eq_ofNat_of_toNat_eq hgroup]
  case h_1 => exact decodeGroup0_hasWord h
  case h_2 => exact decodeGroup1_hasWord h
  case h_3 => exact decodeGroup2_hasWord h
  case h_4 => exact decodeGroup3_hasWord h
  case h_5 => exact decodeGroup4_hasWord h

/-- The decoder reads exactly the words of the well-formed instructions, each as its instruction. -/
theorem decode_eq_ok_iff {w : Word} {i : Instr} : decode w = .ok i ↔ i.wellFormed = true ∧ encode i = w := by
  constructor
  · intro h
    rw [decode_eq_decodeRow] at h
    obtain ⟨hwf, hword⟩ := decodeRow_hasWord h
    exact ⟨hwf, hword.trans (wordOf_fields w)⟩
  · rintro ⟨hwf, rfl⟩
    exact decode_encode hwf

/-- Settles O1: a legal map takes the instruction's word of the table to the machine's word and back. -/
theorem decodeOfEncode : Obligations.DecodeOfEncode := by
  intro i hwf
  have htable := decode_encode hwf
  refine ⟨htable, fun m hm hencodes => decodeBy_eq_ok.mpr ⟨?_, hencodes⟩⟩
  rw [encodeBy, OpcodeMap.tableWord_machineWord hm, htable]

/-- Settles O2: the machine's word is the one that a legal map gives for the table's word. -/
theorem encodeOfDecode : Obligations.EncodeOfDecode := by
  refine fun w i => ⟨decode_eq_ok_iff.mp, fun m hm h => ?_⟩
  obtain ⟨htable, hencodes⟩ := decodeBy_eq_ok.mp h
  obtain ⟨hwf, hword⟩ := decode_eq_ok_iff.mp htable
  exact ⟨hwf, hencodes, by rw [encodeBy, hword, OpcodeMap.machineWord_tableWord hm]⟩

/-! ## Reserved and unassigned words -/

theorem exists_error_of_ne_ok {r : Except DecodeError Instr} (h : ∀ i, r ≠ .ok i) : ∃ e, r = .error e := by
  cases r with
  | error e => exact ⟨e, rfl⟩
  | ok i => exact absurd rfl (h i)

/-- A word with a property that no instruction's word has is illegal. -/
theorem decode_error_of_not {P : Word → Prop} (hencode : ∀ i, P (encode i)) {w : Word} (hw : ¬ P w) :
    ∃ e, decode w = .error e :=
  exists_error_of_ne_ok fun i hdecode => hw ((decode_eq_ok_iff.mp hdecode).2 ▸ hencode i)

theorem opcode_encode (i : Instr) : (encode i).extractLsb' 23 9 = opcodeOf i := by
  cases i <;> exact wordOf_opcode _ _

/-- The opcode has a row in R85. -/
def HasRow (op : BitVec 9) : Prop :=
  op.toNat < 0x00C ∨ (0x020 ≤ op.toNat ∧ op.toNat < 0x02D) ∨ (0x040 ≤ op.toNat ∧ op.toNat < 0x054) ∨
    (0x060 ≤ op.toNat ∧ op.toNat < 0x076) ∨ (0x080 ≤ op.toNat ∧ op.toNat < 0x088)

theorem hasRow_encode (i : Instr) : HasRow ((encode i).extractLsb' 23 9) := by
  rw [opcode_encode]
  cases i <;> simp [HasRow, opcodeOf]

/-! ### The bits that a format marks `0`

Each mask is written field by field, as the format's parameters are. -/

theorem and_append_eq_zero {m n : Nat} {x u : BitVec m} {y v : BitVec n} (hhigh : x &&& u = 0#m)
    (hlow : y &&& v = 0#n) : (x ++ y) &&& (u ++ v) = 0#(m + n) := by
  rw [BitVec.and_append, hhigh, hlow, BitVec.zero_append_zero]

section ZeroBits

variable (g gd gs : RegSet) (d a b rs t f x y : RegNum) (imm : BitVec 12)

theorem paramsA3U_zeroBits : paramsA3U g d a b &&& (0#1 ++ 0xF#4 ++ 0#6 ++ 0#6 ++ 0#6) = 0#23 := by
  repeat' apply and_append_eq_zero
  all_goals simp

theorem paramsA2U_zeroBits : paramsA2U g d a &&& (0#1 ++ 0xF#4 ++ 0#6 ++ 0#6 ++ 0x3F#6) = 0#23 := by
  repeat' apply and_append_eq_zero
  all_goals simp

theorem paramsA2M_zeroBits : paramsA2M gd gs d rs &&& (0#1 ++ 0#1 ++ 7#3 ++ 0#6 ++ 0#6 ++ 0x3F#6) = 0#23 := by
  repeat' apply and_append_eq_zero
  all_goals simp

theorem paramsA2X_zeroBits (dir : MoveDir) :
    paramsA2X dir d rs &&& (0#1 ++ 0xF#4 ++ 0#6 ++ 0#6 ++ 0x3F#6) = 0#23 := by
  repeat' apply and_append_eq_zero
  all_goals simp

theorem paramsI12_zeroBits (ty : ImmType) : paramsI12 g ty d imm &&& (0#1 ++ 0#3 ++ 1#1 ++ 0#6 ++ 0#12) = 0#23 := by
  repeat' apply and_append_eq_zero
  all_goals simp

theorem paramsPCI_zeroBits : paramsPCI g d imm &&& (0#1 ++ 0xF#4 ++ 0#6 ++ 0#12) = 0#23 := by
  repeat' apply and_append_eq_zero
  all_goals simp

theorem paramsA1D_zeroBits : paramsA1D d &&& (0x1F#5 ++ 0#6 ++ 0xFFF#12) = 0#23 := by
  repeat' apply and_append_eq_zero
  all_goals simp

theorem paramsA1S_zeroBits : paramsA1S rs &&& (0x7FF#11 ++ 0#6 ++ 0x3F#6) = 0#23 := by
  repeat' apply and_append_eq_zero
  all_goals simp

theorem paramsTST_zeroBits (n : Bool) (c : Cond) :
    paramsTST g n c a b &&& (0#1 ++ 0#1 ++ 0#3 ++ 0x3F#6 ++ 0#6 ++ 0#6) = 0#23 := by
  repeat' apply and_append_eq_zero
  all_goals simp

theorem paramsA3S_zeroBits : paramsA3S d t f &&& (0x1F#5 ++ 0#6 ++ 0#6 ++ 0#6) = 0#23 := by
  repeat' apply and_append_eq_zero
  all_goals simp

end ZeroBits

/-- The word is 0 where the format of its opcode marks `0`. -/
def KeepsZeroBits (w : Word) : Prop := w.extractLsb' 0 23 &&& Machine.zeroBits (w.extractLsb' 23 9) = 0#23

theorem keepsZeroBits_wordOf {op : BitVec 9} {p mask : BitVec 23} (hmask : Machine.zeroBits op = mask)
    (h : p &&& mask = 0#23) : KeepsZeroBits (wordOf op p) := by
  rw [KeepsZeroBits, wordOf_opcode, wordOf_params, hmask, h]

theorem keepsZeroBits_encode (i : Instr) : KeepsZeroBits (encode i) := by
  cases i with
  | commit | discard | ent | sig | nop => rfl
  | mov | st => exact keepsZeroBits_wordOf rfl (paramsA2M_zeroBits ..)
  | mvg | mvge => exact keepsZeroBits_wordOf rfl (paramsA2X_zeroBits ..)
  | mvi => exact keepsZeroBits_wordOf rfl (paramsI12_zeroBits ..)
  | relpc => exact keepsZeroBits_wordOf rfl (paramsPCI_zeroBits ..)
  | enm | mskl => exact keepsZeroBits_wordOf rfl (paramsA1S_zeroBits _)
  | tmst | emst | ldt => exact keepsZeroBits_wordOf rfl (paramsA1D_zeroBits _)
  | tst => exact keepsZeroBits_wordOf rfl (paramsTST_zeroBits ..)
  | sel => exact keepsZeroBits_wordOf rfl (paramsA3S_zeroBits ..)
  | br | ben | bnen | mvs | tild | tist | pld | pst | tofs | tofl | tril | baryp =>
    exact keepsZeroBits_wordOf rfl BitVec.and_zero
  | ld | not | lnot | lbool | pcnt | bits | rev | revh | revl | ffs | rthl | rthh | rcpq | sqrtq | abs | neg | sxt
  | ufloor | sfloor | uceil | sceil | round => exact keepsZeroBits_wordOf rfl (paramsA2U_zeroBits ..)
  | sampr | sampc | and | or | xor | be | bs | bc | lsr | lsl | asr | add | sub | umuli | smuli | mulq | ufmai | sfmai
  | macq | udivi | sdivi | divq | urem => exact keepsZeroBits_wordOf rfl (paramsA3U_zeroBits ..)

/-! ### Reserved operands -/

theorem immTypeOfCode_eq_none {c : BitVec 3} (h : 5 ≤ c.toNat) : immTypeOfCode c = none := by
  revert c; decide

theorem not_namesPair_of_odd {t : RegNum} (h : t.toNat % 2 = 1) : ¬ RegNum.namesPair t = true := by
  revert t; decide

section Reserved

variable {w : Word}

theorem decodeI12_of_reserved {mk : RegSet → ImmType → RegNum → BitVec 12 → Instr}
    (htype : 5 ≤ (w.extractLsb' 19 3).toNat) : ∃ e, decodeI12 w mk = .error e := by
  refine exists_error_of_ne_ok fun i hdecode => ?_
  obtain ⟨g, ty, d, imm, hlow, -⟩ := decodeI12_eq_ok.mp hdecode
  obtain ⟨-, hsome, -⟩ := low_eq_paramsI12_iff.mp hlow
  rw [immTypeOfCode_eq_none htype] at hsome
  cases hsome

theorem decodeA2ST_of_reserved {mk : RegSet → RegSet → RegNum → RegNum → Instr} {d rs : RegNum}
    (hlow : w.extractLsb' 0 23 = paramsA2M .global .slice d rs) : decodeA2ST w mk = .error .reservedStore := by
  obtain ⟨hgd, hgs, hzero, -, -, hzero'⟩ := low_eq_paramsA2M_iff.mp hlow
  simp [decodeA2ST, selectBits_eq_two_iff, hgd, hgs, hzero, hzero']

theorem decodeA3T_of_odd {mk : RegSet → RegNum → RegNum → RegNum → Instr} {g : RegSet} {t x y : RegNum}
    (hlow : w.extractLsb' 0 23 = paramsA3T g t x y) (hodd : t.toNat % 2 = 1) : decodeA3T w mk = .error .oddPair := by
  obtain ⟨-, hzero, ht, -⟩ := low_eq_paramsA3U_iff.mp hlow
  simp [decodeA3T, hzero, ht, not_namesPair_of_odd hodd]

theorem decodeTST_of_stray {mk : RegSet → Bool → Cond → RegNum → RegNum → Instr} {g : RegSet} {n : Bool} {c : Cond}
    {a b : RegNum} (hlow : w.extractLsb' 0 23 = paramsTST g n c a b) (hc : c.takesTwo = false) (hb : b ≠ 0#6) :
    decodeTST w mk = .error .strayOperand := by
  obtain ⟨-, -, hcond, hzero, -, hfieldB⟩ := low_eq_paramsTST_iff.mp hlow
  simp [decodeTST, hzero, hcond, hc, hfieldB, hb]

end Reserved

/-- Settles O4: no instruction's word has such an opcode or such a bit, and the decoder refuses the reserved
operands by name. -/
theorem reservedWordsAreIllegal : Obligations.ReservedWordsAreIllegal := by
  refine ⟨fun w hop => ?unassigned, fun w => decode_error_of_not keepsZeroBits_encode, fun d rs => ?store,
    fun w hop htype => ?immType, fun g t x y hodd => ⟨?sampr, ?sampc⟩, fun g n c a b hc hb => ?stray⟩
  case unassigned =>
    refine decode_error_of_not (P := fun w => HasRow (w.extractLsb' 23 9)) hasRow_encode fun hrow => ?_
    unfold HasRow at hrow
    omega
  case store => exact ⟨_, decode_wordOf (decodeA2ST_of_reserved (wordOf_params _ _))⟩
  case immType => exact (decodeI12_of_reserved htype).imp fun _ => decode_of_opcode hop
  case sampr | sampc => exact ⟨_, decode_wordOf (decodeA3T_of_odd (wordOf_params _ _) hodd)⟩
  case stray =>
    have hone : c.takesTwo = false := by rcases hc with rfl | rfl | rfl <;> rfl
    exact ⟨_, decode_wordOf (decodeTST_of_stray (wordOf_params _ _) hone hb)⟩

end Sys2Proof

/-! # The results of `MVI` and `RELPC` (O22, O23) -/

namespace Sys2Proof.Machine

/-! ## The run -/

/-- A register-to-register run makes the register checks and no other (R200). -/
theorem faultsUnless_of_runRegOp {i : Instr} {s : State} {g : RegSet} {d : RegNum} {srcs : List RegNum}
    {f : RegFile → Word} (h : exec i s = runRegOp g d srcs f s) : RegsFaultUnless i s g (d :: srcs) srcs :=
  faultsUnless_of_checked (o := none) (by rw [h, Option.or_none]; rfl)

theorem exec_mvi (g : RegSet) (ty : ImmType) (d : RegNum) (imm : BitVec 12) (s : State) :
    exec (.mvi g ty d imm) s = runRegOp g d [] (fun _ => expandImm s.params.qfrac ty imm) s := rfl

theorem exec_relpc (g : RegSet) (d : RegNum) (imm : BitVec 12) (s : State) :
    exec (.relpc g d imm) s = runRegOp g d [] (fun _ => relpcValue s.ip imm) s := rfl

/-! ## The immediates (R101, R102) -/

/-- A 12-bit signed number shifted left by at most 20 places fits a word. -/
theorem toInt_signExtend_shiftLeft (imm : BitVec 12) {k : Nat} (hk : k ≤ 20) :
    (imm.signExtend 32 <<< k).toInt = imm.toInt * 2 ^ k := by
  have hpow : (2 : Int) ^ k ≤ 1048576 := pow_le_pow_right₀ (n := 20) (by decide) hk
  have hpos : (0 : Int) < 2 ^ k := by positivity
  have hlow : -2048 ≤ imm.toInt := BitVec.le_toInt imm
  have hhigh : imm.toInt < 2048 := BitVec.toInt_lt
  have htwoPow : (BitVec.twoPow 32 k).toInt = 2 ^ k := by
    rw [BitVec.toInt_twoPow, if_neg (by omega), if_neg (by omega)]
  rw [BitVec.shiftLeft_eq_mul_twoPow, BitVec.toInt_mul, BitVec.toInt_signExtend_of_le (by decide), htwoPow]
  have hge : -2147483648 ≤ imm.toInt * 2 ^ k := by nlinarith
  have hlt : imm.toInt * 2 ^ k < 2147483648 := by nlinarith
  exact Int.bmod_eq_of_le hge hlt

/-- Bringing a number with `j` fractional bits to `q` fractional bits keeps its value. -/
theorem toInt_signExtend_rescale (imm : BitVec 12) {j q : Nat} (hj : j ≤ q) (hq : q ≤ 20) :
    (imm.signExtend 32 <<< (q - j)).toInt * 2 ^ j = imm.toInt * 2 ^ q := by
  rw [toInt_signExtend_shiftLeft imm (by omega), mul_assoc, ← pow_add, Nat.sub_add_cancel hj]

/-- The value that each immediate type has (R101). -/
def ImmMeaning (q : Nat) (ty : ImmType) (imm : BitVec 12) (v : Word) : Prop :=
  match ty with
  | .unsignedInt => v.toNat = imm.toNat
  | .signedInt => v.toInt = imm.toInt
  | .mixedFixed => v.toInt * 2 ^ 6 = imm.toInt * 2 ^ q
  | .wholeFixed => v.toInt = imm.toInt * 2 ^ q
  | .fractionFixed => v.toInt * 2 ^ 10 = imm.toInt * 2 ^ q

theorem immMeaning_expandImm {q : Nat} (hq : 10 ≤ q ∧ q ≤ 20) (ty : ImmType) (imm : BitVec 12) :
    ImmMeaning q ty imm (expandImm q ty imm) := by
  obtain ⟨hlow, hhigh⟩ := hq
  cases ty with
  | unsignedInt => exact BitVec.toNat_setWidth_of_le (by decide)
  | signedInt => exact BitVec.toInt_signExtend_of_le (by decide)
  | mixedFixed => exact toInt_signExtend_rescale imm (by omega) hhigh
  | wholeFixed => exact toInt_signExtend_shiftLeft imm hhigh
  | fractionFixed => exact toInt_signExtend_rescale imm hlow hhigh

theorem relpcValue_eq_ofInt (ip : Word) (imm : BitVec 12) :
    relpcValue ip imm = BitVec.ofInt 32 (ip.toNat + imm.toInt) := by
  rw [relpcValue, BitVec.ofInt_add, BitVec.ofInt_natCast, BitVec.ofNat_toNat, BitVec.setWidth_eq, BitVec.signExtend]

/-! ## The results -/

/-- Settles O22: a register-to-register run without sources, whose value is the expanded immediate. -/
theorem mviResults : Obligations.MviResults := fun s g ty d imm =>
  ⟨fun hq hready => runRegOp_completes (P := fun _ _ => ImmMeaning s.params.qfrac ty imm) hready fun _ _ =>
      immMeaning_expandImm hq ty imm,
    faultsUnless_of_runRegOp (exec_mvi g ty d imm s)⟩

/-- Settles O23: a register-to-register run without sources, whose value is an address near `ip`. -/
theorem relpcResult : Obligations.RelpcResult := fun s g d imm =>
  ⟨fun hready => runRegOp_completes (P := fun _ _ v => v = BitVec.ofInt 32 (s.ip.toNat + imm.toInt)) hready fun _ _ =>
      relpcValue_eq_ofInt s.ip imm,
    faultsUnless_of_runRegOp (exec_relpc g d imm s)⟩

end Sys2Proof.Machine

/-! # The register moves (O3, O17 to O21) -/

namespace Sys2Proof.Machine

/-! ## Checks of registers and of `G` numbers (R253 steps 5 and 6) -/

/-- An instruction that checks its registers and nothing else (R253 step 5). -/
theorem faultsUnless_of_registerChecks {i : Instr} {s after : State} {named : List RegRef} {reads : List ReadRef}
    (h : exec i s = checked ((pendingFault s named).or (unwrittenFault s reads)) after) : FaultsUnless i s named reads :=
  faultsUnless_of_checked (o := none) (by rw [h, Option.or_none])

theorem checked_of_registersReady {s after : State} {named : List RegRef} {reads : List ReadRef}
    (h : ListReady s named reads) : checked ((pendingFault s named).or (unwrittenFault s reads)) after = .next after :=
  checked_eq_next.mpr ⟨registerChecks_eq_none.mpr h, rfl⟩

/-! With the register checks passed, an indexed move's answer rests on its `G` numbers. -/

theorem checked_of_index_none {s after : State} {named : List RegRef} {reads : List ReadRef} {index : Option Fault}
    (h : ListReady s named reads) (hindex : index = none) :
    checked (((pendingFault s named).or (unwrittenFault s reads)).or index) after = .next after := by
  rw [hindex, Option.or_none, checked_of_registersReady h]

theorem checked_of_index_some {s after : State} {named : List RegRef} {reads : List ReadRef} {index : Option Fault}
    {f : Fault} (h : ListReady s named reads) (hindex : index = some f) :
    checked (((pendingFault s named).or (unwrittenFault s reads)).or index) after = .fault f := by
  rw [registerChecks_eq_none.mpr h, hindex]
  rfl

/-- The index check passes when the number of every enabled slice names a `G` register. -/
theorem indexFault_enabledIds_eq_none {s : State} {f : Nat → Nat} (h : ∀ k ∈ s.enabledIds, f k ≤ 63) :
    indexFault (s.enabledIds.map f) = none := indexFault_eq_none.mpr (List.forall_mem_map.mpr h)

/-- The index check reports the number of the lowest enabled slice whose number is above 63. -/
theorem indexFault_of_lowest {s : State} {f : Nat → Nat} {k : Nat} (hk : s.enabledAt k = true) (hout : 63 < f k)
    (hlow : ∀ j, j < k → s.enabledAt j = true → f j ≤ 63) :
    indexFault (s.enabledIds.map f) = some (.globalIndexRange (f k)) := by
  have hfind : s.enabledIds.find? (fun j => decide (63 < f j)) = some k :=
    find?_of_lowest (enabledIds_rising s) (mem_enabledIds.mpr hk) (decide_eq_true hout) fun j hj hlt =>
      decide_eq_false (Nat.not_lt.mpr (hlow j hlt (mem_enabledIds.mp hj)))
  rw [indexFault, List.find?_map]
  exact congrArg (Option.map Fault.globalIndexRange ∘ Option.map f) hfind

theorem globalRefs_of_le {k : Nat} (h : k ≤ 63) : globalRefs k = [.global (BitVec.ofNat 6 k)] :=
  if_pos (Nat.lt_succ_of_le h)

/-! ## Writing one register -/

section Writes

variable {s : State} {d : RegNum} {P : Nat → RegFile → Word → Prop} {local_ : Nat → Slice → Word} {global_ : Word}

theorem writeSet_slice_writesReg (h : ∀ i sl, P i sl.regs (local_ i sl)) :
    WritesReg s (writeSet s .slice d local_ global_).advance .slice d P :=
  writeSet_writes (fl := local_) (fg := global_) (n := s.frees) rfl (fun _ i sl _ _ => h i sl) nofun

theorem writeSet_global_writesReg (h : P 0 s.globals global_) :
    WritesReg s (writeSet s .global d local_ global_).advance .global d P :=
  writeSet_writes (fl := local_) (fg := global_) (n := s.frees) rfl nofun fun _ => h

end Writes

/-! ## `MOV` (R120) -/

/-- The forms of `MOV` within one set run by R200. -/
theorem exec_mov_same (g : RegSet) (d rs : RegNum) (s : State) :
    exec (.mov g g d rs) s = runRegOp g d [rs] (fun rf => rf.get rs) s := by cases g <;> rfl

theorem exec_mov_slice_global (d rs : RegNum) (s : State) : exec (.mov .slice .global d rs) s = checked
    ((pendingFault s (s.enabledIds.flatMap fun i => [.slice i d, .global rs])).or
      (unwrittenFault s (s.enabledIds.map fun _ => .reg (.global rs))))
    (writeSet s .slice d (fun _ _ => s.globals.get rs) 0#32).advance := by
  rw [List.map_eq_flatMap]
  rfl

/-- `MOV Gd, Ss` reads `Ss` of the lowest enabled slice, and only advances when there is none (R25). -/
theorem exec_mov_global_slice (d rs : RegNum) (s : State) : exec (.mov .global .slice d rs) s = checked
    ((pendingFault s (s.enabledIds.flatMap fun j => [.global d, .slice j rs])).or
      (unwrittenFault s ((s.enabledIds.take 1).map fun j => .reg (.slice j rs))))
    (s.lowestEnabled.elim s fun i => writeSet s .global d (fun _ _ => 0#32) ((s.sliceRegs i).get rs)).advance := by
  rw [List.take_one]
  refine congrArg (checked _) ?_
  cases s.lowestEnabled <;> rfl

theorem lowestEnabled_of_lowest {s : State} {i : Nat} (hi : s.enabledAt i = true)
    (hlow : ∀ j, j < i → s.enabledAt j = false) : s.lowestEnabled = some i := by
  rw [State.lowestEnabled, State.enabledIds, List.head?_filter]
  exact find?_of_lowest List.pairwise_lt_range (List.mem_range.mpr (lt_of_enabledAt hi)) hi fun j _ => hlow j

/-- Settles O18, form by form: the checks pass and the register is written. -/
theorem movResults : Obligations.MovResults := by
  refine fun s d rs => ⟨fun g hready => ?_, fun hready => ?_, fun hnone => ?_, fun i sl hsl hen hlow hready => ?_,
    fun g => faultsUnless_of_runRegOp (exec_mov_same g d rs s),
    faultsUnless_of_registerChecks (exec_mov_slice_global d rs s),
    faultsUnless_of_registerChecks (exec_mov_global_slice d rs s)⟩
  · rw [exec_mov_same]
    exact runRegOp_completes (P := fun _ rf v => v = rf.get rs) hready fun _ _ => rfl
  · exact ⟨_, (exec_mov_slice_global d rs s).trans (checked_of_registersReady hready),
      writeSet_slice_writesReg fun _ _ => rfl⟩
  · rw [exec_mov_global_slice, State.lowestEnabled, hnone]
    rfl
  · have hlowest : s.lowestEnabled = some i := lowestEnabled_of_lowest ((enabledAt_of_getElem? hsl).trans hen) hlow
    have htake : s.enabledIds.take 1 = [i] := by rw [List.take_one, ← State.lowestEnabled, hlowest]; rfl
    have hexec := exec_mov_global_slice d rs s
    rw [htake, hlowest, Option.elim_some, sliceRegs_of_getElem? hsl] at hexec
    exact ⟨_, hexec.trans (checked_of_registersReady hready), writeSet_global_writesReg rfl⟩

/-! ## `MVG` and `MVGE` (R121, R122) -/

/-- `i` is the indexed move whose `G` number for Slice `k` is the named one plus `off k`: `MVG` with the Slice ID,
`MVGE` with the number of enabled slices below. -/
def IndexedMove (s : State) (dir : MoveDir) (d rs : RegNum) (off : Nat → Nat) (i : Instr) : Prop :=
  (i = .mvg dir d rs ∧ off = fun k => k) ∨
  (i = .mvge dir d rs ∧ off = fun k => ((List.range k).filter s.enabledAt).length)

theorem length_filter_enabledAt (s : State) (k : Nat) :
    ((List.range k).filter s.enabledAt).length = Nat.count (s.enabledAt · = true) k := by
  rw [Nat.count, List.countP_eq_length_filter]
  simp

/-- The Enabled Slice ID (R122) counts the enabled slices below. -/
theorem enabledRank_eq_count (s : State) (k : Nat) : s.enabledRank k = Nat.count (s.enabledAt · = true) k := by
  induction k with
  | zero => rfl
  | succ k ih =>
    rw [Nat.count_succ, ← ih, State.enabledRank, List.take_add_one, List.filter_append, List.length_append,
      State.enabledRank, State.enabledAt]
    cases s.slices[k]? with
    | none => rfl
    | some sl => cases hen : sl.en <;> simp [hen]

/-- What a move to the Global set writes: for each enabled slice its register, to the `G` register of its number. -/
def indexedWrites (s : State) (off : Nat → Nat) (d rs : RegNum) : List (RegNum × Word) :=
  s.enabledIds.map fun k => (BitVec.ofNat 6 (d.toNat + off k), (s.sliceRegs k).get rs)

section IndexedMoves

variable {s : State} {dir : MoveDir} {d rs : RegNum} {off : Nat → Nat} {i : Instr}

theorem exec_eq_moveIndexed (h : IndexedMove s dir d rs off i) : exec i s = moveIndexed off dir d rs s := by
  rcases h with ⟨rfl, rfl⟩ | ⟨rfl, rfl⟩
  · rfl
  · have hrank : s.enabledRank = fun k => ((List.range k).filter s.enabledAt).length :=
      funext fun k => (enabledRank_eq_count s k).trans (length_filter_enabledAt s k).symm
    rw [← hrank]
    rfl

/-- No two enabled slices have the same offset. -/
theorem IndexedMove.off_injective (h : IndexedMove s dir d rs off i) {j k : Nat} (hj : s.enabledAt j = true)
    (hk : s.enabledAt k = true) (heq : off j = off k) : j = k := by
  rcases h with ⟨-, rfl⟩ | ⟨-, rfl⟩
  · exact heq
  · simp only [length_filter_enabledAt] at heq
    exact Nat.count_injective hj hk heq

theorem exec_moveFromGlobal (h : IndexedMove s .fromGlobal d rs off i) : exec i s = checked
    (((pendingFault s (s.enabledIds.flatMap fun k => .slice k d :: globalRefs (rs.toNat + off k))).or
      (unwrittenFault s (s.enabledIds.flatMap fun k => (globalRefs (rs.toNat + off k)).map ReadRef.reg))).or
      (indexFault (s.enabledIds.map fun k => rs.toNat + off k)))
    (writeSet s .slice d (fun k _ => s.globalAt (rs.toNat + off k)) 0#32).advance := exec_eq_moveIndexed h

theorem exec_moveToGlobal (h : IndexedMove s .toGlobal d rs off i) : exec i s = checked
    (((pendingFault s (s.enabledIds.flatMap fun k => globalRefs (d.toNat + off k) ++ [.slice k rs])).or
      (unwrittenFault s (s.enabledIds.map fun k => .reg (.slice k rs)))).or
      (indexFault (s.enabledIds.map fun k => d.toNat + off k)))
    (s.setGlobals ((indexedWrites s off d rs).foldl (fun rf p => rf.set p.1 p.2) s.globals)).advance := by
  rw [exec_eq_moveIndexed h, List.map_eq_flatMap, indexedWrites, List.foldl_map]
  rfl

/-- With every number in range, the `G` registers that a move from the Global set names and reads are all there. -/
theorem listReady_moveFromGlobal (hrange : ∀ k ∈ s.enabledIds, rs.toNat + off k ≤ 63)
    (h : ListReady s (s.enabledIds.flatMap fun k => [.slice k d, .global (BitVec.ofNat 6 (rs.toNat + off k))])
      (s.enabledIds.map fun k => .reg (.global (BitVec.ofNat 6 (rs.toNat + off k))))) :
    ListReady s (s.enabledIds.flatMap fun k => .slice k d :: globalRefs (rs.toNat + off k))
      (s.enabledIds.flatMap fun k => (globalRefs (rs.toNat + off k)).map ReadRef.reg) := by
  rw [List.map_eq_flatMap] at h
  convert h using 1
  · exact List.flatMap_congr fun k hk => by rw [globalRefs_of_le (hrange k hk)]
  · exact List.flatMap_congr fun k hk => by rw [globalRefs_of_le (hrange k hk)]; rfl

/-- The same for a move to the Global set, which reads no `G` register. -/
theorem listReady_moveToGlobal {reads : List ReadRef} (hrange : ∀ k ∈ s.enabledIds, d.toNat + off k ≤ 63)
    (h : ListReady s (s.enabledIds.flatMap fun k => [.global (BitVec.ofNat 6 (d.toNat + off k)), .slice k rs]) reads) :
    ListReady s (s.enabledIds.flatMap fun k => globalRefs (d.toNat + off k) ++ [.slice k rs]) reads := by
  convert h using 1
  exact List.flatMap_congr fun k hk => by rw [globalRefs_of_le (hrange k hk)]; rfl

/-- Numbers in range name different `G` registers where the offsets differ. -/
theorem globalNumber_injective {n a b : Nat} (ha : n + a ≤ 63) (hb : n + b ≤ 63)
    (h : BitVec.ofNat 6 (n + a) = BitVec.ofNat 6 (n + b)) : a = b := by
  have := congrArg BitVec.toNat h
  simp only [BitVec.toNat_ofNat] at this
  omega

/-- A `G` register is written once: no later slice overwrites an earlier one's value. -/
theorem value_of_mem_indexedWrites (h : IndexedMove s dir d rs off i)
    (hrange : ∀ k ∈ s.enabledIds, d.toNat + off k ≤ 63) {k : Nat} (hk : k ∈ s.enabledIds) {v : Word}
    (hv : (BitVec.ofNat 6 (d.toNat + off k), v) ∈ indexedWrites s off d rs) : v = (s.sliceRegs k).get rs := by
  obtain ⟨j, hj, heq⟩ := List.mem_map.mp hv
  obtain ⟨hnumber, rfl⟩ := Prod.mk.inj heq
  have hoff : off j = off k := globalNumber_injective (hrange j hj) (hrange k hk) hnumber
  rw [h.off_injective (mem_enabledIds.mp hj) (mem_enabledIds.mp hk) hoff]

theorem not_mem_indexedWrites (hrange : ∀ k ∈ s.enabledIds, d.toNat + off k ≤ 63) {n : RegNum}
    (hn : ∀ k ∈ s.enabledIds, n.toNat ≠ d.toNat + off k) (v : Word) : (n, v) ∉ indexedWrites s off d rs := by
  intro hv
  obtain ⟨k, hk, heq⟩ := List.mem_map.mp hv
  have hnumber : BitVec.ofNat 6 (d.toNat + off k) = n := congrArg Prod.fst heq
  exact hn k hk (by rw [← hnumber, BitVec.toNat_ofNat, Nat.mod_eq_of_lt (Nat.lt_succ_of_le (hrange k hk))])

end IndexedMoves

/-- Settles O19: with the numbers in range, each enabled slice is written the `G` register of its number. -/
theorem indexedMovesFromGlobal : Obligations.IndexedMovesFromGlobal := by
  refine fun s d rs off i hmove => ⟨fun hrange hready => ?_, faultsUnless_of_checked (exec_moveFromGlobal hmove)⟩
  have hexec := (exec_moveFromGlobal hmove).trans
    (checked_of_index_none (listReady_moveFromGlobal hrange hready) (indexFault_enabledIds_eq_none hrange))
  exact ⟨_, hexec, writeSet_slice_writesReg fun _ _ => rfl⟩

/-- Settles O20: the numbers of the enabled slices differ, so each `G` register keeps the value of its slice. -/
theorem indexedMovesToGlobal : Obligations.IndexedMovesToGlobal := by
  refine fun s d rs off i hmove => ⟨fun hrange hready => ?_, faultsUnless_of_checked (exec_moveToGlobal hmove)⟩
  have hexec := (exec_moveToGlobal hmove).trans
    (checked_of_index_none (listReady_moveToGlobal hrange hready) (indexFault_enabledIds_eq_none hrange))
  refine ⟨_, hexec, rfl, ⟨rfl, rfl, rfl, rfl, rfl, rfl, rfl, fun _ => rfl⟩, rfl, rfl, fun k sl hsl hen => ?_,
    fun n hn => foldl_set_of_not_mem (not_mem_indexedWrites hrange hn) s.globals⟩
  have hk : k ∈ s.enabledIds := mem_enabledIds.mpr ((enabledAt_of_getElem? hsl).trans hen)
  have hmem : (BitVec.ofNat 6 (d.toNat + off k), (s.sliceRegs k).get rs) ∈ indexedWrites s off d rs :=
    List.mem_map.mpr ⟨k, hk, rfl⟩
  rw [← sliceRegs_of_getElem? hsl]
  exact foldl_set_of_mem hmem (fun _ => value_of_mem_indexedWrites hmove hrange hk) s.globals

/-- Settles O21: in both directions the index check follows the register checks and reports the lowest slice. -/
theorem indexedMovesOutOfRange : Obligations.IndexedMovesOutOfRange := by
  intro s d rs off dir i base k hmove hregs hk hout hlow
  have hindex := indexFault_of_lowest (f := fun k => base + off k) hk hout hlow
  cases dir with
  | fromGlobal =>
    obtain ⟨rfl, hready⟩ := hregs
    exact (exec_moveFromGlobal hmove).trans (checked_of_index_some hready hindex)
  | toGlobal =>
    obtain ⟨rfl, hready⟩ := hregs
    exact (exec_moveToGlobal hmove).trans (checked_of_index_some hready hindex)

/-! ## Words and refusals -/

/-- Settles O3: each word is the word of its instruction. -/
theorem exampleWordsDecode : Obligations.ExampleWordsDecode := by
  unfold Obligations.ExampleWordsDecode
  simp only [decode_eq_ok_iff]
  decide

/-- Settles O17: none of these instructions looks at the state. -/
theorem refusedInstructionsStop : Obligations.RefusedInstructionsStop := fun _ _ _ _ _ _ =>
  ⟨rfl, rfl, rfl, rfl, rfl, rfl, rfl, rfl, rfl, rfl, rfl⟩

end Sys2Proof.Machine

/-! # Control flow and conditional execution (O32 to O40, O42, O43) -/

namespace Sys2Proof

/-! ## The words of the formats `A1S` and `A1D` (R94, R95) -/

theorem low_eq_paramsA1S_iff {w : Word} {rs : RegNum} : w.extractLsb' 0 23 = paramsA1S rs ↔
    w.extractLsb' 12 11 = 0#11 ∧ w.extractLsb' 6 6 = rs ∧ w.extractLsb' 0 6 = 0#6 := by
  simp [paramsA1S, field_eq_append_iff 17 6, field_eq_append_iff 11 6, and_assoc]

theorem low_eq_paramsA1D_iff {w : Word} {d : RegNum} : w.extractLsb' 0 23 = paramsA1D d ↔
    w.extractLsb' 18 5 = 0#5 ∧ w.extractLsb' 12 6 = d ∧ w.extractLsb' 0 12 = 0#12 := by
  simp [paramsA1D, field_eq_append_iff 11 12, field_eq_append_iff 5 6, and_assoc]

theorem wordOf_paramsA1S_fields (op : BitVec 9) (rs : RegNum) :
    (wordOf op (paramsA1S rs)).extractLsb' 23 9 = op ∧ (wordOf op (paramsA1S rs)).extractLsb' 12 11 = 0#11 ∧
    (wordOf op (paramsA1S rs)).extractLsb' 6 6 = rs ∧ (wordOf op (paramsA1S rs)).extractLsb' 0 6 = 0#6 :=
  ⟨wordOf_opcode _ _, low_eq_paramsA1S_iff.mp (wordOf_params _ _)⟩

theorem wordOf_paramsA1D_fields (op : BitVec 9) (d : RegNum) :
    (wordOf op (paramsA1D d)).extractLsb' 23 9 = op ∧ (wordOf op (paramsA1D d)).extractLsb' 18 5 = 0#5 ∧
    (wordOf op (paramsA1D d)).extractLsb' 12 6 = d ∧ (wordOf op (paramsA1D d)).extractLsb' 0 12 = 0#12 :=
  ⟨wordOf_opcode _ _, low_eq_paramsA1D_iff.mp (wordOf_params _ _)⟩

end Sys2Proof

namespace Sys2Proof.Machine

/-! ## The slice records of a state -/

theorem flagT_of_getElem? {s : State} {i : Nat} {sl : Slice} (h : s.slices[i]? = some sl) : s.flagT i = sl.t := by
  simp [State.flagT, h]

theorem anyQueued_eq_false {s : State} : s.anyQueued = false ↔ s.gmau = [] ∧ ∀ sl ∈ s.slices, sl.queue = [] := by
  simp [State.anyQueued]

/-- Writing the enable bits from the execution mask changes no slice (R7: at most 32 slices). -/
theorem setEnMask_execMask {s : State} (h : s.slices.length ≤ 32) : (s.setEnMask s.execMask).slices = s.slices := by
  refine List.ext_getElem? fun i => ?_
  rw [State.setEnMask, State.setSlices_slices, updateEvery_getElem?]
  cases hsl : s.slices[i]? with
  | none => rfl
  | some sl =>
    have hi : i < s.slices.length := (List.getElem?_eq_some_iff.mp hsl).1
    have hen : s.execMask.getLsbD i = sl.en := by
      rw [execMask_getLsbD s (by omega), enabledAt_of_getElem? hsl]
    rw [Option.map_some, hen]
    rfl

/-! ## What the two kinds of effect leave alone -/

/-- An instruction that makes the register checks and then replaces the slice records changes them and `ip`. -/
theorem setSlices_completes {i : Instr} {s : State} {named : List RegRef} {reads : List ReadRef} {x : List Slice}
    {R : Nat → Slice → Slice → Prop}
    (hexec : exec i s = checked ((pendingFault s named).or (unwrittenFault s reads)) (s.setSlices x).advance)
    (hready : ListReady s named reads) (hslices : EachSlice R s (s.setSlices x).advance) :
    ∃ t, exec i s = .next t ∧ t.ip = s.ip + 4#32 ∧ SameMachine s t ∧ t.globals = s.globals ∧ t.gmau = s.gmau ∧
      EachSlice R s t :=
  ⟨_, hexec.trans (checked_of_registersReady hready), rfl, ⟨rfl, rfl, rfl, rfl, rfl, rfl, rfl, fun _ => rfl⟩, rfl, rfl,
    hslices⟩

theorem setGlobals_writesReg {s : State} {d : RegNum} {v : Word} {P : Nat → RegFile → Word → Prop}
    (h : P 0 s.globals v) : WritesReg s (s.setGlobals (s.globals.set d v)).advance .global d P :=
  writeSet_global_writesReg (local_ := fun _ _ => v) h

/-- An instruction that makes the register checks and then writes register `d` of each enabled slice. -/
theorem writeSet_slice_completes {i : Instr} {s : State} {named : List RegRef} {reads : List ReadRef} {d : RegNum}
    {local_ : Nat → Slice → Word} {global_ : Word} {P : Nat → RegFile → Word → Prop}
    (hexec : exec i s =
      checked ((pendingFault s named).or (unwrittenFault s reads)) (writeSet s .slice d local_ global_).advance)
    (hready : ListReady s named reads) (hvalue : ∀ j sl, s.slices[j]? = some sl → P j sl.regs (local_ j sl)) :
    ∃ t, exec i s = .next t ∧ WritesReg s t .slice d P :=
  ⟨_, hexec.trans (checked_of_registersReady hready),
    writeSet_writes (fl := local_) (fg := global_) (n := s.frees) rfl (fun _ j sl hsl _ => hvalue j sl hsl) nofun⟩

/-! ## `ENT` (R150) -/

/-- The slices whose `T` flags `ENT` reads: every one in mode `replace`, the enabled ones in mode `narrow`. -/
def entReads (s : State) : List Nat :=
  match s.params.entMode with
  | .replace => s.allIds
  | .narrow => s.enabledIds

/-- The enable bit that `ENT` gives a slice in each mode. -/
def entEnable (s : State) (sl : Slice) : Bool :=
  match s.params.entMode with
  | .replace => sl.t
  | .narrow => sl.en && sl.t

theorem exec_ent (s : State) : exec .ent s = checked
    ((pendingFault s []).or (unwrittenFault s ((entReads s).map ReadRef.tFlag)))
    (s.setSlices (updateEvery (fun _ sl => sl.setEn (entEnable s sl)) s.slices)).advance := by
  unfold exec execEnt entReads entEnable
  cases s.params.entMode <;> rfl

theorem mem_entReads {s : State} {i : Nat} : i ∈ entReads s ↔
    (s.params.entMode = .replace → i ∈ s.allIds) ∧ (s.params.entMode = .narrow → i ∈ s.enabledIds) := by
  unfold entReads
  cases s.params.entMode <;> simp

theorem entReads_rising (s : State) : (entReads s).Pairwise (· < ·) := by
  unfold entReads
  cases s.params.entMode with
  | replace => exact List.pairwise_lt_range
  | narrow => exact enabledIds_rising s

/-- Of flags read in ascending order, the lowest without a value is the one reported (R253). -/
theorem unwrittenFault_tFlag_of_lowest {s : State} {l : List Nat} {i : Nat} (hl : l.Pairwise (· < ·)) (hi : i ∈ l)
    (hunwritten : s.holdsValue (.tFlag i) = false) (hlow : ∀ j ∈ l, j < i → s.holdsValue (.tFlag j) = true) :
    unwrittenFault s (l.map ReadRef.tFlag) = some (.unwrittenRead (.tFlag i)) := by
  have hfind : l.find? (fun j => !s.holdsValue (.tFlag j)) = some i :=
    find?_of_lowest hl hi (by rw [hunwritten, Bool.not_false]) fun j hj hlt => by rw [hlow j hj hlt, Bool.not_true]
  rw [unwrittenFault, List.find?_map]
  exact congrArg (Option.map Fault.unwrittenRead ∘ Option.map ReadRef.tFlag) hfind

/-- Settles O32: the two modes differ in the flags read and in the enable bit given, and in nothing else. -/
theorem entResults : Obligations.EntResults := by
  refine fun s => ⟨fun hreplace hnarrow => ?_, fun i hreplace hnarrow hunwritten hlow => ?_⟩
  · have hready : ListReady s [] ((entReads s).map ReadRef.tFlag) := by
      refine ⟨nofun, List.forall_mem_map.mpr fun i hi => ?_⟩
      obtain ⟨hall, henabled⟩ := mem_entReads.mp hi
      cases hmode : s.params.entMode with
      | replace => exact hreplace hmode i (hall hmode)
      | narrow => exact hnarrow hmode i (henabled hmode)
    exact setSlices_completes (exec_ent s) hready
      (eachSlice_updateEvery rfl fun _ _ _ => ⟨⟨rfl, rfl, rfl, rfl⟩, rfl⟩)
  · have hwritten : ∀ j ∈ entReads s, j < i → s.holdsValue (.tFlag j) = true := fun j hj hlt => by
      refine (hlow j hlt).resolve_right fun ⟨hmode, hdis⟩ => ?_
      have hen : s.enabledAt j = true := mem_enabledIds.mp ((mem_entReads.mp hj).2 hmode)
      exact Bool.false_ne_true (hdis.symm.trans hen)
    have hfault := unwrittenFault_tFlag_of_lowest (entReads_rising s) (mem_entReads.mpr ⟨hreplace, hnarrow⟩) hunwritten
      hwritten
    rw [exec_ent, hfault]
    rfl

/-! ## `ENM` and `MSKL`, the instructions with one global source (R151, R154) -/

theorem exec_enm (rs : RegNum) (s : State) : exec (.enm rs) s = checked
    ((pendingFault s [.global rs]).or (unwrittenFault s [.reg (.global rs)]))
    (s.setEnMask (s.globals.get rs)).advance := rfl

theorem exec_mskl (rs : RegNum) (s : State) : exec (.mskl rs) s = checked
    ((pendingFault s [.global rs]).or (unwrittenFault s [.reg (.global rs)]))
    (s.setTMask (s.globals.get rs)).advance := rfl

/-- Settles O33: every slice gets its bit of the register. -/
theorem enmSetsExecutionMask : Obligations.EnmSetsExecutionMask :=
  ⟨wordOf_paramsA1S_fields 0x021#9, by decide, fun s rs =>
    ⟨fun hready => setSlices_completes (exec_enm rs s) hready
        (eachSlice_updateEvery rfl fun _ _ _ => ⟨⟨rfl, rfl, rfl, rfl⟩, rfl⟩),
      faultsUnless_of_registerChecks (exec_enm rs s)⟩⟩

/-- Settles O36: every slice gets its bit of the register; that no other instruction writes the flag of a disabled
slice is part of what every instruction keeps of one. -/
theorem msklLoadsFlags : Obligations.MsklLoadsFlags := by
  refine ⟨wordOf_paramsA1S_fields 0x024#9, by decide, fun i s t hne h => ?_, fun s rs => ⟨fun hready => ?_, ?_⟩⟩
  · obtain ⟨hlen, hkeeps⟩ := disabledSliceIsUntouched i s t h
    refine ⟨hlen, fun j sl sl' hsl hsl' hdis => ?_⟩
    obtain ⟨-, -, hflag⟩ := (hkeeps j sl sl' hsl hsl').2 hdis
    cases i
    case mskl rs => exact absurd rfl (hne rs)
    all_goals exact hflag
  · exact setSlices_completes (exec_mskl rs s) hready
      (eachSlice_updateEvery rfl fun _ _ _ => ⟨⟨rfl, rfl, rfl⟩, rfl, rfl⟩)
  · exact faultsUnless_of_registerChecks (exec_mskl rs s)

/-! ## `TMST` and `EMST`, the masks in a global register (R152, R153) -/

theorem exec_tmst (d : RegNum) (s : State) : exec (.tmst d) s = checked
    ((pendingFault s [.global d]).or (unwrittenFault s (s.allIds.map ReadRef.tFlag)))
    (s.setGlobals (s.globals.set d s.tMask)).advance := rfl

/-- `EMST` reads no register and no flag. -/
theorem exec_emst (d : RegNum) (s : State) : exec (.emst d) s = checked
    ((pendingFault s [.global d]).or (unwrittenFault s []))
    (s.setGlobals (s.globals.set d s.execMask)).advance :=
  congrArg (checked · _) Option.or_none.symm

/-- Settles O34: the register gets the mask of the flags. -/
theorem tmstStoresFlagMask : Obligations.TmstStoresFlagMask :=
  ⟨wordOf_paramsA1D_fields 0x022#9, by decide, fun s d =>
    ⟨fun hready => ⟨_, (exec_tmst d s).trans (checked_of_registersReady hready),
        setGlobals_writesReg fun _ hi => tMask_getLsbD s hi⟩,
      faultsUnless_of_registerChecks (exec_tmst d s)⟩⟩

/-- With one register named and nothing read, the only fault is that the register is pending. -/
theorem eq_pendingAccess_of_listFault {s : State} {r : RegRef} {f : Fault} (h : ListFault s [r] [] f) :
    f = .pendingAccess r := by
  rcases h with ⟨r', hr', -, rfl⟩ | ⟨-, r', hr', -⟩
  · rw [List.mem_singleton.mp hr']
  · exact absurd hr' List.not_mem_nil

/-- `ENM` of a register that has just been given the execution mask. -/
theorem exec_enm_of_execMask {s t : State} {d : RegNum} (ht : t = (s.setGlobals (s.globals.set d s.execMask)).advance)
    (hready : RegsReady s .global [d] []) (hlen : s.slices.length ≤ 32) :
    ∃ t', exec (.enm d) t = .next t' ∧ t'.slices = s.slices := by
  subst ht
  have hholds : (s.globals.set d s.execMask).holds d = true := RegFile.holds_set_same _ _ _
  refine ⟨_, (exec_enm d _).trans (checked_of_registersReady ⟨hready.1, List.forall_mem_singleton.mpr hholds⟩), ?_⟩
  rw [State.advance_globals, State.setGlobals_globals, RegFile.get_set_same]
  exact setEnMask_execMask hlen

/-- Settles O35: the register gets the execution mask, and holds it when `ENM` then reads it. -/
theorem emstStoresExecutionMask : Obligations.EmstStoresExecutionMask := by
  refine ⟨wordOf_paramsA1D_fields 0x023#9, by decide, fun s d => ⟨fun hready => ?_, fun hnot => ?_⟩⟩
  · exact ⟨_, (exec_emst d s).trans (checked_of_registersReady hready),
      setGlobals_writesReg fun _ hi => execMask_getLsbD s hi, exec_enm_of_execMask rfl hready⟩
  · obtain ⟨f, hexec, hfault⟩ := faultsUnless_of_registerChecks (exec_emst d s) hnot
    rw [hexec, eq_pendingAccess_of_listFault hfault]

/-! ## `LDT` and `SEL` (R155, R157) -/

theorem exec_ldt (d : RegNum) (s : State) : exec (.ldt d) s = checked
    ((pendingFault s (concernedRegs s .slice [d])).or (unwrittenFault s (s.enabledIds.map ReadRef.tFlag)))
    (writeSet s .slice d (fun _ sl => if sl.t then 1#32 else 0#32) 0#32).advance := by
  rw [List.map_eq_flatMap]
  rfl

theorem exec_sel (d a b : RegNum) (s : State) : exec (.sel d a b) s = checked
    ((pendingFault s (concernedRegs s .slice [d, a, b])).or (unwrittenFault s
      (s.enabledIds.flatMap fun i => [.tFlag i, .reg (.slice i (if s.flagT i then a else b))])))
    (writeSet s .slice d (fun _ sl => sl.regs.get (if sl.t then a else b)) 0#32).advance := rfl

/-- Settles O37: each enabled slice writes its own flag as 0 or 1. -/
theorem ldtLoadsLogicalBoolean : Obligations.LdtLoadsLogicalBoolean := by
  refine ⟨wordOf_paramsA1D_fields 0x025#9, by decide, fun s d => ⟨fun hready => ?_, ?_⟩⟩
  · refine writeSet_slice_completes (exec_ldt d s) hready fun i sl hsl => ?_
    rw [flagT_of_getElem? hsl]
  · exact faultsUnless_of_registerChecks (exec_ldt d s)

/-- Settles O38: each enabled slice copies the register that its own flag chooses. -/
theorem selResult : Obligations.SelResult := by
  refine fun s d a b => ⟨fun hready => ?_, faultsUnless_of_registerChecks (exec_sel d a b s)⟩
  refine writeSet_slice_completes (exec_sel d a b s) hready fun i sl hsl => ?_
  rw [flagT_of_getElem? hsl, apply_ite sl.regs.get]

/-! ## The conditions and `TST` (R156, R163) -/

/-- A value covers the execution mask when it has the bit of every enabled slice. -/
theorem and_execMask_eq_iff {s : State} {A : Word} :
    A &&& s.execMask = s.execMask ↔ ∀ i, i < 32 → s.enabledAt i = true → A.getLsbD i = true := by
  have hbit : ∀ i, i < 32 → ((A &&& s.execMask).getLsbD i = s.execMask.getLsbD i ↔
      (s.enabledAt i = true → A.getLsbD i = true)) := fun i hi => by
    rw [BitVec.getLsbD_and, execMask_getLsbD s hi, Bool.and_eq_right_iff_imp]
  exact ⟨fun h i hi => (hbit i hi).mp (by rw [h]),
    fun h => BitVec.eq_of_getLsbD_eq fun i hi => (hbit i hi).mpr (h i hi)⟩

theorem condHolds_iff {s : State} {c : Cond} {A B : Word} :
    condHolds c A B s.execMask = true ↔ CondMeaning s c A B := by
  cases c with
  | zro | equ => exact beq_iff_eq
  | ult | ugt | slt | sgt => exact decide_eq_true_iff
  | neg => exact Iff.rfl
  | cns => exact beq_iff_eq.trans and_execMask_eq_iff

/-- Settles O39: the codes are a finite table; the meanings are `condHolds_iff`. -/
theorem conditionCodeTable : Obligations.ConditionCodeTable :=
  ⟨by decide, fun c => by cases c <;> decide, fun _ _ _ _ => condHolds_iff⟩

theorem exec_tst (g : RegSet) (negated : Bool) (c : Cond) (a b : RegNum) (s : State) :
    exec (.tst g negated c a b) s = checked
      ((pendingFault s (s.enabledIds.flatMap fun i => (if c.takesTwo then [a, b] else [a]).map (regRef g i))).or
        (unwrittenFault s
          (s.enabledIds.flatMap fun i => (if c.takesTwo then [a, b] else [a]).map fun n => .reg (regRef g i n))))
      (s.setSlices (updateEnabled (fun i sl =>
        sl.setT (condHolds c (s.readReg g i a) (s.readReg g i b) s.execMask ^^ negated)) s.slices)).advance := rfl

/-- Negating a test's answer (the `!` forms) negates what it says. -/
theorem xor_negated_eq_true_iff {x negated : Bool} {P : Prop} (h : x = true ↔ P) :
    (x ^^ negated) = true ↔ (P ↔ negated = false) := by
  rw [← h]
  cases negated <;> simp

/-- Settles O40: each enabled slice gets the condition's value on its own operands. -/
theorem tstResult : Obligations.TstResult := by
  refine fun s g negated c a b => ⟨fun hready => ?_, faultsUnless_of_registerChecks (exec_tst g negated c a b s)⟩
  refine setSlices_completes (exec_tst g negated c a b s) hready (eachSlice_updateEnabled rfl fun i sl _ => ?_)
  split
  · exact ⟨⟨rfl, rfl, rfl⟩, rfl, xor_negated_eq_true_iff condHolds_iff⟩
  · exact ⟨⟨rfl, rfl, rfl⟩, rfl⟩

/-! ## `SIG` and `NOP` (R161, R162) -/

theorem exec_sig_of_empty {s : State} (h : s.anyQueued = false) : exec .sig s =
    .next (if s.params.sigHalts then (s.setSignal true).setRun .completed else (s.setSignal true).advance) := by
  rw [exec, execSig, h]
  rfl

theorem exec_sig_of_queued {s : State} (h : s.anyQueued = true) : exec .sig s = .fault .pendingAtCompletion := by
  rw [exec, execSig, h]
  rfl

/-- Settles O42: the answer rests on whether any queue holds a request, and then on `SIG_HALTS`. -/
theorem sigResults : Obligations.SigResults := by
  refine fun s => ⟨fun hgmau hslices => ?_, fun hqueued => ?_⟩
  · rw [exec_sig_of_empty (anyQueued_eq_false.mpr ⟨hgmau, hslices⟩)]
    exact ⟨fun hhalts => by rw [if_pos hhalts], fun hgoes => by rw [if_neg (by simp [hgoes])]; rfl⟩
  · refine exec_sig_of_queued (Bool.eq_true_of_not_eq_false fun hnone => ?_)
    obtain ⟨hgmau, hslices⟩ := anyQueued_eq_false.mp hnone
    rcases hqueued with hne | ⟨sl, hsl, hne⟩
    · exact hne hgmau
    · exact hne (hslices sl hsl)

/-- Settles O43: the words are those of their instructions, and `NOP` advances `ip` in every state. -/
theorem nopDoesNothing : Obligations.NopDoesNothing :=
  ⟨by decide, decode_eq_ok_iff.mpr (by decide), decode_eq_ok_iff.mpr (by decide), fun _ => rfl⟩

end Sys2Proof.Machine

/-! # The results of the logic instructions (O44 to O49) -/

namespace Sys2Proof

/-! ## The words of the formats `A3U` and `A2U` (R87, R88) -/

theorem wordOf_paramsA3U_fields (op : BitVec 9) (g : RegSet) (d a b : RegNum) :
    (wordOf op (paramsA3U g d a b)).extractLsb' 23 9 = op ∧
    (wordOf op (paramsA3U g d a b)).extractLsb' 22 1 = bitOfSet g ∧
    (wordOf op (paramsA3U g d a b)).extractLsb' 18 4 = 0#4 ∧ (wordOf op (paramsA3U g d a b)).extractLsb' 12 6 = d ∧
    (wordOf op (paramsA3U g d a b)).extractLsb' 6 6 = a ∧ (wordOf op (paramsA3U g d a b)).extractLsb' 0 6 = b := by
  obtain ⟨hset, hfields⟩ := low_eq_paramsA3U_iff.mp (wordOf_params op (paramsA3U g d a b))
  exact ⟨wordOf_opcode _ _, eq_bitOfSet_iff.mpr hset, hfields⟩

/-- Format `A2U` is format `A3U` with the field `b` zero. -/
theorem wordOf_paramsA2U_fields (op : BitVec 9) (g : RegSet) (d a : RegNum) :
    (wordOf op (paramsA2U g d a)).extractLsb' 23 9 = op ∧
    (wordOf op (paramsA2U g d a)).extractLsb' 22 1 = bitOfSet g ∧
    (wordOf op (paramsA2U g d a)).extractLsb' 18 4 = 0#4 ∧ (wordOf op (paramsA2U g d a)).extractLsb' 12 6 = d ∧
    (wordOf op (paramsA2U g d a)).extractLsb' 6 6 = a ∧ (wordOf op (paramsA2U g d a)).extractLsb' 0 6 = 0#6 :=
  wordOf_paramsA3U_fields op g d a 0#6

end Sys2Proof

namespace Sys2Proof.Machine

/-! ## The runs of R200 with one and with two sources -/

section Runs

variable {s : State} {g : RegSet} {d a b : RegNum} {P : RegFile → Word → Prop}

theorem runOp1_completes {f : Word → Word} (h : RegsReady s g [d, a] [a]) (hvalue : ∀ rf, P rf (f (rf.get a))) :
    ∃ t, runOp1 f g d a s = .next t ∧ WritesReg s t g d fun _ rf v => P rf v :=
  runRegOp_completes (P := fun _ => P) h fun _ => hvalue

theorem runOp2_completes {f : Word → Word → Word} (h : RegsReady s g [d, a, b] [a, b])
    (hvalue : ∀ rf, P rf (f (rf.get a) (rf.get b))) :
    ∃ t, runOp2 f g d a b s = .next t ∧ WritesReg s t g d fun _ rf v => P rf v :=
  runRegOp_completes (P := fun _ => P) h fun _ => hvalue

/-! The same for a field of `NUM` (R6, log 18): what is said of the value is said of its default body. -/

theorem runOp1_num1_completes {n : NumField} {f : Word → Word} (h : RegsReady s g [d, a] [a])
    (hvalue : ∀ rf, P rf (f (rf.get a))) :
    ∃ t, runOp1 (num1 s.params n f) g d a s = .next t ∧
      WritesReg s t g d fun _ rf v => NumValue s n [rf.get a] v (P rf v) :=
  runOp1_completes h fun rf => numValue_of (fun hdefault => by rw [num1_default hdefault]; exact hvalue rf)
    fun hown => num1_own hown f _

theorem runOp2_num2_completes {n : NumField} {f : Word → Word → Word} (h : RegsReady s g [d, a, b] [a, b])
    (hvalue : ∀ rf, P rf (f (rf.get a) (rf.get b))) :
    ∃ t, runOp2 (num2 s.params n f) g d a b s = .next t ∧
      WritesReg s t g d fun _ rf v => NumValue s n [rf.get a, rf.get b] v (P rf v) :=
  runOp2_completes h fun rf => numValue_of (fun hdefault => by rw [num2_default hdefault]; exact hvalue rf)
    fun hown => num2_own hown f _ _

end Runs

section Meanings

variable (g : RegSet) (d a b : RegNum) (s : State)

theorem exec_and : exec (.and g d a b) s = runOp2 (fun x y => x &&& y) g d a b s := rfl

theorem exec_or : exec (.or g d a b) s = runOp2 (fun x y => x ||| y) g d a b s := rfl

theorem exec_lbool : exec (.lbool g d a) s = runOp1 numLbool g d a s := rfl

theorem exec_pcnt : exec (.pcnt g d a) s = runOp1 numPcnt g d a s := rfl

end Meanings

/-! ## Counting and finding bits (R186, R187, R197) -/

theorem toNat_numPcnt (x : Word) : (numPcnt x).toNat = ((List.range 32).filter fun k => x.getLsbD k).length := by
  have hle : (List.range 32).countP (fun k => x.getLsbD k) ≤ 32 := List.countP_le_length
  rw [numPcnt, ← List.countP_eq_length_filter, BitVec.toNat_ofNat, Nat.mod_eq_of_lt (by omega)]

theorem toNat_one_shiftLeft {n : Nat} (hn : n < 32) : (1#32 <<< n).toNat = 2 ^ n := by
  rw [← BitVec.twoPow_eq, BitVec.toNat_twoPow_of_lt hn]

theorem getLsbD_one_shiftLeft {n : Nat} (hn : n < 32) (k : Nat) : (1#32 <<< n).getLsbD k = decide (k = n) := by
  rw [← BitVec.twoPow_eq, BitVec.getLsbD_twoPow, decide_eq_true hn, Bool.true_and, decide_eq_decide, eq_comm]

theorem getLsbD_numBits (x : Word) {k : Nat} (hk : k < 32) : (numBits x).getLsbD k = decide (k < x.toNat) := by
  unfold numBits
  split
  case isTrue hx =>
    have hone : 1#32 ≤ 1#32 <<< x.toNat := by
      rw [BitVec.le_def, toNat_one_shiftLeft hx]
      exact Nat.one_le_two_pow
    rw [← BitVec.testBit_toNat, BitVec.toNat_sub_of_le hone, toNat_one_shiftLeft hx]
    exact Nat.testBit_two_pow_sub_one _ _
  case isFalse hx =>
    rw [BitVec.getLsbD_allOnes, decide_eq_decide]
    omega

theorem numFfs_zero : numFfs 0#32 = 0#32 := by decide

theorem toNat_numFfs_of_lowest {x : Word} {k : Nat} (hk : k < 32) (hset : x.getLsbD k = true)
    (hlow : ∀ j, j < k → x.getLsbD j = false) : (numFfs x).toNat = k + 1 := by
  have hfind : (List.range 32).find? (fun i => x.getLsbD i) = some k :=
    List.find?_range_eq_some.mpr ⟨hset, List.mem_range.mpr hk, fun j hj => by rw [hlow j hj]; rfl⟩
  rw [numFfs, hfind, BitVec.toNat_ofNat, Nat.mod_eq_of_lt (by omega)]

/-! ## One bit by its number (R188 to R190) -/

/-- From 32 on a number names no bit, so `BE` needs no bound. -/
theorem numBe_eq (x y : Word) : numBe x y = if x.getLsbD y.toNat then 1#32 else 0#32 := by
  unfold numBe
  split
  case isTrue => rfl
  case isFalse hy => rw [BitVec.getLsbD_of_ge x _ (by omega)]; rfl

theorem toNat_numBe (x y : Word) : (numBe x y).toNat = x.toNat / 2 ^ y.toNat % 2 := by
  rw [numBe_eq, ← Nat.toNat_testBit, BitVec.testBit_toNat]
  cases x.getLsbD y.toNat <;> rfl

theorem getLsbD_numBs (x y : Word) {k : Nat} (hk : k < 32) :
    (numBs x y).getLsbD k = (x.getLsbD k || decide (k = y.toNat)) := by
  unfold numBs
  split
  case isTrue hy => rw [BitVec.getLsbD_or, getLsbD_one_shiftLeft hy]
  case isFalse hy => rw [decide_eq_false (by omega), Bool.or_false]

theorem getLsbD_numBc (x y : Word) {k : Nat} (hk : k < 32) :
    (numBc x y).getLsbD k = (x.getLsbD k && decide (k ≠ y.toNat)) := by
  unfold numBc
  split
  case isTrue hy =>
    rw [BitVec.getLsbD_and, BitVec.getLsbD_not, getLsbD_one_shiftLeft hy, decide_eq_true hk, Bool.true_and, decide_not]
  case isFalse hy => rw [decide_eq_true (by omega), Bool.and_true]

/-! ## Shifts by every amount (R191 to R193)

A shift by 32 or more already gives what the bodies write out for it. -/

theorem numLsr_eq (x y : Word) : numLsr x y = x >>> y.toNat := by
  unfold numLsr
  split
  case isTrue => rfl
  case isFalse hy => exact (BitVec.ushiftRight_eq_zero (by omega)).symm

theorem numLsl_eq (x y : Word) : numLsl x y = x <<< y.toNat := by
  unfold numLsl
  split
  case isTrue => rfl
  case isFalse hy => exact (BitVec.shiftLeft_eq_zero (by omega)).symm

theorem numAsr_eq (x y : Word) : numAsr x y = x.sshiftRight y.toNat := by
  unfold numAsr
  split
  case isTrue => rfl
  case isFalse hy =>
    refine BitVec.eq_of_getLsbD_eq fun k hk => ?_
    have hsign : (x.sshiftRight y.toNat).getLsbD k = x.getLsbD 31 := by
      rw [BitVec.getLsbD_sshiftRight, if_neg (by omega), decide_eq_false (by omega), Bool.not_false, Bool.true_and,
        BitVec.msb_eq_getLsbD_last]
    rw [hsign]
    cases x.getLsbD 31 with
    | false => rw [if_neg Bool.false_ne_true, BitVec.getLsbD_zero]
    | true => rw [if_pos rfl, BitVec.getLsbD_allOnes, decide_eq_true hk]

theorem toNat_numLsr (x y : Word) : (numLsr x y).toNat = x.toNat / 2 ^ y.toNat := by
  rw [numLsr_eq, BitVec.toNat_ushiftRight, Nat.shiftRight_eq_div_pow]

theorem toNat_numLsl (x y : Word) : (numLsl x y).toNat = x.toNat * 2 ^ y.toNat % 2 ^ 32 := by
  rw [numLsl_eq, BitVec.toNat_shiftLeft, Nat.shiftLeft_eq]

theorem toInt_numAsr (x y : Word) : (numAsr x y).toInt = x.toInt / 2 ^ y.toNat := by
  rw [numAsr_eq, BitVec.toInt_sshiftRight, Int.shiftRight_eq_div_pow]
  norm_cast

/-! ## Reversals and half-words (R194 to R196, R198, R199) -/

theorem getLsbD_reverse_of_lt {w k : Nat} (x : BitVec w) (hk : k < w) :
    x.reverse.getLsbD k = x.getLsbD (w - 1 - k) := by
  rw [BitVec.getLsbD_reverse, BitVec.getMsbD_eq_getLsbD, decide_eq_true hk, Bool.true_and]

theorem getLsbD_half {k : Nat} (hk : k < 16) (start : Nat) (x : Word) :
    (x.extractLsb' start 16).getLsbD k = x.getLsbD (start + k) := by
  rw [BitVec.getLsbD_extractLsb', decide_eq_true hk, Bool.true_and]

theorem getLsbD_reverse_half {k : Nat} (hk : k < 16) (start : Nat) (x : Word) :
    (x.extractLsb' start 16).reverse.getLsbD k = x.getLsbD (start + (15 - k)) := by
  rw [getLsbD_reverse_of_lt _ hk, getLsbD_half (by omega)]

theorem getLsbD_append_high {h l : BitVec 16} (k : Nat) : (h ++ l).getLsbD (16 + k) = h.getLsbD k := by
  rw [BitVec.getLsbD_append, if_neg (by omega), Nat.add_sub_cancel_left]

theorem getLsbD_append_low {h l : BitVec 16} {k : Nat} (hk : k < 16) : (h ++ l).getLsbD k = l.getLsbD k := by
  rw [BitVec.getLsbD_append, if_pos hk]

theorem getLsbD_numRevh (x : Word) {k : Nat} (hk : k < 16) :
    (numRevh x).getLsbD (16 + k) = x.getLsbD (31 - k) ∧ (numRevh x).getLsbD k = x.getLsbD k := by
  constructor
  · rw [numRevh, getLsbD_append_high, getLsbD_reverse_half hk, show 16 + (15 - k) = 31 - k by omega]
  · rw [numRevh, getLsbD_append_low hk, getLsbD_half hk, Nat.zero_add]

theorem getLsbD_numRevl (x : Word) {k : Nat} (hk : k < 16) :
    (numRevl x).getLsbD k = x.getLsbD (15 - k) ∧ (numRevl x).getLsbD (16 + k) = x.getLsbD (16 + k) := by
  constructor
  · rw [numRevl, getLsbD_append_low hk, getLsbD_reverse_half hk, Nat.zero_add]
  · rw [numRevl, getLsbD_append_high, getLsbD_half hk]

theorem toNat_numRthl (x : Word) : (numRthl x).toNat = x.toNat % 2 ^ 16 := by
  rw [numRthl, BitVec.toNat_setWidth_of_le (by decide), BitVec.extractLsb'_toNat, Nat.shiftRight_zero]

theorem toNat_numRthh (x : Word) : (numRthh x).toNat = x.toNat / 2 ^ 16 := by
  rw [numRthh, BitVec.toNat_setWidth_of_le (by decide), BitVec.extractLsb'_toNat, Nat.shiftRight_eq_div_pow]
  exact Nat.mod_eq_of_lt (by omega)

/-! ## The results -/

/-- Settles O44: two runs of R200 with two sources, whose values are told bit by bit. -/
theorem andOrResults : Obligations.AndOrResults := by
  refine ⟨fun g d a b i op hword => ?_, by decide, fun s g d a b => ⟨fun hready => ⟨?_, ?_⟩, fun hfails => ?_⟩⟩
  · obtain ⟨rfl, rfl⟩ | ⟨rfl, rfl⟩ := hword
    · exact wordOf_paramsA3U_fields 0x040#9 g d a b
    · exact wordOf_paramsA3U_fields 0x041#9 g d a b
  · exact runOp2_completes hready fun _ _ _ => BitVec.getLsbD_and
  · exact runOp2_completes hready fun _ _ _ => BitVec.getLsbD_or
  · exact ⟨faultsUnless_of_runRegOp (exec_and g d a b s) hfails, faultsUnless_of_runRegOp (exec_or g d a b s) hfails⟩

/-- Settles O45: the complement has a bit at each place below 32, and `LNOT` is one choice on its source. -/
theorem xorNotLnotResults : Obligations.XorNotLnotResults := by
  refine fun s g d a b => ⟨fun hready => ?_, fun hready => ⟨?_, ?_⟩⟩
  · exact runOp2_completes hready fun _ _ _ => BitVec.getLsbD_xor
  · exact runOp1_completes hready fun _ _ hk => by rw [BitVec.getLsbD_not, decide_eq_true hk, Bool.true_and]
  · exact runOp1_completes hready fun _ => ⟨fun hzero => if_pos hzero, fun hne => if_neg hne⟩

/-- Settles O46: two runs of R200 with one source. -/
theorem lboolPcntResults : Obligations.LboolPcntResults := by
  refine ⟨fun g d a i op hword => ?_, by decide, fun s g d a => ⟨fun hready => ⟨?_, ?_⟩, fun hfails => ?_⟩⟩
  · obtain ⟨rfl, rfl⟩ | ⟨rfl, rfl⟩ := hword
    · exact wordOf_paramsA2U_fields 0x045#9 g d a
    · exact wordOf_paramsA2U_fields 0x046#9 g d a
  · exact runOp1_completes hready fun _ => ⟨fun hzero => if_pos hzero, fun hne => if_neg hne⟩
  · exact runOp1_completes hready fun _ => toNat_numPcnt _
  · exact ⟨faultsUnless_of_runRegOp (exec_lbool g d a s) hfails, faultsUnless_of_runRegOp (exec_pcnt g d a s) hfails⟩

/-- Settles O47: a bit number from 32 on names no bit, and `FFS` finds the first set bit of 0 to 31. -/
theorem bitNumberResults : Obligations.BitNumberResults := by
  refine fun s g d a b => ⟨fun hready => ⟨?_, ?_⟩, fun hready => ⟨?_, ?_, ?_⟩⟩
  · exact runOp1_completes hready fun _ _ hk => getLsbD_numBits _ hk
  · refine runOp1_num1_completes hready fun _ => ⟨fun hzero => ?_, fun k hk hset hlow => ?_⟩
    · rw [hzero, numFfs_zero]
    · exact toNat_numFfs_of_lowest hk hset hlow
  · exact runOp2_num2_completes hready fun _ => toNat_numBe _ _
  · exact runOp2_num2_completes hready fun _ _ hk => getLsbD_numBs _ _ hk
  · exact runOp2_num2_completes hready fun _ _ hk => getLsbD_numBc _ _ hk

/-- Settles O48: the shifts are those of the whole of `Rb`. -/
theorem shiftResults : Obligations.ShiftResults := by
  refine fun s g d a b hready => ⟨?_, ?_, ?_⟩
  · exact runOp2_num2_completes hready fun _ => toNat_numLsr _ _
  · exact runOp2_num2_completes hready fun _ => toNat_numLsl _ _
  · exact runOp2_num2_completes hready fun _ => toInt_numAsr _ _

/-- Settles O49: the reversals bit by bit, the half-words as numbers. -/
theorem reversalAndHalfWordResults : Obligations.ReversalAndHalfWordResults := by
  refine fun s g d a hready => ⟨?_, ?_, ?_, ?_, ?_⟩
  · exact runOp1_num1_completes hready fun _ _ hk => getLsbD_reverse_of_lt _ hk
  · exact runOp1_num1_completes hready fun _ _ hk => getLsbD_numRevh _ hk
  · exact runOp1_num1_completes hready fun _ _ hk => getLsbD_numRevl _ hk
  · exact runOp1_num1_completes hready fun _ => toNat_numRthl _
  · exact runOp1_num1_completes hready fun _ => toNat_numRthh _

end Sys2Proof.Machine

/-! # The results of the mathematics instructions (O50 to O55) -/

namespace Sys2Proof.Machine

/-! ## The runs of R200 with an accumulator, and with a free value -/

section Runs

variable {s : State} {g : RegSet} {d a b : RegNum} {n : NumField} {P : RegFile → Word → Prop}

/-- The accumulator is named twice, as the destination and as a source (R215). -/
theorem runAccumulate_num3_completes {f : Word → Word → Word → Word} (h : RegsReady s g [d, a, b] [d, a, b])
    (hvalue : ∀ rf, P rf (f (rf.get d) (rf.get a) (rf.get b))) :
    ∃ t, runAccumulate (num3 s.params n f) g d a b s = .next t ∧
      WritesReg s t g d fun _ rf v => NumValue s n [rf.get d, rf.get a, rf.get b] v (P rf v) := by
  obtain ⟨hpending, hreads⟩ := h
  have hready : RegsReady s g [d, d, a, b] [d, a, b] :=
    ⟨fun r hr => hpending r ((mem_concernedRegs_congr (by simp) r).mp hr), hreads⟩
  exact runRegOp_completes hready fun _ rf => numValue_of
    (fun hdefault => by rw [num3_default hdefault]; exact hvalue rf) fun hown => num3_own hown f _ _ _

/-! The free value of R233 is an operand of `NUM` too, the first one. -/

theorem runOp2Draw_num3_completes {f : Word → Word → Word → Word} (h : RegsReady s g [d, a, b] [a, b])
    (hvalue : ∀ free rf, P rf (f free (rf.get a) (rf.get b))) :
    ∃ t, runOp2Draw (num3 s.params n f) g d a b s = .next t ∧
      WritesReg s t g d fun _ rf v => NumValueFree s n [rf.get a, rf.get b] v (P rf v) :=
  runRegOpDraw_completes h fun free _ rf => numValueFree_of
    (fun hdefault => by rw [num3_default hdefault]; exact hvalue free rf) fun hown => num3_own hown f _ _ _

theorem runOp1Draw_num2_completes {f : Word → Word → Word} (h : RegsReady s g [d, a] [a])
    (hvalue : ∀ free rf, P rf (f free (rf.get a))) :
    ∃ t, runOp1Draw (num2 s.params n f) g d a s = .next t ∧
      WritesReg s t g d fun _ rf v => NumValueFree s n [rf.get a] v (P rf v) :=
  runRegOpDraw_completes h fun free _ rf => numValueFree_of
    (fun hdefault => by rw [num2_default hdefault]; exact hvalue free rf) fun hown => num2_own hown f _ _

end Runs

/-! ## Signs (R224 to R226) -/

theorem getLsbD_sign (x : Word) : x.getLsbD 31 = decide (x.toInt < 0) := by
  rw [← BitVec.msb_eq_toInt, BitVec.msb_eq_getLsbD_last]

theorem numNeg_eq_ofInt (x : Word) : numNeg x = BitVec.ofInt 32 (-x.toInt) := by
  rw [numNeg, BitVec.zero_sub, BitVec.ofInt_neg, BitVec.ofInt_toInt]

theorem numAbs_eq_ofInt (x : Word) : numAbs x = BitVec.ofInt 32 x.toInt.natAbs := by
  rw [numAbs, getLsbD_sign]
  by_cases hneg : x.toInt < 0
  · rw [if_pos (decide_eq_true hneg), Int.ofNat_natAbs_of_nonpos hneg.le]
    exact numNeg_eq_ofInt x
  · rw [if_neg (by simpa using hneg), Int.natAbs_of_nonneg (not_lt.mp hneg), BitVec.ofInt_toInt]

theorem getLsbD_numSxt (x : Word) {k : Nat} (hk : k < 32) : (numSxt x).getLsbD k = x.getLsbD (min k 15) := by
  rw [numSxt, BitVec.getLsbD_signExtend, decide_eq_true hk, Bool.true_and]
  split
  case isTrue hlow => rw [getLsbD_half hlow, Nat.zero_add, min_eq_left (by omega)]
  case isFalse hhigh =>
    rw [BitVec.msb_eq_getLsbD_last, getLsbD_half (by decide), Nat.zero_add, min_eq_right (by omega)]

/-! ## Quotients rounded down (R214, R217, R218, R227 to R231) -/

theorem natQuotient_bounds (n : Nat) {m : Nat} (hm : 0 < m) : n / m * m ≤ n ∧ n < (n / m + 1) * m :=
  ⟨Nat.div_mul_le_self n m, Nat.lt_mul_of_div_lt (Nat.lt_succ_self _) hm⟩

theorem pow2_eq (q : Nat) : pow2 q = 2 ^ q := Nat.cast_pow 2 q

theorem pow2_pos (q : Nat) : 0 < pow2 q := Int.natCast_pos.mpr (Nat.two_pow_pos q)

theorem quotient_pow2_bounds (n : Int) (q : Nat) : n / pow2 q * 2 ^ q ≤ n ∧ n < (n / pow2 q + 1) * 2 ^ q := by
  rw [← pow2_eq]
  exact ⟨Int.ediv_mul_le n (pow2_pos q).ne', Int.lt_ediv_add_one_mul_self n (pow2_pos q)⟩

theorem fixedProduct_bounds (q : Nat) (x y : Word) :
    fixedProduct q x y * 2 ^ q ≤ x.toInt * y.toInt ∧ x.toInt * y.toInt < (fixedProduct q x y + 1) * 2 ^ q :=
  quotient_pow2_bounds _ q

/-! ## Division (R218 to R222) -/

theorem truncQuotient_tdiv (n : Int) {d : Int} (hd : d ≠ 0) : TruncQuotient n d (n.tdiv d) := by
  have hrest : n - n.tdiv d * d = n.tmod d := by rw [Int.tmod_def, mul_comm]
  rw [TruncQuotient, hrest]
  constructor
  · rw [Int.natAbs_tmod]
    exact Nat.mod_lt _ (Int.natAbs_pos.mpr hd)
  · rcases le_total 0 n with hn | hn
    · exact mul_nonneg (Int.tmod_nonneg d hn) hn
    · refine mul_nonneg_of_nonpos_of_nonpos ?_ hn
      have hneg := Int.tmod_nonneg d (neg_nonneg.mpr hn)
      rw [Int.neg_tmod] at hneg
      exact neg_nonneg.mp hneg

theorem toInt_ne_zero {x : Word} (h : x ≠ 0#32) : x.toInt ≠ 0 := BitVec.toInt_ne.mpr h

theorem numUdivi_bounds (free x : Word) {y : Word} (hy : y ≠ 0#32) :
    (numUdivi free x y).toNat * y.toNat ≤ x.toNat ∧ x.toNat < ((numUdivi free x y).toNat + 1) * y.toNat := by
  have hfits : x.toNat / y.toNat < 2 ^ 32 := (Nat.div_le_self _ _).trans_lt x.isLt
  rw [numUdivi, if_neg hy, BitVec.toNat_ofNat, Nat.mod_eq_of_lt hfits]
  exact natQuotient_bounds _ (BitVec.toNat_pos_of_ne_zero hy)

theorem toNat_numUrem (free x : Word) {y : Word} (hy : y ≠ 0#32) : (numUrem free x y).toNat = x.toNat % y.toNat := by
  have hfits : x.toNat % y.toNat < 2 ^ 32 := (Nat.mod_le _ _).trans_lt x.isLt
  rw [numUrem, if_neg hy, BitVec.toNat_ofNat, Nat.mod_eq_of_lt hfits]

theorem numUrem_rest (free x : Word) {y : Word} (hy : y ≠ 0#32) :
    (numUrem free x y).toNat < y.toNat ∧ ∃ q, x.toNat = q * y.toNat + (numUrem free x y).toNat := by
  rw [toNat_numUrem free x hy]
  exact ⟨Nat.mod_lt _ (BitVec.toNat_pos_of_ne_zero hy), _, (Nat.div_add_mod' _ _).symm⟩

theorem numSdivi_truncQuotient (free x : Word) {y : Word} (hy : y ≠ 0#32) :
    ∃ q, TruncQuotient x.toInt y.toInt q ∧ numSdivi free x y = BitVec.ofInt 32 q :=
  ⟨_, truncQuotient_tdiv _ (toInt_ne_zero hy), if_neg hy⟩

theorem numDivq_truncQuotient (q : Nat) (free x : Word) {y : Word} (hy : y ≠ 0#32) :
    ∃ p, TruncQuotient (x.toInt * 2 ^ q) y.toInt p ∧ numDivq q free x y = BitVec.ofInt 32 p := by
  rw [numDivq, if_neg hy, pow2_eq]
  exact ⟨_, truncQuotient_tdiv _ (toInt_ne_zero hy), rfl⟩

theorem numRcpq_truncQuotient (q : Nat) (free : Word) {x : Word} (hx : x ≠ 0#32) :
    ∃ p, TruncQuotient (2 ^ (2 * q)) x.toInt p ∧ numRcpq q free x = BitVec.ofInt 32 p := by
  rw [numRcpq, if_neg hx, pow2_eq]
  exact ⟨_, truncQuotient_tdiv _ (toInt_ne_zero hx), rfl⟩

/-! ## The square root (R223) -/

/-- `m` is the square root of `n` rounded down. -/
def IsFloorSqrt (n m : Nat) : Prop := m * m ≤ n ∧ n < (m + 1) * (m + 1)

/-- The bits found so far are not too large, and the bits still to come can make them large enough. -/
theorem isFloorSqrt_isqrtFrom {n k r : Nat} (hlow : r * r ≤ n) (hhigh : n < (r + 2 ^ k) * (r + 2 ^ k)) :
    IsFloorSqrt n (isqrtFrom n k r) := by
  induction k generalizing r with
  | zero => exact ⟨hlow, hhigh⟩
  | succ k ih =>
    unfold isqrtFrom
    split
    case isTrue hbit => exact ih hbit (by rwa [pow_succ, mul_two, ← add_assoc] at hhigh)
    case isFalse hbit => exact ih hlow (not_le.mp hbit)

theorem isFloorSqrt_numSqrtq {q : Nat} (hq : q ≤ 20) (free : Word) {x : Word} (hx : 0 ≤ x.toInt) :
    IsFloorSqrt (x.toNat * 2 ^ q) (numSqrtq q free x).toNat := by
  have hradicand : x.toNat * 2 ^ q < 2 ^ 32 * 2 ^ q := Nat.mul_lt_mul_of_pos_right x.isLt (Nat.two_pow_pos q)
  have hbits : x.toNat * 2 ^ q < (0 + 2 ^ (16 + q)) * (0 + 2 ^ (16 + q)) := by
    refine hradicand.trans_le ?_
    rw [Nat.zero_add, ← pow_add, ← pow_add]
    exact Nat.pow_le_pow_right (by decide) (by omega)
  have hroot : IsFloorSqrt (x.toNat * 2 ^ q) (isqrtFrom (x.toNat * 2 ^ q) (16 + q) 0) :=
    isFloorSqrt_isqrtFrom (Nat.zero_le _) hbits
  have hfits : isqrtFrom (x.toNat * 2 ^ q) (16 + q) 0 < 2 ^ 32 := by
    refine Nat.mul_self_lt_mul_self_iff.mp ((hroot.1.trans_lt hradicand).trans_le ?_)
    exact Nat.mul_le_mul_left _ (Nat.pow_le_pow_right (by decide) (by omega))
  rwa [numSqrtq, getLsbD_sign, decide_eq_false (not_lt.mpr hx), if_neg Bool.false_ne_true, BitVec.toNat_ofNat,
    Nat.mod_eq_of_lt hfits]

/-! ## Rounding to an integer (R227 to R231) -/

theorem numUfloor_bounds (q : Nat) (x : Word) :
    (numUfloor q x).toNat * 2 ^ q ≤ x.toNat ∧ x.toNat < ((numUfloor q x).toNat + 1) * 2 ^ q := by
  rw [numUfloor, BitVec.toNat_ushiftRight, Nat.shiftRight_eq_div_pow]
  exact natQuotient_bounds _ (Nat.two_pow_pos q)

theorem numSfloor_bounds (q : Nat) (x : Word) :
    (numSfloor q x).toInt * 2 ^ q ≤ x.toInt ∧ x.toInt < ((numSfloor q x).toInt + 1) * 2 ^ q := by
  rw [numSfloor, BitVec.toInt_sshiftRight, Int.shiftRight_eq_div_pow]
  exact quotient_pow2_bounds _ q

theorem numUceil_bounds {q : Nat} (hq : 1 ≤ q) (x : Word) :
    x.toNat ≤ (numUceil q x).toNat * 2 ^ q ∧ (numUceil q x).toNat * 2 ^ q < x.toNat + 2 ^ q := by
  have hpow : 2 ≤ 2 ^ q := Nat.le_self_pow (by omega) 2
  have hx := x.isLt
  have hfits : (x.toNat + 2 ^ q - 1) / 2 ^ q < 2 ^ 32 := (Nat.div_lt_iff_lt_mul (by omega)).mpr (by omega)
  obtain ⟨hlow, hhigh⟩ := natQuotient_bounds (x.toNat + 2 ^ q - 1) (Nat.two_pow_pos q)
  rw [numUceil, BitVec.toNat_ofNat, Nat.mod_eq_of_lt hfits]
  rw [add_one_mul] at hhigh
  omega

/-- A word with less than a unit added still fits in a word after the shift right by `q`. -/
theorem toInt_ofInt_quotient_pow2 (x : Word) {q : Nat} (hq : 1 ≤ q) {k : Int} (hk : 0 ≤ k) (hlt : k < pow2 q) :
    (BitVec.ofInt 32 ((x.toInt + k) / pow2 q)).toInt = (x.toInt + k) / pow2 q := by
  have hpow : 2 ≤ pow2 q := Int.ofNat_le.mpr (Nat.le_self_pow (by omega) 2)
  have hmin := x.le_toInt
  have hmax := x.toInt_lt
  refine BitVec.toInt_ofInt_eq_self (w := 32) (by decide) ?_ ?_
  · exact (Int.le_ediv_iff_mul_le (pow2_pos q)).mpr (by omega)
  · exact (Int.ediv_lt_iff_lt_mul (pow2_pos q)).mpr (by omega)

theorem numSceil_bounds {q : Nat} (hq : 1 ≤ q) (x : Word) :
    x.toInt ≤ (numSceil q x).toInt * 2 ^ q ∧ (numSceil q x).toInt * 2 ^ q < x.toInt + 2 ^ q := by
  have hpos := pow2_pos q
  obtain ⟨hlow, hhigh⟩ := quotient_pow2_bounds (x.toInt + (pow2 q - 1)) q
  rw [numSceil, add_sub_assoc, toInt_ofInt_quotient_pow2 x hq (by omega) (by omega)]
  rw [← pow2_eq] at hlow hhigh ⊢
  rw [add_one_mul] at hhigh
  omega

theorem numRound_bounds {q : Nat} (hq : 1 ≤ q) (x : Word) :
    (2 * (numRound q x).toInt - 1) * 2 ^ q ≤ 2 * x.toInt ∧
      2 * x.toInt < (2 * (numRound q x).toInt + 1) * 2 ^ q := by
  have hpos := pow2_pos (q - 1)
  have hhalf : pow2 q = 2 * pow2 (q - 1) := by rw [pow2_eq, pow2_eq, mul_pow_sub_one (by omega)]
  obtain ⟨hlow, hhigh⟩ := quotient_pow2_bounds (x.toInt + pow2 (q - 1)) q
  rw [numRound, toInt_ofInt_quotient_pow2 x hq hpos.le (by omega)]
  rw [← pow2_eq] at hlow hhigh ⊢
  constructor <;> linarith

/-! ## The results -/

/-- Settles O50: the word operations are modulo 2^32, and bit 31 is the sign for `ABS`, bit 15 for `SXT`. -/
theorem addSubtractAndSignResults : Obligations.AddSubtractAndSignResults := by
  refine fun s g d a b => ⟨fun hready => ⟨?_, ?_⟩, fun hready => ⟨?_, ?_, ?_⟩⟩
  · exact runOp2_completes hready fun _ => BitVec.toNat_add _ _
  · exact runOp2_completes hready fun _ => by rw [BitVec.toNat_sub, add_comm]
  · exact runOp1_num1_completes hready fun _ => numAbs_eq_ofInt _
  · exact runOp1_num1_completes hready fun _ => numNeg_eq_ofInt _
  · exact runOp1_num1_completes hready fun _ _ hk => getLsbD_numSxt _ hk

/-- Settles O51: the bodies form the exact sum and product, and the word keeps the low 32 bits. -/
theorem integerMultiplyResults : Obligations.IntegerMultiplyResults := by
  refine fun s g d a b => ⟨fun hready => ⟨?_, ?_⟩, fun hready => ⟨?_, ?_⟩⟩
  · exact runOp2_num2_completes hready fun _ => BitVec.toNat_ofNat _ _
  · exact runOp2_num2_completes hready fun _ => rfl
  · exact runAccumulate_num3_completes hready fun _ => BitVec.toNat_ofNat _ _
  · exact runAccumulate_num3_completes hready fun _ => rfl

/-- Settles O52: the integer `p` is the model's `fixedProduct`. -/
theorem fixedMultiplyResults : Obligations.FixedMultiplyResults := by
  refine fun s g d a b => ⟨fun hready => ?_, fun hready => ?_⟩
  · refine runOp2_num2_completes hready fun rf => ?_
    obtain ⟨hlow, hhigh⟩ := fixedProduct_bounds s.params.qfrac (rf.get a) (rf.get b)
    exact ⟨_, hlow, hhigh, rfl⟩
  · refine runAccumulate_num3_completes hready fun rf => ?_
    obtain ⟨hlow, hhigh⟩ := fixedProduct_bounds s.params.qfrac (rf.get a) (rf.get b)
    exact ⟨_, hlow, hhigh, rfl⟩

/-- Settles O53: for a divisor that is not 0 the free value plays no part, and every divisor completes. -/
theorem integerDivideResults : Obligations.IntegerDivideResults := by
  refine fun s g d a b hready => ⟨?_, ?_, ?_⟩
  · exact runOp2Draw_num3_completes hready fun free _ hdivisor => numUdivi_bounds free _ hdivisor
  · exact runOp2Draw_num3_completes hready fun free _ hdivisor => numSdivi_truncQuotient free _ hdivisor
  · exact runOp2Draw_num3_completes hready fun free _ hdivisor => numUrem_rest free _ hdivisor

/-- Settles O54: the bound on `QFRAC` keeps the root within a word; the quotients are cut to 32 bits anyway. -/
theorem fixedDivideResults : Obligations.FixedDivideResults := by
  refine fun s g d a b ⟨_, hq⟩ => ⟨fun hready => ?_, fun hready => ⟨?_, ?_⟩⟩
  · exact runOp2Draw_num3_completes hready fun free _ hdivisor => numDivq_truncQuotient _ free _ hdivisor
  · exact runOp1Draw_num2_completes hready fun free _ hdivisor => numRcpq_truncQuotient _ free hdivisor
  · exact runOp1Draw_num2_completes hready fun free _ hradicand => isFloorSqrt_numSqrtq hq free hradicand

/-- Settles O55: with `QFRAC` at least 1, rounding up or to the nearest still fits in a word. -/
theorem roundingResults : Obligations.RoundingResults := by
  refine fun s g d a ⟨hlegal, _⟩ hready => ?_
  have hq : 1 ≤ s.params.qfrac := by omega
  refine ⟨?_, ?_, ?_, ?_, ?_⟩
  · exact runOp1_num1_completes hready fun _ => numUfloor_bounds _ _
  · exact runOp1_num1_completes hready fun _ => numSfloor_bounds _ _
  · exact runOp1_num1_completes hready fun _ => numUceil_bounds hq _
  · exact runOp1_num1_completes hready fun _ => numSceil_bounds hq _
  · exact runOp1_num1_completes hready fun _ => numRound_bounds hq _

end Sys2Proof.Machine

/-! # Faults, and the moves of `RUN` and `SIGNAL` (O8, O9, O16, O57) -/

namespace Sys2Proof.Machine

/-! ## Which faults an instruction may raise (R251) -/

/-- `LD` and `ST`, the instructions that address memory. -/
abbrev AddressesMemory (i : Instr) : Prop := (∃ g d rs, i = .ld g d rs) ∨ ∃ gd gs d rs, i = .st gd gs d rs

/-- The faults instruction `i` may raise in state `s`, one shape for each check of R253: the column "raised by" of
the table of R251, each with the condition that the check found. -/
inductive MayRaise (s : State) (i : Instr) : Fault → Prop
  | illegal (ip w : Word) (hi : i.wellFormed = false) : MayRaise s i (.illegalInstruction ip w)
  | pending {r : RegRef} (hi : mayFindPending i = true) (hr : s.isPending r = true) : MayRaise s i (.pendingAccess r)
  | unwritten {r : ReadRef} (hi : mayFindUnwritten i = true) (hr : s.holdsValue r = false) :
      MayRaise s i (.unwrittenRead r)
  | index {k : Nat} (hi : ∃ dir d rs, i = .mvg dir d rs ∨ i = .mvge dir d rs) (hk : 63 < k) :
      MayRaise s i (.globalIndexRange k)
  | misaligned {a : Word} (hi : AddressesMemory i) (ha : a.toNat % 4 ≠ 0) : MayRaise s i (.misalignedAccess a)
  | notAdmitted {a : Word} (hi : AddressesMemory i) (haligned : a.toNat % 4 = 0) (hadmit : s.admits a = false) :
      MayRaise s i (.accessFault a)
  | code {a : Word} (hi : ∃ gd gs d rs, i = .st gd gs d rs) (ha : s.inImage a = true) : MayRaise s i (.codeWrite a)
  | overflow {u : MauUnit} {depth : Nat} (hi : AddressesMemory i) (hdepth : s.params.mauDepth = some depth)
      (hfull : depth ≤ (s.queueOf u).length) : MayRaise s i (.queueOverflow u)
  | completion (hi : i = .sig) (hqueued : s.anyQueued = true) : MayRaise s i .pendingAtCompletion

/-! ### The checks, one by one -/

/-- The check that answers `o` finds only faults that `i` may raise. -/
def FindsListed (s : State) (i : Instr) (o : Option Fault) : Prop := ∀ f, o = some f → MayRaise s i f

section Checks

variable {s : State} {i : Instr}

theorem FindsListed.or {o o' : Option Fault} (h : FindsListed s i o) (h' : FindsListed s i o') :
    FindsListed s i (o.or o') := fun f hf => by
  rcases Option.or_eq_some_iff.mp hf with hf | ⟨-, hf⟩
  · exact h f hf
  · exact h' f hf

theorem pendingFault_findsListed (hi : mayFindPending i = true) (named : List RegRef) :
    FindsListed s i (pendingFault s named) := fun f hf => by
  obtain ⟨r, -, hr, rfl⟩ := pendingFault_eq_some hf
  exact .pending hi hr

theorem unwrittenFault_findsListed (hi : mayFindUnwritten i = true) (reads : List ReadRef) :
    FindsListed s i (unwrittenFault s reads) := fun f hf => by
  obtain ⟨r, -, hr, rfl⟩ := unwrittenFault_eq_some hf
  exact .unwritten hi hr

/-- The register checks of R253 step 5. -/
theorem registerChecks_findsListed (hp : mayFindPending i = true) (hu : mayFindUnwritten i = true)
    (named : List RegRef) (reads : List ReadRef) :
    FindsListed s i ((pendingFault s named).or (unwrittenFault s reads)) :=
  (pendingFault_findsListed hp named).or (unwrittenFault_findsListed hu reads)

theorem indexFault_findsListed (hi : ∃ dir d rs, i = .mvg dir d rs ∨ i = .mvge dir d rs) (ks : List Nat) :
    FindsListed s i (indexFault ks) := fun f hf => by
  obtain ⟨k, hk, rfl⟩ := Option.map_eq_some_iff.mp hf
  exact .index hi (by simpa using List.find?_some hk)

theorem dataFault_findsListed (hi : AddressesMemory i) (a : Word) : FindsListed s i (dataFault s a) := fun f hf => by
  by_cases haligned : a.toNat % 4 = 0
  · cases hadmit : s.admits a
    · rw [dataFault_of_not_admitted haligned hadmit] at hf
      cases hf
      exact .notAdmitted hi haligned hadmit
    · rw [dataFault_of_loadAddress ⟨haligned, hadmit⟩] at hf
      cases hf
  · rw [dataFault_of_misaligned haligned] at hf
    cases hf
    exact .misaligned hi haligned

theorem storeFault_findsListed (hi : ∃ gd gs d rs, i = .st gd gs d rs) (a : Word) :
    FindsListed s i (storeFault s a) := by
  refine (dataFault_findsListed (.inr hi) a).or fun f hf => ?_
  obtain ⟨himage, hf⟩ := Option.ite_none_right_eq_some.mp hf
  cases hf
  exact .code hi himage

/-- The address checks of R253 step 7 find what the check of some address finds. -/
theorem findSome?_findsListed {check : Word → Option Fault} (h : ∀ a, FindsListed s i (check a)) (addrs : List Word) :
    FindsListed s i (addrs.findSome? check) := fun f hf => by
  obtain ⟨a, -, ha⟩ := List.exists_of_findSome?_eq_some hf
  exact h a f ha

theorem overflowFault_findsListed (hi : AddressesMemory i) (us : List MauUnit) :
    FindsListed s i (overflowFault s us) := fun f hf => by
  unfold overflowFault at hf
  split at hf
  · cases hf
  · rename_i depth hdepth
    obtain ⟨u, hu, rfl⟩ := Option.map_eq_some_iff.mp hf
    exact .overflow hi hdepth (by simpa using List.find?_some hu)

theorem checked_mayRaise {o : Option Fault} {after : State} {f : Fault} (h : checked o after = .fault f)
    (ho : FindsListed s i o) : MayRaise s i f := ho f (checked_eq_fault.mp h)

end Checks

/-! ### The instructions -/

theorem concernedRegs_nil (s : State) (g : RegSet) : concernedRegs s g [] = [] := by
  cases g
  · exact List.flatMap_eq_nil_iff.mpr fun _ _ => rfl
  · rfl

section Instructions

variable {s : State} {f : Fault}

/-- Every logic and mathematics instruction makes the register checks only (R200, R256). -/
theorem exec_mayRaise_of_operands200 {i : Instr} {g : RegSet} {named reads : List RegNum}
    (hop : operands200 i = some (g, named, reads)) (h : exec i s = .fault f) : MayRaise s i f := by
  obtain ⟨hpending, hunwritten⟩ : mayFindPending i = true ∧ mayFindUnwritten i = true := by
    cases i <;> cases hop <;> exact ⟨rfl, rfl⟩
  obtain ⟨all, after, -, hexec⟩ := exec_registerRun hop s
  exact checked_mayRaise (hexec.symm.trans h) (registerChecks_findsListed hpending hunwritten _ _)

/-- A register-to-register run without sources. -/
theorem runRegOp_nil_mayRaise {i : Instr} (hi : mayFindPending i = true) {g : RegSet} {d : RegNum}
    {value : RegFile → Word} (h : runRegOp g d [] value s = .fault f) : MayRaise s i f := by
  rw [runRegOp, concernedRegs_nil] at h
  exact checked_mayRaise h ((pendingFault_findsListed hi _).or nofun)

theorem execMov_mayRaise {gd gs : RegSet} {d rs : RegNum} (h : execMov gd gs d rs s = .fault f) :
    MayRaise s (.mov gd gs d rs) f := by
  cases gd <;> cases gs <;> exact checked_mayRaise h (registerChecks_findsListed rfl rfl _ _)

theorem moveIndexed_mayRaise {i : Instr} (hi : ∃ dir d rs, i = .mvg dir d rs ∨ i = .mvge dir d rs)
    {off : Nat → Nat} {dir : MoveDir} {d rs : RegNum} (h : moveIndexed off dir d rs s = .fault f) :
    MayRaise s i f := by
  obtain ⟨hpending, hunwritten⟩ : mayFindPending i = true ∧ mayFindUnwritten i = true := by
    obtain ⟨_, _, _, rfl | rfl⟩ := hi <;> exact ⟨rfl, rfl⟩
  cases dir <;>
  exact checked_mayRaise h
    ((registerChecks_findsListed hpending hunwritten _ _).or (indexFault_findsListed hi _))

theorem execLd_mayRaise {g : RegSet} {d rs : RegNum} (h : execLd g d rs s = .fault f) :
    MayRaise s (.ld g d rs) f := by
  have hi : AddressesMemory (.ld g d rs) := .inl ⟨g, d, rs, rfl⟩
  exact checked_mayRaise h (((registerChecks_findsListed rfl rfl _ _).or
    (findSome?_findsListed (dataFault_findsListed hi) _)).or (overflowFault_findsListed hi _))

/-- `ST Gd, Ss` is no instruction (R90); the other forms make the checks of a store. -/
theorem execSt_mayRaise {gd gs : RegSet} {d rs : RegNum} (h : execSt gd gs d rs s = .fault f) :
    MayRaise s (.st gd gs d rs) f := by
  have hi : ∃ gd' gs' d' rs', Instr.st gd gs d rs = .st gd' gs' d' rs' := ⟨gd, gs, d, rs, rfl⟩
  cases gd <;> cases gs
  case global.slice =>
    cases h
    exact .illegal _ _ rfl
  all_goals
    exact checked_mayRaise h (((registerChecks_findsListed rfl rfl _ _).or
      (findSome?_findsListed (storeFault_findsListed hi) _)).or (overflowFault_findsListed (.inr hi) _))

theorem execCommit_ne_fault (s : State) (f : Fault) : execCommit s ≠ .fault f := by
  unfold execCommit
  split <;> nofun

theorem execEnt_mayRaise (h : execEnt s = .fault f) : MayRaise s .ent f := by
  unfold execEnt at h
  split at h <;> exact checked_mayRaise h (unwrittenFault_findsListed rfl _)

theorem exec_sig_mayRaise (h : exec .sig s = .fault f) : MayRaise s .sig f := by
  cases hqueued : s.anyQueued
  · rw [exec_sig_of_empty hqueued] at h
    cases h
  · rw [exec_sig_of_queued hqueued] at h
    cases h
    exact .completion rfl hqueued

end Instructions

/-- Every fault of every instruction is one that R251 lists for it. -/
theorem exec_mayRaise {i : Instr} {s : State} {f : Fault} (h : exec i s = .fault f) : MayRaise s i f := by
  cases i with
  | mov => exact execMov_mayRaise h
  | mvg => exact moveIndexed_mayRaise ⟨_, _, _, .inl rfl⟩ h
  | mvge => exact moveIndexed_mayRaise ⟨_, _, _, .inr rfl⟩ h
  | mvi g ty d imm => exact runRegOp_nil_mayRaise rfl ((exec_mvi g ty d imm s).symm.trans h)
  | relpc g d imm => exact runRegOp_nil_mayRaise rfl ((exec_relpc g d imm s).symm.trans h)
  | ld => exact execLd_mayRaise h
  | st => exact execSt_mayRaise h
  | commit => exact absurd h (execCommit_ne_fault s f)
  | ent => exact execEnt_mayRaise h
  | enm | mskl | tmst | ldt | tst | sel => exact checked_mayRaise h (registerChecks_findsListed rfl rfl _ _)
  | emst => exact checked_mayRaise h (pendingFault_findsListed rfl _)
  | sig => exact exec_sig_mayRaise h
  | discard | br | ben | bnen | nop => cases h
  | mvs | sampr | sampc | tild | tist | pld | pst | tofs | tofl | tril | baryp => cases h
  | _ => exact exec_mayRaise_of_operands200 rfl h

/-- Settles O16: each shape of `MayRaise` is the line of the table of R251 for its fault. -/
theorem faultsComeFromListedInstructions : Obligations.FaultsComeFromListedInstructions := by
  intro i s f h
  cases exec_mayRaise h with
  | illegal _ _ hi => exact hi
  | pending hi => exact hi
  | unwritten hi => exact hi
  | index hi hk => exact ⟨hk, hi⟩
  | misaligned hi ha => exact ⟨ha, hi⟩
  | notAdmitted hi haligned hadmit => exact ⟨⟨haligned, hadmit⟩, hi⟩
  | code hi ha => exact ⟨ha, hi⟩
  | overflow hi hdepth hfull => exact ⟨⟨_, hdepth, hfull⟩, hi⟩
  | completion hi hqueued => exact ⟨hi, hqueued⟩

/-! ## What a host move does (R259 to R261, R263) -/

/-- Everything a host move can do: nothing, or the action of its name from the states R263 allows. -/
inductive HostEffect (s : State) : HostMove → State → Prop
  | dropped (m : HostMove) : HostEffect s m s
  | starts (l : Launch) (hrun : s.run.startable = true) : HostEffect s (.start l) (startTask l s)
  | suspends (hrun : s.run = .running) : HostEffect s .suspend (s.setRun .suspended)
  | resumes (hrun : s.run = .suspended) : HostEffect s .resume (s.setRun .running)
  | stops (hrun : s.run = .running ∨ s.run = .suspended) : HostEffect s .stop (stopTask s)

theorem hostMove_effect (m : HostMove) (s : State) : HostEffect s m (hostMove m s) := by
  cases m <;> dsimp only [hostMove] <;> split
  case start.isTrue l h => exact .starts l (Bool.and_eq_true_iff.mp h).1
  case suspend.isTrue h => exact .suspends h
  case resume.isTrue h => exact .resumes h
  case stop.isTrue h => exact .stops h
  all_goals exact .dropped _

theorem startable_iff {r : RunState} :
    r.startable = true ↔ r = .idle ∨ r = .completed ∨ r = .stopped ∨ ∃ f, r = .faulted f := by
  cases r <;> simp [RunState.startable]

/-! ## What a turn of the core does to `RUN` and `SIGNAL` -/

/-- The word at `ip` is a `SIG` (R161). -/
abbrev AtSig (s : State) : Prop := ∃ w, s.fetch = some w ∧ s.decode w = .ok .sig

/-- What a turn of the core can do to `RUN` and `SIGNAL`: nothing; in state `Running`, a fault taken (R252), or a
`SIG` that sets `SIGNAL` and, with `SIG_HALTS`, completes the task (R161). -/
inductive TurnEffect (s : State) : State → Prop
  | keeps {t : State} (hrun : t.run = s.run) (hsignal : t.signal = s.signal) : TurnEffect s t
  | faults (hrun : s.run = .running) (f : Fault) : TurnEffect s (takeFault f s)
  | signals (hrun : s.run = .running) (hsig : AtSig s) {t : State} (hkeeps : t.run = s.run)
      (hsignal : t.signal = true) : TurnEffect s t
  | completes (hrun : s.run = .running) (hsig : AtSig s) (hhalts : s.params.sigHalts = true) {t : State}
      (hcompleted : t.run = .completed) (hsignal : t.signal = true) : TurnEffect s t

theorem exec_sig_turnEffect {s t : State} (hrun : s.run = .running) (hsig : AtSig s) (h : exec .sig s = .next t) :
    TurnEffect s t := by
  obtain ⟨-, rfl⟩ := checked_eq_next.mp h
  split
  · rename_i hhalts
    exact .completes hrun hsig hhalts rfl rfl
  · exact .signals hrun hsig rfl rfl

theorem coreTurn_turnEffect {s t : State} (h : coreTurn s = .next t) : TurnEffect s t := by
  rcases coreTurn_eq_next h with ⟨hrun, hturn⟩ | ⟨-, rfl⟩
  · rcases runCore_eq_next hturn with ⟨-, rfl⟩ | ⟨_, _, -, -, rfl⟩ | ⟨w, i, hw, hi, hexec⟩ | ⟨_, _, _, -, -, -, rfl⟩
    · exact .faults hrun _
    · exact .faults hrun _
    · by_cases hsig : i = .sig
      · subst hsig
        exact exec_sig_turnEffect hrun ⟨w, hw, hi⟩ hexec
      · obtain ⟨hsignal, hkeeps⟩ := (exec_effect hexec).signal_run_eq hsig
        exact .keeps hkeeps hsignal
    · exact .faults hrun _
  · exact .keeps rfl rfl

/-! ## What a step does to `RUN` and `SIGNAL` (R262, R263) -/

/-- Everything one step can do to `RUN` and `SIGNAL` of a state whose listed moves are `moves`: a turn of the core
when its move is next or none is listed, nothing by a unit, or a move of the host. -/
inductive AgentEffect (moves : List Move) (s : State) : State → Prop
  | core (hmoves : moves = [] ∨ moves.head? = some .core) {t : State} (h : TurnEffect s t) : AgentEffect moves s t
  | unit {t : State} (hrun : t.run = s.run) (hsignal : t.signal = s.signal) : AgentEffect moves s t
  | host {m : HostMove} (hmoves : moves.head? = some (.host m)) {t : State} (h : HostEffect s m t) :
      AgentEffect moves s t

/-- A step has one of these effects on the state with the model's own fields, the list of moves and the counter,
changed (log 10, log 12). -/
theorem step_agentEffect {s t : State} (h : step s = .next t) :
    ∃ l n, AgentEffect s.env ((s.setEnv l).setFrees n) t := by
  obtain ⟨l, n, hsched⟩ := scheduled_frame s
  rcases nextMove_eq_next h with ⟨e, hcore, hturn⟩ | ⟨e, u, k, -, rfl⟩ | ⟨e, m, henv, rfl⟩
  · rw [hsched] at hturn
    refine ⟨e, n, .core ?_ (coreTurn_turnEffect hturn)⟩
    rcases scheduled_cases s with ⟨hsame, -⟩ | ⟨hempty, -, -⟩
    · rw [hsame] at hcore
      exact hcore.imp And.left fun hcore => by rw [hcore, List.head?_cons]
    · exact .inl hempty
  · rw [hsched]
    refine ⟨e, n, ?_⟩
    rcases mauPerform_performs ((s.setEnv e).setFrees n) u k with hsame | hperf
    · exact .unit (congrArg State.run hsame) (congrArg State.signal hsame)
    · exact .unit hperf.run_eq hperf.signal_eq
  · exact ⟨e, s.frees, .host (by rw [henv, List.head?_cons]) (hostMove_effect m _)⟩

/-- Settles O8: each effect of a step keeps `RUN` or is a line of R263. -/
theorem runStateMovesAreListed : Obligations.RunStateMovesAreListed := by
  intro s t hstep
  obtain ⟨l, n, heff⟩ := step_agentEffect hstep
  cases heff with
  | core hmoves hturn =>
    cases hturn with
    | keeps hrun => exact .inl hrun
    | faults hrun f => exact .inr (.inr (.inr (.inl ⟨hrun, ⟨f, rfl⟩, hmoves⟩)))
    | signals _ _ hkeeps => exact .inl hkeeps
    | completes hrun hsig hhalts hcompleted hsignal =>
      exact .inr (.inr (.inl ⟨hrun, hcompleted, hmoves, hhalts, hsignal, hsig⟩))
  | unit hrun => exact .inl hrun
  | host hmoves hhost =>
    cases hhost with
    | dropped => exact .inl rfl
    | starts l hrun => exact .inr (.inl ⟨startable_iff.mp hrun, rfl, l, hmoves⟩)
    | suspends hrun => exact .inr (.inr (.inr (.inr (.inl ⟨hrun, rfl, hmoves⟩))))
    | resumes hrun => exact .inr (.inr (.inr (.inr (.inr (.inl ⟨hrun, rfl, hmoves⟩)))))
    | stops hrun => exact .inr (.inr (.inr (.inr (.inr (.inr ⟨hrun, rfl, hmoves⟩)))))

/-- Settles O9: of the effects of a step, a `SIG` sets `SIGNAL`, a start clears it, and the others keep it. -/
theorem signalChangesOnlyBySigOrStart : Obligations.SignalChangesOnlyBySigOrStart := by
  intro s t hstep
  obtain ⟨l, n, heff⟩ := step_agentEffect hstep
  cases heff with
  | core hmoves hturn =>
    cases hturn with
    | keeps _ hsignal => exact .inl hsignal
    | faults => exact .inl rfl
    | signals hrun hsig _ hsignal => exact .inr (.inl ⟨hsignal, hrun, hmoves, hsig⟩)
    | completes hrun hsig _ _ hsignal => exact .inr (.inl ⟨hsignal, hrun, hmoves, hsig⟩)
  | unit _ hsignal => exact .inl hsignal
  | host hmoves hhost =>
    cases hhost with
    | starts l => exact .inr (.inr ⟨rfl, l, hmoves⟩)
    | dropped | suspends | resumes | stops => exact .inl rfl

/-! ## Suspend, resume and stop (R260, R261) -/

theorem setRun_of_run_eq {s : State} {r : RunState} (h : s.run = r) : s.setRun r = s := by
  subst h
  rfl

section HostMoves

variable {s : State} {rest : List Move}

theorem step_of_suspend (henv : s.env = .host .suspend :: rest) (hrun : s.run = .running) :
    step s = .next ((s.setEnv rest).setRun .suspended) :=
  (step_of_host henv).trans (congrArg Host.Outcome.next (if_pos hrun))

theorem step_of_resume (henv : s.env = .host .resume :: rest) (hrun : s.run = .suspended) :
    step s = .next ((s.setEnv rest).setRun .running) :=
  (step_of_host henv).trans (congrArg Host.Outcome.next (if_pos hrun))

theorem step_of_stop (henv : s.env = .host .stop :: rest) (hrun : s.run = .running ∨ s.run = .suspended) :
    step s = .next (stopTask (s.setEnv rest)) :=
  (step_of_host henv).trans (congrArg Host.Outcome.next (if_pos hrun))

theorem step_of_start_dropped {l : Launch} (henv : s.env = .host (.start l) :: rest)
    (h : s.run = .running ∨ s.run = .suspended ∨ l.ok s.slices.length = false) : step s = .next (s.setEnv rest) := by
  have hdropped : ¬ (s.run.startable && l.ok s.slices.length) = true := by
    rcases h with h | h | h <;> simp [h, RunState.startable]
  exact (step_of_host henv).trans (congrArg Host.Outcome.next (if_neg hdropped))

end HostMoves

/-- A stop empties the queue of every slice and changes nothing else of it (log 21). -/
theorem stopTask_eachSlice (s : State) :
    EachSlice (fun _ sl sl' => OnlyQueue sl sl' ∧ sl'.queue = []) s (stopTask s) :=
  eachSlice_updateEvery rfl fun _ _ _ => ⟨⟨rfl, rfl, rfl, rfl⟩, rfl⟩

/-- Settles O57: a host move is its action from the states R263 allows, and dropped from every other (log 21, log 23,
log 29 and log 35). -/
theorem hostSuspendResumeStop : Obligations.HostSuspendResumeStop := by
  refine fun s rest => ⟨step_of_suspend, step_of_resume, fun henv hrun => ?_, fun henv hrun => ?_,
    fun henv hrun => ?_, fun henv hrunning hsuspended => ?_, fun l henv h => step_of_start_dropped henv h,
    fun henv hrun => ?_⟩
  · exact ⟨_, step_of_stop henv hrun, rfl, rfl, rfl, rfl, rfl, rfl, rfl, rfl, rfl, stopTask_eachSlice _, fun _ => rfl⟩
  · exact (step_of_host henv).trans (congrArg Host.Outcome.next (if_neg hrun))
  · exact (step_of_host henv).trans (congrArg Host.Outcome.next (if_neg hrun))
  · exact (step_of_host henv).trans (congrArg Host.Outcome.next (if_neg (not_or_intro hrunning hsuspended)))
  · refine ⟨_, step_of_suspend henv hrun, (step_of_resume (rest := rest) rfl rfl).trans ?_⟩
    exact congrArg Host.Outcome.next (setRun_of_run_eq (s := s.setEnv rest) hrun)

end Sys2Proof.Machine
